-- ==== Sys2Proof/Word.lean ====
section
/-! DEFINITION. The word of the block: every register is 32 bits wide (`10_state.md` §2, R42). -/

namespace Sys2Proof

/-- A 32-bit register value; bit 0 is the least significant bit (R8). -/
abbrev Word := BitVec 32

end Sys2Proof
end

