-- ==== Sys2Proof/Machine/Bits.lean ====
section
/-! DEFINITION. Bit fields of a word (`00_scope.md` R8): `v[hi:lo]` read as an unsigned number, a
single bit, and a command word put together from its three fields (`30_encoding.md` R120). -/

namespace Sys2Proof.Machine

/-- `w[hi:lo]`, inclusive, as a bit vector of its own width (R8). -/
def slice (w : Word) (lo len : Nat) : BitVec len := w.extractLsb' lo len

/-- `w[lo+len-1 : lo]` as an unsigned number (R8, R125). -/
def field (w : Word) (lo len : Nat) : Nat := (slice w lo len).toNat

/-- `w[i]` (R8). -/
def bit (w : Word) (i : Nat) : Bool := w.getLsbD i

/-- OPC[31:24], FLAGS[23:16], INDEX[15:0] put into one word (R120). -/
def mkWord (opc flags index : Nat) : Word :=
  BitVec.ofNat 32 (opc * 2 ^ 24 + flags * 2 ^ 16 + index)

/-- A flag as a number. -/
def flagNat (b : Bool) : Nat := if b then 1 else 0

end Sys2Proof.Machine
end

