-- ==== Sys2Proof/Config.lean ====
section
/-! DEFINITION. The implementation parameters of `00_scope.md` R6, as plain data that a state
carries unchanged, and the values and functions the spec leaves open, as constants without a body. -/

namespace Sys2Proof

/-- Grant formats, in the order of their codes 0..3 (R128, R290). -/
inductive GrantFormat where
  | dlA | dlB | ulA | ulB
deriving DecidableEq, Repr

/-- Addressing modes, in the order of their codes 0..4 (R128, R290). -/
inductive AddrMode where
  | bcast | ra | paging | temp | ded
deriving DecidableEq, Repr

/-- A grant field id, 0..63 (R291). -/
abbrev FieldId := Nat

/-- One defined row of GEN_LAYOUT; a pair with no row is UNDEFINED (R293). -/
structure GenRow where
  fmt    : GrantFormat
  mode   : AddrMode
  fields : List FieldId
deriving DecidableEq, Repr

/-- The parameter TBS_FN (R361): the test function TBS_T(n, CPAR) = n · CPAR[15:0] that
configuration EX1 names, or an arbitrary non-decreasing function (log 6). -/
inductive TbsParam where
  | testFn | given
deriving DecidableEq, Repr

/-- The parameter CCE_MAP: the default of R236, or an arbitrary mapping into the resource blocks
of the control-resource-set (log 7). -/
inductive CceMapParam where
  | protocol | given
deriving DecidableEq, Repr

/-- The stored fields of a layout record (`10_state.md` R55, widths as there). The derived values
of R232 are computed from these. -/
structure Layout where
  dur      : BitVec 2
  start    : BitVec 4
  il       : Bool
  bundle   : BitVec 3
  ilv      : BitVec 3
  shift    : BitVec 9
  rbOffset : BitVec 16
  fmask    : BitVec 45
deriving DecidableEq, Repr

/-- The parameters of one block (R6). BASE and IRQ_LINE are the platform's and no rule depends on
them (U20, log 9). -/
structure Config where
  numCtx     : Nat
  nmax       : Nat
  numLayouts : Nat
  numBeams   : Nat
  numRb      : Nat
  numTracks  : Nat
  allocMax   : Nat
  hasRbs     : Bool
  hasBma     : Bool
  tbs        : TbsParam
  cceMap     : CceMapParam
  genLayout  : List GenRow
  genVariant : List FieldId
deriving DecidableEq, Repr

/-- FREE VALUE (U13, D42, log 6): the function from which a `given` TBS_FN is made. -/
opaque Config.tbsRaw : Nat → Word → Word

/-- FREE VALUE (U14, D27, log 7): for a layout, a bundle and an index within the bundle, where a
`given` CCE_MAP places it. -/
opaque Config.cceMapRaw : Layout → Nat → Nat → Nat

/-- FREE VALUE (U1, U2, log 3): the engine's choice among several enabled moves. -/
opaque Config.enginePick : Nat → Nat

/-- FREE VALUE (R464, log 27): how many moves of the other port the engine may make, in each of its
successive rounds, while a port waits with a command that could run. -/
opaque Config.patience : Nat → Nat

/-- The id of the field FDRA (R291), after which the variant branch is tested (R294). -/
def fdraId : FieldId := 1

/-- The parameter ranges of R6 and the table invariants of R293 and R291. -/
def Config.wf (c : Config) : Bool :=
  decide (1 ≤ c.numCtx ∧ c.numCtx ≤ 65536) &&
  decide (1 ≤ c.nmax ∧ c.nmax ≤ 255) &&
  decide (1 ≤ c.numLayouts ∧ c.numLayouts ≤ 65536) &&
  decide (1 ≤ c.numBeams ∧ c.numBeams ≤ 256) &&
  decide (1 ≤ c.numRb ∧ c.numRb ≤ 65535) &&
  decide (1 ≤ c.numTracks ∧ c.numTracks ≤ 255) &&
  decide (1 ≤ c.allocMax ∧ c.allocMax ≤ 65535) &&
  c.genLayout.all (fun r => decide (r.fields.count fdraId ≤ 1) && r.fields.all (fun f => decide (f < 64))) &&
  c.genVariant.all (fun f => decide (f < 64) && decide (f ≠ fdraId))

end Sys2Proof
end

