-- ==== Sys2Proof/Syntax.lean ====
section
/-! DEFINITION. The commands of the HPQM command set (`30_encoding.md` R121): one constructor per
row of the opcode table, with the command word's own operands (the FLAGS bits of R122 and the INDEX
of R123). The operands in argument registers are read when the command runs (R125). -/

namespace Sys2Proof

/-- The DIR flag (R122): 0 downlink, 1 uplink. -/
inductive Direction where
  | dl | ul
deriving DecidableEq, Repr

/-- The commands, in the order of R121. An index is INDEX as a number; that it fits 16 bits is
`Instr.wf`. Whether it is in range is checked by the command itself (R123). -/
inductive Instr where
  | nop
  | ctxRelease (ctx : Nat)
  | hqCreate (dir : Direction) (ctx : Nat)
  | hqTakeAvail (dir : Direction) (ctx : Nat)
  | hqMarkFb (dir : Direction) (ctx : Nat)
  | hqFeedback (dir : Direction) (ctx : Nat)
  | hqTakeRetx (dir : Direction) (ctx : Nat)
  | hqResize (dir : Direction) (ctx : Nat)
  | hqQuery (dir : Direction) (ctx : Nat)
  | hqStat (dir : Direction) (ctx : Nat)
  | ccpLayoutSet (slot : Nat)
  | ccpLayoutDel (slot : Nat)
  | ccpLayoutInfo (slot : Nat)
  | ccpCceMap (slot : Nat)
  | ccpFind (mark : Bool) (slot : Nat)
  | ccpSearch (mark : Bool) (slot : Nat)
  | ccpMark (slot : Nat)
  | occClear (all : Bool)
  | occSet
  | occRead
  | genField (field : Nat)
  | genEncode
  | genClear
  | laInit (dir : Direction) (ctx : Nat)
  | laEval (dir : Direction) (ctx : Nat)
  | laRead (dir : Direction) (sel : Bool) (ctx : Nat)
  | rbsFit
  | bmConfig
  | bmAlloc
  | bmRelease
  | bmRead
deriving DecidableEq, Repr

end Sys2Proof
end

