-- ==== Sys2Proof/WellFormed.lean ====
section
/-! DEFINITION. When a command can be written as a word: its index fits the 16-bit INDEX field
(`30_encoding.md` R120, R123), and its unit is present in the configuration (R124, R132). -/

namespace Sys2Proof

/-- The INDEX operand of a command, 0 where the command defines none (R120). -/
def Instr.index : Instr → Nat
  | .nop => 0
  | .ctxRelease c => c
  | .hqCreate _ c => c
  | .hqTakeAvail _ c => c
  | .hqMarkFb _ c => c
  | .hqFeedback _ c => c
  | .hqTakeRetx _ c => c
  | .hqResize _ c => c
  | .hqQuery _ c => c
  | .hqStat _ c => c
  | .ccpLayoutSet k => k
  | .ccpLayoutDel k => k
  | .ccpLayoutInfo k => k
  | .ccpCceMap k => k
  | .ccpFind _ k => k
  | .ccpSearch _ k => k
  | .ccpMark k => k
  | .occClear _ => 0
  | .occSet => 0
  | .occRead => 0
  | .genField f => f
  | .genEncode => 0
  | .genClear => 0
  | .laInit _ c => c
  | .laEval _ c => c
  | .laRead _ _ c => c
  | .rbsFit => 0
  | .bmConfig => 0
  | .bmAlloc => 0
  | .bmRelease => 0
  | .bmRead => 0

/-- The index fits the INDEX field (R120). -/
def Instr.wf (i : Instr) : Bool := decide (i.index < 65536)

/-- Is the command's unit present? Only RBS and BMA are optional (R3, R124). -/
def Instr.present (cfg : Config) : Instr → Bool
  | .rbsFit => cfg.hasRbs
  | .bmConfig => cfg.hasBma
  | .bmAlloc => cfg.hasBma
  | .bmRelease => cfg.hasBma
  | .bmRead => cfg.hasBma
  | .nop | .ctxRelease _ => true
  | .hqCreate _ _ | .hqTakeAvail _ _ | .hqMarkFb _ _ | .hqFeedback _ _ => true
  | .hqTakeRetx _ _ | .hqResize _ _ | .hqQuery _ _ | .hqStat _ _ => true
  | .ccpLayoutSet _ | .ccpLayoutDel _ | .ccpLayoutInfo _ | .ccpCceMap _ => true
  | .ccpFind _ _ | .ccpSearch _ _ | .ccpMark _ => true
  | .occClear _ | .occSet | .occRead => true
  | .genField _ | .genEncode | .genClear => true
  | .laInit _ _ | .laEval _ _ | .laRead _ _ _ => true

/-- A command this configuration decodes: it has a word, and its unit is present. -/
def Instr.wfIn (cfg : Config) (i : Instr) : Bool := i.wf && i.present cfg

end Sys2Proof
end

