-- ==== Sys2Proof/Decode.lean ====
section
/-! DEFINITION. The decoder, total on every 32-bit word (`30_encoding.md` R121, R124, R132), and
after it the encoder. A word that matches no row is illegal: the decoder answers none. -/

namespace Sys2Proof

open Machine (field mkWord flagNat)

/-- DIR as a direction (R122, R128). -/
def directionOf (flags : Nat) : Direction := if flags % 2 = 0 then .dl else .ul

/-- DIR as a number (R122, R128). -/
def Direction.code : Direction → Nat
  | .dl => 0
  | .ul => 1

/-- A row that defines no flag and no index: any bit set is reserved (R124). -/
def rowPlain (flags index : Nat) (i : Instr) : Option Instr :=
  if flags = 0 ∧ index = 0 then some i else none

/-- A row that defines an index and no flag. -/
def rowIndexed (flags index : Nat) (f : Nat → Instr) : Option Instr :=
  if flags = 0 then some (f index) else none

/-- A row that defines DIR (word bit 16) and a context. -/
def rowDirected (flags index : Nat) (f : Direction → Nat → Instr) : Option Instr :=
  if flags < 2 then some (f (directionOf flags) index) else none

/-- A row that defines MARK (word bit 16) and a layout slot. -/
def rowMarked (flags index : Nat) (f : Bool → Nat → Instr) : Option Instr :=
  if flags < 2 then some (f (decide (flags % 2 = 1)) index) else none

/-- The rows of R121, selected by OPC; each row's mask covers the reserved FLAGS bits and, where no
index is defined, all of INDEX. Every opcode not listed is reserved (R129). -/
def decodeFields (opc flags index : Nat) : Option Instr :=
  match opc with
  | 0x00 => rowPlain flags index .nop
  | 0x01 => rowIndexed flags index .ctxRelease
  | 0x10 => rowDirected flags index .hqCreate
  | 0x11 => rowDirected flags index .hqTakeAvail
  | 0x12 => rowDirected flags index .hqMarkFb
  | 0x13 => rowDirected flags index .hqFeedback
  | 0x14 => rowDirected flags index .hqTakeRetx
  | 0x15 => rowDirected flags index .hqResize
  | 0x16 => rowDirected flags index .hqQuery
  | 0x17 => rowDirected flags index .hqStat
  | 0x20 => rowIndexed flags index .ccpLayoutSet
  | 0x21 => rowIndexed flags index .ccpLayoutDel
  | 0x22 => rowIndexed flags index .ccpLayoutInfo
  | 0x23 => rowIndexed flags index .ccpCceMap
  | 0x24 => rowMarked flags index .ccpFind
  | 0x25 => rowMarked flags index .ccpSearch
  | 0x26 => rowIndexed flags index .ccpMark
  | 0x28 => if flags < 2 ∧ index = 0 then some (.occClear (decide (flags % 2 = 1))) else none
  | 0x29 => rowPlain flags index .occSet
  | 0x2A => rowPlain flags index .occRead
  | 0x30 => rowIndexed flags index .genField
  | 0x31 => rowPlain flags index .genEncode
  | 0x32 => rowPlain flags index .genClear
  | 0x40 => rowDirected flags index .laInit
  | 0x41 => rowDirected flags index .laEval
  | 0x42 => if flags < 4 then some (.laRead (directionOf flags) (decide (flags / 2 = 1)) index) else none
  | 0x50 => rowPlain flags index .rbsFit
  | 0x60 => rowPlain flags index .bmConfig
  | 0x61 => rowPlain flags index .bmAlloc
  | 0x62 => rowPlain flags index .bmRelease
  | 0x63 => rowPlain flags index .bmRead
  | _ => none

/-- The row of R121 that a word matches, both optional units present. -/
def decodeWord (w : Word) : Option Instr :=
  decodeFields (field w 24 8) (field w 16 8) (field w 0 16)

/-- The decoding procedure of R132: an absent unit's opcodes are illegal. -/
def decode (cfg : Config) (w : Word) : Option Instr :=
  match decodeWord w with
  | some i => if i.present cfg then some i else none
  | none => none

/-- What the decoder reads from an instruction whose bits are `w` (one 32-bit command word, R131;
bits above `nbits` are 0), with every unit present. -/
def decodeTableWord (nbits w : Nat) : Option Instr :=
  decodeWord (BitVec.ofNat 32 (w % 2 ^ nbits))

/-- The opcode of a command (R121). -/
def Instr.opcode : Instr → Nat
  | .nop => 0x00
  | .ctxRelease _ => 0x01
  | .hqCreate _ _ => 0x10
  | .hqTakeAvail _ _ => 0x11
  | .hqMarkFb _ _ => 0x12
  | .hqFeedback _ _ => 0x13
  | .hqTakeRetx _ _ => 0x14
  | .hqResize _ _ => 0x15
  | .hqQuery _ _ => 0x16
  | .hqStat _ _ => 0x17
  | .ccpLayoutSet _ => 0x20
  | .ccpLayoutDel _ => 0x21
  | .ccpLayoutInfo _ => 0x22
  | .ccpCceMap _ => 0x23
  | .ccpFind _ _ => 0x24
  | .ccpSearch _ _ => 0x25
  | .ccpMark _ => 0x26
  | .occClear _ => 0x28
  | .occSet => 0x29
  | .occRead => 0x2A
  | .genField _ => 0x30
  | .genEncode => 0x31
  | .genClear => 0x32
  | .laInit _ _ => 0x40
  | .laEval _ _ => 0x41
  | .laRead _ _ _ => 0x42
  | .rbsFit => 0x50
  | .bmConfig => 0x60
  | .bmAlloc => 0x61
  | .bmRelease => 0x62
  | .bmRead => 0x63

/-- The FLAGS byte of a command (R122): FLAGS bit j is word bit 16 + j. -/
def Instr.flags : Instr → Nat
  | .nop | .ctxRelease _ => 0
  | .hqCreate d _ => d.code
  | .hqTakeAvail d _ => d.code
  | .hqMarkFb d _ => d.code
  | .hqFeedback d _ => d.code
  | .hqTakeRetx d _ => d.code
  | .hqResize d _ => d.code
  | .hqQuery d _ => d.code
  | .hqStat d _ => d.code
  | .ccpLayoutSet _ | .ccpLayoutDel _ | .ccpLayoutInfo _ | .ccpCceMap _ => 0
  | .ccpFind m _ => flagNat m
  | .ccpSearch m _ => flagNat m
  | .ccpMark _ => 0
  | .occClear a => flagNat a
  | .occSet | .occRead => 0
  | .genField _ | .genEncode | .genClear => 0
  | .laInit d _ => d.code
  | .laEval d _ => d.code
  | .laRead d sel _ => d.code + 2 * flagNat sel
  | .rbsFit => 0
  | .bmConfig | .bmAlloc | .bmRelease | .bmRead => 0

/-- The command word of a well-formed command (R120). -/
def encode (i : Instr) : Word := mkWord i.opcode i.flags i.index

end Sys2Proof
end

