-- ==== Sys2Proof/Machine/Defaults.lean ====
section
/-! DEFINITION. The default tables GEN_LAYOUT and GEN_VARIANT (`43_grant_encoder.md` R291, R293)
and the configuration EX1 of `00_scope.md` R6. -/

namespace Sys2Proof.Machine

/-- GEN_LAYOUT, the default rows of R293, with the field ids of R291: FDRA 1, TDRA 2, VRB_PRB 3,
MCS 4, NDI 5, RV 6, HARQ_PN 7, DAI 8, TPC 9, PUCCH_RI 10, HARQ_TIMING 11, SI_IND 12, TB_SCALING 13,
SHORT_MSG_IND 14, SHORT_MSGS 15, RESERVED 16, FREQ_HOP 17, IDENT 0. Every other pair is UNDEFINED. -/
def defaultGenLayout : List GenRow :=
  [ { fmt := .dlA, mode := .bcast,  fields := [1, 2, 3, 4, 6, 12, 16] },
    { fmt := .dlA, mode := .ra,     fields := [1, 2, 3, 4, 13, 16] },
    { fmt := .dlA, mode := .paging, fields := [14, 15, 1, 2, 3, 4, 13, 16] },
    { fmt := .dlA, mode := .temp,   fields := [0, 1, 2, 3, 4, 5, 6, 7, 8, 9, 10, 11] },
    { fmt := .dlA, mode := .ded,    fields := [0, 1, 2, 3, 4, 5, 6, 7, 8, 9, 10, 11] },
    { fmt := .ulA, mode := .temp,   fields := [0, 1, 2, 17, 4, 5, 6, 7, 9] },
    { fmt := .ulA, mode := .ded,    fields := [0, 1, 2, 17, 4, 5, 6, 7, 9] } ]

/-- GEN_VARIANT, the default of R293: RAPID, UL_SUL, SSB_INDEX, PRACH_MASK, RESERVED2 (R291). -/
def defaultGenVariant : List FieldId := [18, 19, 20, 21, 22]

/-- The example configuration EX1 (R6; `95_test_vectors.md` §1). Not normative: State.reset uses it
(log 1); every statement is about an arbitrary configuration. -/
def ex1 : Config where
  numCtx     := 16
  nmax       := 32
  numLayouts := 8
  numBeams   := 4
  numRb      := 275
  numTracks  := 4
  allocMax   := 64
  hasRbs     := true
  hasBma     := true
  tbs        := .testFn
  cceMap     := .protocol
  genLayout  := defaultGenLayout
  genVariant := defaultGenVariant

end Sys2Proof.Machine
end

