-- ==== Sys2Proof/Machine/State.lean ====
section
/-! DEFINITION. The state of the block (`10_state.md` R30-R62) as plain data, and its reset. -/

namespace Sys2Proof.Machine

/-- The two host ports (R42). -/
inductive PortId where
  | p0 | p1
deriving DecidableEq, Repr

/-- A sparse array: the entries that differ from what an unlisted index reads as, by rising key. -/
abbrev Sparse (α : Type) := List (Nat × α)

/-- The result codes of `60_exceptions.md` R401; no other code is produced. -/
inductive RCode where
  | ok | exhausted | empty | noCandidate | noTrack | notFit
  | illegalCmd | badIndex | notConfigured | badArg | badCapacity | invalidResize | badId | badState
  | badLayout | layoutUndefined | fieldMissing | payloadTooLong | sizeMismatch
deriving DecidableEq, Repr

/-- A HARQ pool that is valid (R51): its capacity, its three queues head first, and the recorded due
slots; an id is listed in `due` exactly when its due_valid is 1. -/
structure Pool where
  cap : Nat
  av  : List Nat
  fb  : List Nat
  rt  : List Nat
  due : Sparse Word
deriving DecidableEq, Repr

/-- One grant staging slot (R56). -/
structure GenSlot where
  val : Word
  wid : BitVec 6
  wr  : Bool
deriving DecidableEq, Repr

/-- A link-adaptation record that is valid (R58). -/
structure LaRec where
  mcs      : BitVec 8
  mn       : BitVec 8
  mx       : BitVec 8
  rate     : BitVec 17
  last     : BitVec 10
  win      : BitVec 10
  thrLo    : BitVec 17
  thrHi    : BitVec 17
  txSnap   : Word
  retxSnap : Word
deriving DecidableEq, Repr

/-- The beam allocator's configuration when it is valid (R59). -/
structure BmaCfg where
  bd : BitVec 16
  sz : BitVec 16
  nt : BitVec 8
deriving DecidableEq, Repr

/-- The unit arrays (R30, R51-R59): a record is listed exactly while its valid bit is 1 (log 5). -/
structure Units where
  hq   : Sparse Pool
  occ  : Sparse (BitVec 14)
  lay  : Sparse Layout
  gen0 : Sparse GenSlot
  gen1 : Sparse GenSlot
  la   : Sparse LaRec
  bma  : Option BmaCfg
  bt   : Sparse (BitVec 16)
deriving DecidableEq, Repr

/-- The register set of one port (R42-R49). `pend` is PEND[p]; BUSY is 1 exactly while it holds a
word (R49). -/
structure Port where
  pend    : Option Word
  done    : Bool
  overrun : Bool
  rcode   : RCode
  holdReq : Bool
  pseq    : Word
  args    : Vector Word 8
  res     : Vector Word 4
deriving DecidableEq, Repr

/-- The global registers that hold something (R35-R40). -/
structure Globals where
  fatal      : Bool
  multiFatal : Bool
  errCode    : Word
  errInfo    : Word
  errCount   : Word
  irqStatus  : BitVec 3
  irqEnable  : BitVec 3
deriving DecidableEq, Repr

/-- The width of a host access (R93): 8, 16 or 32 bits. -/
inductive AccessWidth where
  | byte | half | word
deriving DecidableEq, Repr

/-- A host's access to the 4 KiB window, at a byte offset (R90, R93). -/
inductive BusOp where
  | read (width : AccessWidth) (off : BitVec 12)
  | write (width : AccessWidth) (off : BitVec 12) (v : Word)
deriving DecidableEq, Repr

/-- How an access is answered: a read's data, a write's normal response, or a bus error (R93, R413). -/
inductive BusResp where
  | data (v : Word)
  | done
  | error
deriving DecidableEq, Repr

/-- What the engine can do in one step (R97): run a port's command (R99), or grant the hold (R102). -/
inductive EngineMove where
  | command (p : PortId)
  | grant (p : PortId)
deriving DecidableEq, Repr

/-- One turn of an agent (R97): a host agent's access, an engine move, or the platform's hardware
reset (R450). -/
inductive Turn where
  | access (host : PortId) (op : BusOp)
  | engine (move : EngineMove)
  | hardReset
deriving DecidableEq, Repr

/-- What the engine's fair choice between the ports remembers (R464, log 27): the port it last moved
for, how many of that port's moves since then passed over a command of the other port that could run,
and how often it has changed ports. -/
structure Fairness where
  last   : PortId
  streak : Nat
  round  : Nat
deriving DecidableEq, Repr

/-- The whole state (R30). `cfg`, `cur`, `agenda`, `resp`, `pick` and `fair` are the model's own
(logs 1, 2, 3, 11, 16, 27). -/
structure State where
  cfg       : Config
  greg      : Globals
  port0     : Port
  port1     : Port
  holdOwner : Option PortId
  units     : Units
  cur       : PortId
  agenda    : List Turn
  resp      : Option (PortId × BusResp)
  pick      : Nat
  fair      : Fairness
deriving DecidableEq, Repr

/-- Nothing stops the block (R406, R412, R465): a fatal result is a completion, a bus error is a
response, an illegal word takes ILLEGAL_CMD. So there is no fault (log 10). -/
inductive Fault : Type
deriving DecidableEq, Repr

/-- Refusals. -/
inductive Refusal where
  /-- Raised by `exec` for a command without a meaning in this model; safe. No command is left so. -/
  | notModelled (mnemonic : String)
deriving DecidableEq, Repr

/-- A port after reset (R62). -/
def Port.reset : Port where
  pend    := none
  done    := false
  overrun := false
  rcode   := .ok
  holdReq := false
  pseq    := 0
  args    := Vector.replicate 8 0
  res     := Vector.replicate 4 0

/-- The global registers after reset (R62). -/
def Globals.reset : Globals where
  fatal      := false
  multiFatal := false
  errCode    := 0
  errInfo    := 0
  errCount   := 0
  irqStatus  := 0
  irqEnable  := 0

/-- The unit arrays after reset (R62): no record valid, every mask 0, every slot cleared, every
beam entry EMPTY. -/
def Units.reset : Units where
  hq   := []
  occ  := []
  lay  := []
  gen0 := []
  gen1 := []
  la   := []
  bma  := none
  bt   := []

/-- A block of configuration `cfg` after reset (R62, R451). -/
def State.resetOf (cfg : Config) : State where
  cfg       := cfg
  greg      := Globals.reset
  port0     := Port.reset
  port1     := Port.reset
  holdOwner := none
  units     := Units.reset
  cur       := .p0
  agenda    := []
  resp      := none
  pick      := 0
  fair      := { last := .p1, streak := 0, round := 0 }

/-- The machine after reset, in configuration EX1 (R6, log 1). -/
def State.reset : State := State.resetOf ex1

end Sys2Proof.Machine
end

