-- ==== Sys2Proof/Machine/Flags.lean ====
section
/-! DEFINITION. The status bits of the block (`10_state.md` R61): result codes (`60_exceptions.md`
R400, R401), the interrupt bits (R408, R409), and the status registers put together from them
(`10_state.md` R35, R44). The block has no arithmetic flags. -/

namespace Sys2Proof.Machine

/-- The value of a result code in PSTATUS[15:8] (R401). -/
def RCode.toByte : RCode → BitVec 8
  | .ok              => 0x00
  | .exhausted       => 0x01
  | .empty           => 0x02
  | .noCandidate     => 0x03
  | .noTrack         => 0x04
  | .notFit          => 0x05
  | .illegalCmd      => 0x80
  | .badIndex        => 0x81
  | .notConfigured   => 0x82
  | .badArg          => 0x83
  | .badCapacity     => 0x84
  | .invalidResize   => 0x85
  | .badId           => 0x86
  | .badState        => 0x87
  | .badLayout       => 0x88
  | .layoutUndefined => 0x89
  | .fieldMissing    => 0x8A
  | .payloadTooLong  => 0x8B
  | .sizeMismatch    => 0x8C

/-- Codes 0x80 to 0xFF are fatal (R400). -/
def RCode.isFatal (c : RCode) : Bool := decide (0x80 ≤ c.toByte.toNat)

/-- PSTATUS.BUSY (R44, R49). -/
def Port.busy (p : Port) : Bool := p.pend.isSome

/-- A port's number. -/
def PortId.toNat : PortId → Nat
  | .p0 => 0
  | .p1 => 1

/-- The interrupt bit DONEp (R40, R408). -/
def doneBit : PortId → BitVec 3
  | .p0 => 0b001
  | .p1 => 0b010

/-- The interrupt bit FATAL (R40, R408). -/
def fatalBit : BitVec 3 := 0b100

/-- The interrupt output, a level (R40, R409). -/
def State.irq (s : State) : Bool := decide (s.greg.irqStatus &&& s.greg.irqEnable ≠ 0)

/-- GSTATUS.HOLD_OWNER: 0 no owner, 1 port 0, 2 port 1 (R35). -/
def ownerCode : Option PortId → Nat
  | none     => 0
  | some .p0 => 1
  | some .p1 => 2

/-- GSTATUS (R35). -/
def State.gstatus (s : State) : Word :=
  BitVec.ofNat 32 (flagNat s.greg.fatal ||| flagNat s.greg.multiFatal <<< 1 |||
    flagNat (s.port0.busy || s.port1.busy) <<< 2 ||| ownerCode s.holdOwner <<< 4)

/-- PSTATUS of a port whose hold bit is `granted` (R44). -/
def Port.pstatus (p : Port) (granted : Bool) : Word :=
  BitVec.ofNat 32 (flagNat p.busy ||| flagNat p.done <<< 1 ||| flagNat p.overrun <<< 2 |||
    flagNat granted <<< 3 ||| p.rcode.toByte.toNat <<< 8)

/-- ERR_CODE of a fatal error: CODE in [7:0], OPC in [15:8], PORT in [16] (R36, R406). -/
def errCodeWord (code : RCode) (w : Word) (p : PortId) : Word :=
  BitVec.ofNat 32 (code.toByte.toNat ||| field w 24 8 <<< 8 ||| p.toNat <<< 16)

/-- ERR_COUNT after one more fatal error: it saturates (R38, R406). -/
def countUp (c : Word) : Word := BitVec.ofNat 32 (min (c.toNat + 1) 0xFFFFFFFF)

end Sys2Proof.Machine
end

