-- ==== Sys2Proof/Machine/Sparse.lean ====
section
/-! DEFINITION. Sparse arrays in one canonical form: keys strictly rising, and (for an array whose
unlisted entries read as a default) no entry equal to that default (log 23). -/

namespace Sys2Proof.Machine

/-- The entry at a key, if one is listed. -/
def look {α : Type} (m : Sparse α) (k : Nat) : Option α :=
  match m with
  | [] => none
  | e :: rest => if e.1 = k then some e.2 else look rest k

/-- List `v` at key `k`, replacing what stood there. -/
def put {α : Type} (m : Sparse α) (k : Nat) (v : α) : Sparse α :=
  match m with
  | [] => [(k, v)]
  | e :: rest =>
    if k < e.1 then (k, v) :: e :: rest
    else if k = e.1 then (k, v) :: rest
    else e :: put rest k v

/-- List nothing at key `k`. -/
def drop {α : Type} (m : Sparse α) (k : Nat) : Sparse α :=
  m.filter (fun e => decide (e.1 ≠ k))

/-- List nothing at the keys `bad` holds of. -/
def dropAll {α : Type} (m : Sparse α) (bad : Nat → Bool) : Sparse α :=
  m.filter (fun e => !bad e.1)

/-- What the array reads at `k` where unlisted entries read as `d`. -/
def readAt {α : Type} (d : α) (m : Sparse α) (k : Nat) : α := (look m k).getD d

/-- Write `v` at `k` where unlisted entries read as `d`: writing `d` lists nothing. -/
def writeAt {α : Type} [DecidableEq α] (d : α) (m : Sparse α) (k : Nat) (v : α) : Sparse α :=
  if v = d then drop m k else put m k v

/-- The canonical form: keys strictly rising. -/
def rising {α : Type} (m : Sparse α) : Bool :=
  match m with
  | [] => true
  | [_] => true
  | a :: b :: rest => decide (a.1 < b.1) && rising (b :: rest)

/-- The canonical form of an array with a default: keys rising and no entry equal to it. -/
def canonical {α : Type} [DecidableEq α] (d : α) (m : Sparse α) : Bool :=
  rising m && m.all (fun e => decide (e.2 ≠ d))

end Sys2Proof.Machine
end

