-- ==== Sys2Proof/Machine/Ops.lean ====
section
/-! DEFINITION. The named operations over registers and unit arrays, the completion of a command
(`20_memory.md` R99), the fatal result as ONE operation (`60_exceptions.md` R405, R406) and the
return from it (`40_system.md` R164), and the checks that open a command (R180, R230, R330, R380). -/

namespace Sys2Proof.Machine

/-- The outcome of a step. -/
abbrev Answer := Host.Outcome State Fault Refusal

/-! ### Ports -/

/-- PORT[p] (R30). -/
def State.port (s : State) : PortId → Port
  | .p0 => s.port0
  | .p1 => s.port1

/-- Replace PORT[p]. -/
def State.setPort (s : State) (p : PortId) (v : Port) : State :=
  match p with
  | .p0 => { s with port0 := v }
  | .p1 => { s with port1 := v }

/-- The port whose command the engine serves. -/
def State.me (s : State) : Port := s.port s.cur

/-- The command word being executed, PEND of the served port (R99). -/
def State.word (s : State) : Word := s.me.pend.getD 0

/-- Four result registers, each value brought into 32 bits (R48). -/
def results (a : Nat) (b : Nat := 0) (c : Nat := 0) (d : Nat := 0) : Vector Word 4 :=
  #v[BitVec.ofNat 32 a, BitVec.ofNat 32 b, BitVec.ofNat 32 c, BitVec.ofNat 32 d]

/-- The "none" result 0xFFFFFFFF (R128). -/
def none32 : Nat := 0xFFFFFFFF

/-! ### Completion -/

/-- The completion state of a command on the served port (R99): RES, RCODE, BUSY <- 0, DONE <- 1,
IRQ_STATUS.DONEp <- 1, and the unit arrays. -/
def complete (rc : RCode) (res : Vector Word 4) (u : Units) (s : State) : State :=
  { s.setPort s.cur { s.me with pend := none, done := true, rcode := rc, res := res } with
    units := u
    greg := { s.greg with irqStatus := s.greg.irqStatus ||| doneBit s.cur } }

/-- A command that ends with an OK or soft result (R9 `return` and `soft`, R402). -/
def finish (rc : RCode) (res : Vector Word 4) (u : Units) (s : State) : Answer :=
  .next (complete rc res u s)

/-! ### Fatal results: taking the exception and returning from it -/

/-- `latch(code, w, p)` (R406). -/
def latch (code : RCode) (w : Word) (p : PortId) (g : Globals) : Globals :=
  { g with
    fatal      := true
    multiFatal := g.multiFatal || g.fatal
    errCode    := if g.fatal then g.errCode else errCodeWord code w p
    errInfo    := if g.fatal then g.errInfo else w
    errCount   := countUp g.errCount
    irqStatus  := g.irqStatus ||| fatalBit }

/-- The state after a fatal result (R405): the completion with RES <- 0 and the unit arrays as they
were before the command, and the latch. -/
def fatalState (code : RCode) (s : State) : State :=
  let t := complete code (results 0) s.units s
  { t with greg := latch code s.word s.cur t.greg }

/-- `raise Fatal(code)` (R9, R405). -/
def fatal (code : RCode) (s : State) : Answer := .next (fatalState code s)

/-- The error clear, the return from a fatal error (R164, R411): the latch is re-armed. -/
def errClear (g : Globals) : Globals :=
  { g with fatal := false, multiFatal := false, errCode := 0, errInfo := 0, errCount := 0 }

/-! ### Unit arrays by index (R111) -/

/-- The key of a (context, direction) record (R51, R58). -/
def ctxKey (c : Nat) (d : Direction) : Nat := 2 * c + d.code

/-- The key of a two-dimensional entry whose second index is below 2^16 (R54, R59). -/
def pairKey (a b : Nat) : Nat := a * 65536 + b

/-- HQ[c][d], if valid (R51). -/
def Units.pool (u : Units) (c : Nat) (d : Direction) : Option Pool := look u.hq (ctxKey c d)

/-- HQ[c][d] <- P, valid (R51). -/
def Units.setPool (u : Units) (c : Nat) (d : Direction) (P : Pool) : Units :=
  { u with hq := put u.hq (ctxKey c d) P }

/-- LA[c][d], if valid (R58). -/
def Units.laRec (u : Units) (c : Nat) (d : Direction) : Option LaRec := look u.la (ctxKey c d)

/-- LA[c][d] <- R, valid (R58). -/
def Units.setLaRec (u : Units) (c : Nat) (d : Direction) (R : LaRec) : Units :=
  { u with la := put u.la (ctxKey c d) R }

/-- OCC[b][r]; an unlisted mask reads 0 (R54, R62). -/
def Units.mask (u : Units) (b r : Nat) : BitVec 14 := readAt 0 u.occ (pairKey b r)

/-- `OCC[b][r] <- OCC[b][r] | m` (R112). -/
def Units.orMask (u : Units) (b r : Nat) (m : BitVec 14) : Units :=
  { u with occ := writeAt 0 u.occ (pairKey b r) (u.mask b r ||| m) }

/-- The empty beam-table entry (R59, R128). -/
def btEmpty : BitVec 16 := 0xFFFF

/-- BT[t][i]; an unlisted entry reads EMPTY (R59, R62). -/
def Units.beam (u : Units) (t i : Nat) : BitVec 16 := readAt btEmpty u.bt (pairKey t i)

/-- `BT[t][i] <- v` (R59). -/
def Units.setBeam (u : Units) (t i : Nat) (v : BitVec 16) : Units :=
  { u with bt := writeAt btEmpty u.bt (pairKey t i) v }

/-- A cleared staging slot (R56, R62). -/
def slotClear : GenSlot := { val := 0, wid := 0, wr := false }

/-- GEN[p] (R56). -/
def Units.gen (u : Units) : PortId → Sparse GenSlot
  | .p0 => u.gen0
  | .p1 => u.gen1

/-- Replace GEN[p]. -/
def Units.setGen (u : Units) (p : PortId) (g : Sparse GenSlot) : Units :=
  match p with
  | .p0 => { u with gen0 := g }
  | .p1 => { u with gen1 := g }

/-- The slot of field `f` in GEN[p] (R56). -/
def Units.slot (u : Units) (p : PortId) (f : Nat) : GenSlot := readAt slotClear (u.gen p) f

/-! ### The checks that open a command -/

/-- `if c >= NUM_CTX: raise Fatal(BAD_INDEX)` (R163, R180, R330). -/
def inContext (c : Nat) (s : State) (k : Answer) : Answer :=
  if s.cfg.numCtx ≤ c then fatal .badIndex s else k

/-- The HQM prologue (R180) of a command that reads its pool. -/
def withPool (c : Nat) (d : Direction) (s : State) (k : Pool → Answer) : Answer :=
  inContext c s (match s.units.pool c d with
    | none => fatal .notConfigured s
    | some P => k P)

/-- The LAS prologue (R330) of a command that reads its record. -/
def withRec (c : Nat) (d : Direction) (s : State) (k : LaRec → Answer) : Answer :=
  inContext c s (match s.units.laRec c d with
    | none => fatal .notConfigured s
    | some R => k R)

/-- `if k >= NUM_LAYOUTS: raise Fatal(BAD_INDEX)` (R230). -/
def inLayouts (k : Nat) (s : State) (a : Answer) : Answer :=
  if s.cfg.numLayouts ≤ k then fatal .badIndex s else a

/-- The CCP prologue (R230) of a command that reads its layout. -/
def withLayout (k : Nat) (s : State) (f : Layout → Answer) : Answer :=
  inLayouts k s (match look s.units.lay k with
    | none => fatal .notConfigured s
    | some l => f l)

/-- The BMA configuration check (R380). -/
def withBma (s : State) (f : BmaCfg → Answer) : Answer :=
  match s.units.bma with
  | none => fatal .notConfigured s
  | some c => f c

/-- `if bad: raise Fatal(code)`. -/
def check (bad : Prop) [Decidable bad] (code : RCode) (s : State) (k : Answer) : Answer :=
  if bad then fatal code s else k

end Sys2Proof.Machine
end

