-- ==== Sys2Proof/Machine/Bus.lean ====
section
/-! DEFINITION. The register window (`20_memory.md` R90-R98, R104; `40_system.md` R162-R168): the
address map, reads without side effect, and writes with theirs. -/

namespace Sys2Proof.Machine

/-- The global registers of R91. -/
inductive GlobalReg where
  | id | version | cap0 | cap1 | cap2 | cap3 | ctrl | gstatus | errCode | errInfo | errCount
  | errClear | irqStatus | irqEnable
deriving DecidableEq, Repr

/-- The registers of one port (R42, R91). -/
inductive PortReg where
  | cmd | pstatus | hold | pseq
  | arg (i : Fin 8)
  | res (i : Fin 4)
deriving DecidableEq, Repr

/-- What an aligned offset of the window selects (R91). -/
inductive RegAddr where
  | global (r : GlobalReg)
  | port (p : PortId) (r : PortReg)
  | reserved
deriving DecidableEq, Repr

/-- The global registers' offsets (R91). -/
def globalAt (off : Nat) : Option GlobalReg :=
  match off with
  | 0x000 => some .id
  | 0x004 => some .version
  | 0x008 => some .cap0
  | 0x00C => some .cap1
  | 0x010 => some .cap2
  | 0x014 => some .cap3
  | 0x018 => some .ctrl
  | 0x01C => some .gstatus
  | 0x020 => some .errCode
  | 0x024 => some .errInfo
  | 0x028 => some .errCount
  | 0x02C => some .errClear
  | 0x030 => some .irqStatus
  | 0x034 => some .irqEnable
  | _ => none

/-- The port registers' offsets from B(p) (R91, R43-R48). -/
def portRegAt (o : Nat) : Option PortReg :=
  match o with
  | 0x00 => some .cmd
  | 0x04 => some .pstatus
  | 0x08 => some .hold
  | 0x0C => some .pseq
  | 0x10 => some (.arg 0)
  | 0x14 => some (.arg 1)
  | 0x18 => some (.arg 2)
  | 0x1C => some (.arg 3)
  | 0x20 => some (.arg 4)
  | 0x24 => some (.arg 5)
  | 0x28 => some (.arg 6)
  | 0x2C => some (.arg 7)
  | 0x30 => some (.res 0)
  | 0x34 => some (.res 1)
  | 0x38 => some (.res 2)
  | 0x3C => some (.res 3)
  | _ => none

/-- B(p) = 0x100 · (p + 1) (R42). -/
def portBase (p : PortId) : Nat := 0x100 * (p.toNat + 1)

/-- The register of a port, or a reserved offset. -/
def portAddr (p : PortId) (o : Nat) : RegAddr :=
  match portRegAt o with
  | some r => .port p r
  | none   => .reserved

/-- The address map of the window (R91); every other offset is reserved (R94). -/
def regAt (off : Nat) : RegAddr :=
  if off < 0x100 then
    match globalAt off with
    | some r => .global r
    | none   => .reserved
  else if off < 0x200 then portAddr .p0 (off - 0x100)
  else if off < 0x300 then portAddr .p1 (off - 0x200)
  else .reserved

/-! ### Reads (R95: no side effect) -/

/-- ID (R31). -/
def idValue : Word := 0x4850514D

/-- CAP0 (R33). -/
def cap0 (c : Config) : Word := BitVec.ofNat 32 ((c.numCtx - 1) ||| c.nmax <<< 16)

/-- CAP1 (R33): NUM_TRACKS reads 0 when HAS_BMA = 0. -/
def cap1 (c : Config) : Word :=
  BitVec.ofNat 32 ((c.numLayouts - 1) ||| (c.numBeams - 1) <<< 16 |||
    (if c.hasBma then c.numTracks else 0) <<< 24)

/-- CAP2 (R33): ALLOC_MAX reads 0 when HAS_BMA = 0. -/
def cap2 (c : Config) : Word :=
  BitVec.ofNat 32 (c.numRb ||| (if c.hasBma then c.allocMax else 0) <<< 16)

/-- CAP3 (R33): HAS_RBS, HAS_BMA, MAX_PAYLOAD 64, NUM_FIELDS 64, NUM_SYM 14. -/
def cap3 (c : Config) : Word :=
  BitVec.ofNat 32 (flagNat c.hasRbs ||| flagNat c.hasBma <<< 1 ||| 64 <<< 8 ||| 64 <<< 16 ||| 14 <<< 24)

/-- A global register as read (R31-R40); write-only ones read 0. -/
def readGlobal (s : State) : GlobalReg → Word
  | .id        => idValue
  | .version   => 1
  | .cap0      => cap0 s.cfg
  | .cap1      => cap1 s.cfg
  | .cap2      => cap2 s.cfg
  | .cap3      => cap3 s.cfg
  | .ctrl      => 0
  | .gstatus   => s.gstatus
  | .errCode   => s.greg.errCode
  | .errInfo   => s.greg.errInfo
  | .errCount  => s.greg.errCount
  | .errClear  => 0
  | .irqStatus => s.greg.irqStatus.setWidth 32
  | .irqEnable => s.greg.irqEnable.setWidth 32

/-- A port register as read (R43-R48); CMD reads 0. -/
def readPort (s : State) (p : PortId) : PortReg → Word
  | .cmd     => 0
  | .pstatus => (s.port p).pstatus (decide (s.holdOwner = some p))
  | .hold    => BitVec.ofNat 32 (flagNat (s.port p).holdReq)
  | .pseq    => (s.port p).pseq
  | .arg i   => (s.port p).args.get i
  | .res i   => (s.port p).res.get i

/-- An aligned 32-bit read (R91, R94). -/
def readReg (s : State) (off : Nat) : Word :=
  match regAt off with
  | .global r => readGlobal s r
  | .port p r => readPort s p r
  | .reserved => 0

/-! ### Writes -/

/-- The block after a reset, hardware or soft (R62, R162, R451): everything but the model's own
record of the outside and of the engine's choices (the turns to come, the last response, the choice
counter, the fairness record; logs 15, 27). -/
def resetBlock (s : State) : State :=
  { State.resetOf s.cfg with agenda := s.agenda, resp := s.resp, pick := s.pick, fair := s.fair }

/-- W1C: the bits written as 1 are cleared (R40, R165). -/
def irqAck (g : Globals) (v : Word) : Globals :=
  { g with irqStatus := g.irqStatus &&& ~~~(slice v 0 3) }

/-- A write to a global register (R95). Writes to read-only registers are ignored. -/
def writeGlobal (s : State) (v : Word) : GlobalReg → State
  | .ctrl      => if bit v 0 then resetBlock s else s
  | .errClear  => if bit v 0 then { s with greg := errClear s.greg } else s
  | .irqStatus => { s with greg := irqAck s.greg v }
  | .irqEnable => { s with greg := { s.greg with irqEnable := slice v 0 3 } }
  | .id | .version | .cap0 | .cap1 | .cap2 | .cap3 => s
  | .gstatus | .errCode | .errInfo | .errCount => s

/-- A write to CMD, HOLD or an ARG register while BUSY = 1 is dropped and sets OVERRUN (R104). -/
def ifIdle (s : State) (p : PortId) (t : State) : State :=
  if (s.port p).busy then s.setPort p { s.port p with overrun := true } else t

/-- Command acceptance (R98). -/
def acceptCmd (s : State) (p : PortId) (w : Word) : State :=
  s.setPort p { s.port p with pend := some w, done := false, pseq := (s.port p).pseq + 1 }

/-- A HOLD write while idle (R168): the request bit, and the release by the owner at the same
instant (R103). -/
def writeHold (s : State) (p : PortId) (v : Word) : State :=
  { s.setPort p { s.port p with holdReq := bit v 0 } with
    holdOwner := if bit v 0 = false ∧ s.holdOwner = some p then none else s.holdOwner }

/-- A write to a port register (R43-R48, R95). -/
def writePort (s : State) (p : PortId) (v : Word) : PortReg → State
  | .cmd     => ifIdle s p (acceptCmd s p v)
  | .pstatus => if bit v 2 then s.setPort p { s.port p with overrun := false } else s
  | .hold    => ifIdle s p (writeHold s p v)
  | .arg i   => ifIdle s p (s.setPort p { s.port p with args := (s.port p).args.set i v })
  | .pseq    => s
  | .res _   => s

/-- An aligned 32-bit write (R91, R94). -/
def writeReg (s : State) (off : Nat) (v : Word) : State :=
  match regAt off with
  | .global r => writeGlobal s v r
  | .port p r => writePort s p v r
  | .reserved => s

/-! ### Accesses -/

/-- Only 32-bit accesses at multiples of 4 are accepted (R93). -/
def accessOk (w : AccessWidth) (off : BitVec 12) : Bool :=
  decide (w = .word) && decide (off.toNat % 4 = 0)

/-- The response given to the host agent (log 11). -/
def State.answer (s : State) (host : PortId) (r : BusResp) : State := { s with resp := some (host, r) }

/-- One register access of a host agent (R97): any other width or alignment gets a bus error and has
no effect (R93, R413). -/
def busAccess (s : State) (host : PortId) : BusOp → State
  | .read w off =>
    if accessOk w off then s.answer host (.data (readReg s off.toNat)) else s.answer host .error
  | .write w off v =>
    if accessOk w off then (writeReg s off.toNat v).answer host .done else s.answer host .error

end Sys2Proof.Machine
end

