-- ==== Sys2Proof/Machine/Operands.lean ====
section
/-! DEFINITION. Every operand a command reads from the served port's argument registers
(`30_encoding.md` R125, R126): the listed bits, zero-extended; every other bit is ignored. -/

namespace Sys2Proof.Machine

/-- ARG[p][i], p the served port (R9, R47). -/
def State.arg (s : State) (i : Fin 8) : Word := s.me.args.get i

/-- `ARGi[lo+len-1 : lo]` as a number (R125). -/
def State.argField (s : State) (i : Fin 8) (lo len : Nat) : Nat := field (s.arg i) lo len

/-- `ARGi[j]` (R125). -/
def State.argBit (s : State) (i : Fin 8) (j : Nat) : Bool := bit (s.arg i) j

/-! ### HQM -/

/-- CAP of HQ_CREATE and NEWCAP of HQ_RESIZE, ARG0[7:0]. -/
def State.opCap (s : State) : Nat := s.argField 0 0 8
/-- ID, ARG0[7:0]. -/
def State.opId (s : State) : Nat := s.argField 0 0 8
/-- DUE, ARG1[31:0]. -/
def State.opDue (s : State) : Word := s.arg 1
/-- ACK, ARG0[8]. -/
def State.opAck (s : State) : Bool := s.argBit 0 8

/-! ### CCP and occupancy -/

/-- The operands of CCP_LAYOUT_SET as they stand in ARG0-ARG3: FMASK = ARG1[12:0] : ARG0, DUR
ARG2[1:0], START ARG2[7:4], IL ARG2[8], BUNDLE ARG2[11:9], ILV ARG2[14:12], SHIFT ARG2[24:16],
RBOFF ARG3[15:0] (R126, R231). -/
def State.opLayout (s : State) : Layout where
  dur      := slice (s.arg 2) 0 2
  start    := slice (s.arg 2) 4 4
  il       := s.argBit 2 8
  bundle   := slice (s.arg 2) 9 3
  ilv      := slice (s.arg 2) 12 3
  shift    := slice (s.arg 2) 16 9
  rbOffset := slice (s.arg 3) 0 16
  fmask    := slice (s.arg 1) 0 13 ++ s.arg 0
/-- CCE, ARG0[15:0]. -/
def State.opCce (s : State) : Nat := s.argField 0 0 16
/-- BEAM of CCP and OCC commands, ARG0[7:0]. -/
def State.opBeam (s : State) : Nat := s.argField 0 0 8
/-- LVL, ARG1[2:0]. -/
def State.opLvl (s : State) : Nat := s.argField 1 0 3
/-- M of CCP_FIND, ARG1[7:4]. -/
def State.opM (s : State) : Nat := s.argField 1 4 4
/-- M_v of CCP_SEARCH, ARG1[4v+3:4v]. -/
def State.opMLevel (s : State) (v : Nat) : Nat := s.argField 1 (4 * v) 4
/-- Y, ARG2[31:0]. -/
def State.opY (s : State) : Nat := (s.arg 2).toNat
/-- CQ, ARG3[8:0]. -/
def State.opCq (s : State) : Nat := s.argField 3 0 9
/-- FIRST of CCP_MARK, ARG2[15:0]. -/
def State.opFirst (s : State) : Nat := s.argField 2 0 16
/-- RBSTART of OCC_SET and RB of OCC_READ, ARG1[15:0]. -/
def State.opRb (s : State) : Nat := s.argField 1 0 16
/-- RBCOUNT, ARG1[31:16]. -/
def State.opRbCount (s : State) : Nat := s.argField 1 16 16
/-- SYMMASK, ARG2[13:0]. -/
def State.opSymMask (s : State) : BitVec 14 := slice (s.arg 2) 0 14

/-! ### GEN -/

/-- VALUE, ARG0[31:0]. -/
def State.opValue (s : State) : Word := s.arg 0
/-- WIDTH, ARG1[5:0]. -/
def State.opWidth (s : State) : BitVec 6 := slice (s.arg 1) 0 6
/-- FMT, ARG0[1:0], by the codes of R128. -/
def State.opFmt (s : State) : GrantFormat :=
  match s.argField 0 0 2 with
  | 0 => .dlA
  | 1 => .dlB
  | 2 => .ulA
  | _ => .ulB
/-- MODE, ARG0[6:4], by the codes of R128; 5 to 7 are no mode. -/
def State.opMode (s : State) : Option AddrMode :=
  match s.argField 0 4 3 with
  | 0 => some .bcast
  | 1 => some .ra
  | 2 => some .paging
  | 3 => some .temp
  | 4 => some .ded
  | _ => none
/-- ALIGN, ARG1[6:0]. -/
def State.opAlign (s : State) : Nat := s.argField 1 0 7

/-! ### LAS -/

/-- MCS0, ARG0[7:0]. -/
def State.opMcs0 (s : State) : BitVec 8 := slice (s.arg 0) 0 8
/-- MIN, ARG0[15:8]. -/
def State.opMin (s : State) : BitVec 8 := slice (s.arg 0) 8 8
/-- MAX, ARG0[23:16]. -/
def State.opMax (s : State) : BitVec 8 := slice (s.arg 0) 16 8
/-- THR_LO, ARG1[16:0]. -/
def State.opThrLo (s : State) : BitVec 17 := slice (s.arg 1) 0 17
/-- THR_HI, ARG2[16:0]. -/
def State.opThrHi (s : State) : BitVec 17 := slice (s.arg 2) 0 17
/-- WIN, ARG3[9:0]. -/
def State.opWin (s : State) : BitVec 10 := slice (s.arg 3) 0 10
/-- NOW of LA_INIT, ARG4[9:0]. -/
def State.opNow0 (s : State) : BitVec 10 := slice (s.arg 4) 0 10
/-- TX0, ARG5[31:0]. -/
def State.opTx0 (s : State) : Word := s.arg 5
/-- RETX0, ARG6[31:0]. -/
def State.opRetx0 (s : State) : Word := s.arg 6
/-- RATE0, ARG7[16:0]. -/
def State.opRate0 (s : State) : BitVec 17 := slice (s.arg 7) 0 17
/-- NOW of LA_EVAL, ARG0[9:0]. -/
def State.opNow (s : State) : BitVec 10 := slice (s.arg 0) 0 10
/-- TX, ARG1[31:0]. -/
def State.opTx (s : State) : Word := s.arg 1
/-- RETX, ARG2[31:0]. -/
def State.opRetx (s : State) : Word := s.arg 2

/-! ### RBS -/

/-- TARGET, ARG0[31:0]. -/
def State.opTarget (s : State) : Nat := (s.arg 0).toNat
/-- MINRB, ARG1[15:0]. -/
def State.opMinRb (s : State) : Nat := s.argField 1 0 16
/-- MAXRB, ARG1[31:16]. -/
def State.opMaxRb (s : State) : Nat := s.argField 1 16 16
/-- CPAR, ARG2[31:0]. -/
def State.opCpar (s : State) : Word := s.arg 2
/-- TP, ARG3[0]. -/
def State.opTp (s : State) : Bool := s.argBit 3 0

/-! ### BMA -/

/-- BD, ARG0[15:0]. -/
def State.opBd (s : State) : BitVec 16 := slice (s.arg 0) 0 16
/-- AS, ARG0[31:16]. -/
def State.opAs (s : State) : BitVec 16 := slice (s.arg 0) 16 16
/-- NT, ARG1[7:0]. -/
def State.opNt (s : State) : BitVec 8 := slice (s.arg 1) 0 8
/-- FRAME, ARG0[9:0]. -/
def State.opFrame (s : State) : Nat := s.argField 0 0 10
/-- SLOT, ARG0[31:16]. -/
def State.opSlot (s : State) : Nat := s.argField 0 16 16
/-- UBEAM, ARG1[15:0]. -/
def State.opUbeam (s : State) : BitVec 16 := slice (s.arg 1) 0 16
/-- SPF, ARG2[15:0]. -/
def State.opSpf (s : State) : Nat := s.argField 2 0 16
/-- TRACK of BM_RELEASE, ARG3[7:0]. -/
def State.opRelTrack (s : State) : Nat := s.argField 3 0 8
/-- WASNEW, ARG3[8]. -/
def State.opWasNew (s : State) : Bool := s.argBit 3 8
/-- TRACK of BM_READ, ARG0[7:0]. -/
def State.opReadTrack (s : State) : Nat := s.argField 0 0 8
/-- IDX of BM_READ, ARG1[15:0]. -/
def State.opIdx (s : State) : Nat := s.argField 1 0 16

end Sys2Proof.Machine
end

