-- ==== Sys2Proof/Machine/Beam.lean ====
section
/-! DEFINITION. The beam allocator (`46_beam_allocator.md` R380-R384). -/

namespace Sys2Proof.Machine

/-- BM_CONFIG (R381): every entry of the table becomes EMPTY. -/
def execBmConfig (s : State) : Answer :=
  check (s.opBd = 0) .badArg s <|
  check (s.opAs = 0 ∨ s.cfg.allocMax < s.opAs.toNat) .badArg s <|
  check (s.opNt = 0 ∨ s.cfg.numTracks < s.opNt.toNat) .badArg s <|
  finish .ok (results 0)
    { s.units with bma := some { bd := s.opBd, sz := s.opAs, nt := s.opNt }, bt := [] } s

/-- idx = floor((FRAME · SPF + SLOT) / bd) mod as (R382). -/
def beamIndex (c : BmaCfg) (frame slot spf : Nat) : Nat :=
  (frame * spf + slot) / c.bd.toNat % c.sz.toNat

/-- The scan of R382: the first track in order that holds `u` or is EMPTY. -/
def scanTracks (u : Units) (nt idx : Nat) (ub : BitVec 16) : Option Nat :=
  (List.range nt).find? (fun t => decide (u.beam t idx = ub) || decide (u.beam t idx = btEmpty))

/-- BM_ALLOC (R382). -/
def execBmAlloc (s : State) : Answer :=
  withBma s fun c =>
  check (s.opSpf = 0 ∨ s.opSpf ≤ s.opSlot) .badArg s <|
  check (s.opUbeam = btEmpty) .badArg s <|
    let idx := beamIndex c s.opFrame s.opSlot s.opSpf
    match scanTracks s.units c.nt.toNat idx s.opUbeam with
    | none => finish .noTrack (results none32 0 idx) s.units s
    | some t =>
      if s.units.beam t idx = s.opUbeam then finish .ok (results t 0 idx) s.units s
      else finish .ok (results t 1 idx) (s.units.setBeam t idx s.opUbeam) s

/-- BM_RELEASE (R383). -/
def execBmRelease (s : State) : Answer :=
  withBma s fun c =>
  check (s.opSpf = 0 ∨ s.opSpf ≤ s.opSlot) .badArg s <|
  check (s.opUbeam = btEmpty) .badArg s <|
  check (c.nt.toNat ≤ s.opRelTrack) .badArg s <|
    let idx := beamIndex c s.opFrame s.opSlot s.opSpf
    if s.opWasNew ∧ s.units.beam s.opRelTrack idx = s.opUbeam then
      finish .ok (results 1 0 idx) (s.units.setBeam s.opRelTrack idx btEmpty) s
    else finish .ok (results 0 0 idx) s.units s

/-- BM_READ (R384). -/
def execBmRead (s : State) : Answer :=
  withBma s fun c =>
  check (c.nt.toNat ≤ s.opReadTrack ∨ c.sz.toNat ≤ s.opIdx) .badArg s <|
  finish .ok (results (s.units.beam s.opReadTrack s.opIdx).toNat) s.units s

end Sys2Proof.Machine
end

