-- ==== Sys2Proof/Machine/Grant.lean ====
section
/-! DEFINITION. The grant payload encoder (`43_grant_encoder.md` R290-R297). -/

namespace Sys2Proof.Machine

/-- GEN_LAYOUT[FMT][MODE]: a list of field ids, or UNDEFINED (R293). -/
def genLayout (cfg : Config) (fmt : GrantFormat) (mode : AddrMode) : Option (List FieldId) :=
  (cfg.genLayout.find? (fun r => decide (r.fmt = fmt ∧ r.mode = mode))).map (·.fields)

/-- `val[f] & ((1 << wid[f]) − 1)`: a value masked to its declared width (R292, R296). -/
def GenSlot.masked (g : GenSlot) : Nat := g.val.toNat % 2 ^ g.wid.toNat

/-- The variant condition (R294), tested right after FDRA. -/
def variantHolds (fmt : GrantFormat) (mode : AddrMode) (fdra : GenSlot) : Bool :=
  decide (fmt = .dlA) && decide (mode = .bcast ∨ mode = .ra) &&
  decide (1 ≤ fdra.wid.toNat) && decide (fdra.masked = 2 ^ fdra.wid.toNat - 1)

/-- The fields walked when no branch is taken on the way: none if one is not staged (R296). -/
def walkPlain (slot : FieldId → GenSlot) (fields : List FieldId) : Option (List FieldId) :=
  if fields.all (fun f => (slot f).wr) then some fields else none

/-- The walk of R296 over a layout: the fields in order and the VARIANT tag, none when a field of
the walk is not staged. After FDRA under the condition of R294, GEN_VARIANT replaces the rest. -/
def walkLayout (slot : FieldId → GenSlot) (branch : Bool) (variant : List FieldId) :
    List FieldId → Option (List FieldId × Bool)
  | [] => some ([], false)
  | f :: rest =>
    if (slot f).wr then
      if f = fdraId ∧ branch then
        match walkPlain slot variant with
        | some v => some (f :: v, true)
        | none   => none
      else
        match walkLayout slot branch variant rest with
        | some (fs, tag) => some (f :: fs, tag)
        | none           => none
    else none

/-- n, the sum of the walked widths (R296). -/
def contentBits (slot : FieldId → GenSlot) (fields : List FieldId) : Nat :=
  (fields.map (fun f => (slot f).wid.toNat)).sum

/-- v: the walked fields concatenated, most significant first, each masked to its width (R296). -/
def packFields (slot : FieldId → GenSlot) (fields : List FieldId) : Nat :=
  fields.foldl (fun v f => v <<< (slot f).wid.toNat ||| (slot f).masked) 0

/-- GEN_FIELD (R295). -/
def execGenField (f : Nat) (s : State) : Answer :=
  if 64 ≤ f then fatal .badIndex s
  else
    check (32 < s.opWidth.toNat) .badArg s <|
    finish .ok (results 0)
      (s.units.setGen s.cur
        (writeAt slotClear (s.units.gen s.cur) f { val := s.opValue, wid := s.opWidth, wr := true })) s

/-- GEN_ENCODE (R296): the checks in the order BAD_ARG, LAYOUT_UNDEFINED, PAYLOAD_TOO_LONG,
FIELD_MISSING, SIZE_MISMATCH; on success the port's staging table is cleared. -/
def execGenEncode (s : State) : Answer :=
  match s.opMode with
  | none => fatal .badArg s
  | some mode =>
    match genLayout s.cfg s.opFmt mode with
    | none => fatal .layoutUndefined s
    | some fields =>
      let slot := s.units.slot s.cur
      check (64 < s.opAlign) .payloadTooLong s <|
        match walkLayout slot (variantHolds s.opFmt mode (slot fdraId)) s.cfg.genVariant fields with
        | none => fatal .fieldMissing s
        | some (seq, tag) =>
          let n := contentBits slot seq
          let payload := packFields slot seq <<< (s.opAlign - n)
          check (s.opAlign < n) .sizeMismatch s <|
          finish .ok (results payload (payload >>> 32) s.opAlign (flagNat tag ||| n <<< 8))
            (s.units.setGen s.cur []) s

/-- GEN_CLEAR (R297): only the served port's table. -/
def execGenClear (s : State) : Answer := finish .ok (results 0) (s.units.setGen s.cur []) s

end Sys2Proof.Machine
end

