-- ==== Sys2Proof/Machine/Harq.lean ====
section
/-! DEFINITION. The HARQ process queue manager (`41_harq_queue.md` R180-R189). -/

namespace Sys2Proof.Machine

/-- The queues, with their codes 0, 1, 2 (R128). -/
inductive Queue where
  | av | fb | rt
deriving DecidableEq, Repr

/-- The queue code (R128). -/
def Queue.code : Queue → Nat
  | .av => 0
  | .fb => 1
  | .rt => 2

/-- P.q[q] (R51). -/
def Pool.queue (P : Pool) : Queue → List Nat
  | .av => P.av
  | .fb => P.fb
  | .rt => P.rt

/-- `queue_of(i)` (R180): defined for every i < cap because each id is in exactly one queue (R52);
an id in neither AV nor FB is in RT. DEDUCED, safe where R52 holds (log 12). -/
def Pool.queueOf (P : Pool) (i : Nat) : Queue :=
  if i ∈ P.av then .av else if i ∈ P.fb then .fb else .rt

/-- `q \ x` (R9, R181): x removed, the order of the others kept; a queue holds no repeated id
(R52). -/
def removeId (q : List Nat) (x : Nat) : List Nat := q.erase x

/-- `append(q, x)` (R181). -/
def appendId (q : List Nat) (x : Nat) : List Nat := q ++ [x]

/-- The pool HQ_CREATE makes: every id available, ascending, no due slot (R182). -/
def Pool.fresh (n : Nat) : Pool where
  cap := n
  av  := List.range n
  fb  := []
  rt  := []
  due := []

/-- HQ_CREATE (R182). -/
def execHqCreate (d : Direction) (c : Nat) (s : State) : Answer :=
  inContext c s <|
  check (s.opCap < 1 ∨ s.cfg.nmax < s.opCap) .badCapacity s <|
  finish .ok (results 0) (s.units.setPool c d (Pool.fresh s.opCap)) s

/-- The head of AV goes to the tail of FB, its due slot unset (R183). -/
def Pool.take (P : Pool) (i : Nat) : Pool :=
  { P with av := removeId P.av i, fb := appendId P.fb i, due := drop P.due i }

/-- HQ_TAKE_AVAIL (R183). -/
def execHqTakeAvail (d : Direction) (c : Nat) (s : State) : Answer :=
  withPool c d s fun P =>
    match P.av with
    | [] => finish .exhausted (results none32) s.units s
    | i :: _ => finish .ok (results i) (s.units.setPool c d (P.take i)) s

/-- The due slot of an id is recorded (R184). -/
def Pool.setDue (P : Pool) (i : Nat) (slot : Word) : Pool := { P with due := put P.due i slot }

/-- An available id moves to the tail of FB (R184). -/
def Pool.grant (P : Pool) (i : Nat) : Pool :=
  { P with av := removeId P.av i, fb := appendId P.fb i }

/-- HQ_MARK_FB (R184). -/
def execHqMarkFb (d : Direction) (c : Nat) (s : State) : Answer :=
  withPool c d s fun P =>
  check (P.cap ≤ s.opId) .badId s <|
    match P.queueOf s.opId with
    | .av => finish .ok (results 1) (s.units.setPool c d ((P.grant s.opId).setDue s.opId s.opDue)) s
    | .fb => finish .ok (results 0) (s.units.setPool c d (P.setDue s.opId s.opDue)) s
    | .rt => fatal .badState s

/-- A positive acknowledgment: the id goes from FB to the tail of AV (R185). -/
def Pool.ack (P : Pool) (i : Nat) : Pool :=
  { P with fb := removeId P.fb i, av := appendId P.av i, due := drop P.due i }

/-- A negative acknowledgment or timeout: the id goes from FB to the tail of RT (R185). -/
def Pool.nack (P : Pool) (i : Nat) : Pool :=
  { P with fb := removeId P.fb i, rt := appendId P.rt i, due := drop P.due i }

/-- HQ_FEEDBACK (R185). -/
def execHqFeedback (d : Direction) (c : Nat) (s : State) : Answer :=
  withPool c d s fun P =>
  check (P.cap ≤ s.opId) .badId s <|
  check (P.queueOf s.opId ≠ .fb) .badState s <|
    if s.opAck then
      finish .ok (results Queue.av.code) (s.units.setPool c d (P.ack s.opId)) s
    else
      finish .ok (results Queue.rt.code) (s.units.setPool c d (P.nack s.opId)) s

/-- The head of RT goes to the tail of FB, its due slot unset (R186). -/
def Pool.retake (P : Pool) (i : Nat) : Pool :=
  { P with rt := removeId P.rt i, fb := appendId P.fb i, due := drop P.due i }

/-- HQ_TAKE_RETX (R186). -/
def execHqTakeRetx (d : Direction) (c : Nat) (s : State) : Answer :=
  withPool c d s fun P =>
    match P.rt with
    | [] => finish .empty (results none32) s.units s
    | i :: _ => finish .ok (results i) (s.units.setPool c d (P.retake i)) s

/-- The ids cap..n-1 are appended to AV in ascending order, their due slots unset (R187). -/
def Pool.grow (P : Pool) (n : Nat) : Pool :=
  { P with
    cap := n
    av  := P.av ++ List.range' P.cap (n - P.cap)
    due := dropAll P.due (fun i => decide (P.cap ≤ i) && decide (i < n)) }

/-- HQ_RESIZE (R187): INVALID_RESIZE is checked before BAD_CAPACITY. -/
def execHqResize (d : Direction) (c : Nat) (s : State) : Answer :=
  withPool c d s fun P =>
  check (s.opCap < P.cap) .invalidResize s <|
  check (s.cfg.nmax < s.opCap) .badCapacity s <|
  finish .ok (results s.opCap) (s.units.setPool c d (P.grow s.opCap)) s

/-- The null id (R128). -/
def nullId : Nat := 0xFF

/-- The neighbour after position `k`, or the null id (R188). -/
def nextId (q : List Nat) (k : Nat) : Nat := q.getD (k + 1) nullId

/-- The neighbour before position `k`, or the null id (R188). -/
def prevId (q : List Nat) (k : Nat) : Nat := if 0 < k then q.getD (k - 1) nullId else nullId

/-- HQ_QUERY (R188). -/
def execHqQuery (d : Direction) (c : Nat) (s : State) : Answer :=
  withPool c d s fun P =>
  check (P.cap ≤ s.opId) .badId s <|
    let q := P.queue (P.queueOf s.opId)
    let k := q.idxOf s.opId
    let due := look P.due s.opId
    finish .ok
      (results
        ((P.queueOf s.opId).code ||| nextId q k <<< 8 ||| prevId q k <<< 16 ||| flagNat due.isSome <<< 24)
        (due.getD 0).toNat
        k)
      s.units s

/-- The first element of a queue, or the null id (R189). -/
def headId (q : List Nat) : Nat := q.headD nullId

/-- The last element of a queue, or the null id (R189). -/
def tailId (q : List Nat) : Nat := q.getLastD nullId

/-- HQ_STAT (R189). -/
def execHqStat (d : Direction) (c : Nat) (s : State) : Answer :=
  withPool c d s fun P =>
    finish .ok
      (results
        (P.av.length ||| P.fb.length <<< 8 ||| P.rt.length <<< 16 ||| P.cap <<< 24)
        (headId P.av ||| headId P.fb <<< 8 ||| headId P.rt <<< 16)
        (tailId P.av ||| tailId P.fb <<< 8 ||| tailId P.rt <<< 16))
      s.units s

end Sys2Proof.Machine
end

