-- ==== Sys2Proof/Machine/LinkAdapt.lean ====
section
/-! DEFINITION. The link-adaptation MCS selector (`44_link_adaptation.md` R330-R333). -/

namespace Sys2Proof.Machine

/-- 1.0 on the fixed-point scale of rates and thresholds (R58). -/
def rateOne : Nat := 65536

/-- The record LA_INIT writes from the operands; WIN = 0 selects the default window (R331). -/
def State.opRecord (s : State) : LaRec where
  mcs      := s.opMcs0
  mn       := s.opMin
  mx       := s.opMax
  rate     := s.opRate0
  last     := s.opNow0
  win      := if s.opWin = 0 then 10 else s.opWin
  thrLo    := s.opThrLo
  thrHi    := s.opThrHi
  txSnap   := s.opTx0
  retxSnap := s.opRetx0

/-- LA_INIT (R331). -/
def execLaInit (d : Direction) (c : Nat) (s : State) : Answer :=
  inContext c s <|
  check (¬ (s.opMin.toNat ≤ s.opMcs0.toNat ∧ s.opMcs0.toNat ≤ s.opMax.toNat)) .badArg s <|
  check (rateOne < s.opThrLo.toNat ∨ rateOne < s.opThrHi.toNat ∨ rateOne < s.opRate0.toNat) .badArg s <|
  finish .ok (results 0) (s.units.setLaRec c d s.opRecord) s

/-- e = (NOW − last) mod 1024 (R332). -/
def elapsed (R : LaRec) (now : BitVec 10) : Nat := (now - R.last).toNat

/-- tx_w, the transmissions in the window, mod 2^32 (R332). -/
def windowTx (R : LaRec) (tx : Word) : Nat := (tx - R.txSnap).toNat

/-- retx_w, the retransmissions in the window, mod 2^32 (R332). -/
def windowRetx (R : LaRec) (retx : Word) : Nat := (retx - R.retxSnap).toNat

/-- frac, the retransmission fraction clamped to 1.0; 0 for no transmission (R332). -/
def fraction (txW retxW : Nat) : Nat :=
  if txW = 0 then 0 else min rateOne (retxW * rateOne / txW)

/-- rate2 = floor((9 · rate + frac) / 10) (R332). -/
def filtered (rate frac : Nat) : Nat := (9 * rate + frac) / 10

/-- The branch of R332, by its ACTION code (R128): 1 increment, 2 decrement, 0 unchanged. -/
def laAction (R : LaRec) (rate2 txW : Nat) : Nat :=
  if rate2 < R.thrLo.toNat ∧ 3 < txW then 1
  else if R.thrHi.toNat < rate2 ∨ txW < 3 then 2
  else 0

/-- mcs2 (R332): saturating at the configured maximum and minimum. -/
def nextMcs (R : LaRec) (action : Nat) : Nat :=
  match action with
  | 1 => min (R.mcs.toNat + 1) R.mx.toNat
  | 2 => max (R.mcs.toNat - 1) R.mn.toNat
  | _ => R.mcs.toNat

/-- The window fraction an evaluation sees (R332). -/
def windowFraction (R : LaRec) (tx retx : Word) : Nat :=
  fraction (windowTx R tx) (windowRetx R retx)

/-- rate2 of an evaluation (R332). -/
def nextRate (R : LaRec) (tx retx : Word) : Nat := filtered R.rate.toNat (windowFraction R tx retx)

/-- The branch an evaluation takes (R332). -/
def evalAction (R : LaRec) (tx retx : Word) : Nat := laAction R (nextRate R tx retx) (windowTx R tx)

/-- The record after an evaluation (R332). -/
def evalRecord (R : LaRec) (now : BitVec 10) (tx retx : Word) : LaRec :=
  { R with
    mcs      := BitVec.ofNat 8 (nextMcs R (evalAction R tx retx))
    rate     := BitVec.ofNat 17 (nextRate R tx retx)
    last     := now
    txSnap   := tx
    retxSnap := retx }

/-- LA_EVAL (R332). -/
def execLaEval (d : Direction) (c : Nat) (s : State) : Answer :=
  withRec c d s fun R =>
    if elapsed R s.opNow < R.win.toNat then
      finish .ok (results R.mcs.toNat R.rate.toNat) s.units s
    else
      finish .ok
        (results (nextMcs R (evalAction R s.opTx s.opRetx)) (nextRate R s.opTx s.opRetx)
          (1 ||| evalAction R s.opTx s.opRetx <<< 1) (windowTx R s.opTx))
        (s.units.setLaRec c d (evalRecord R s.opNow s.opTx s.opRetx)) s

/-- LA_READ (R333). -/
def execLaRead (d : Direction) (sel : Bool) (c : Nat) (s : State) : Answer :=
  withRec c d s fun R =>
    if sel then
      finish .ok (results R.thrHi.toNat R.txSnap.toNat R.retxSnap.toNat) s.units s
    else
      finish .ok
        (results (R.mcs.toNat ||| R.mn.toNat <<< 8 ||| R.mx.toNat <<< 16) R.rate.toNat
          (R.last.toNat ||| R.win.toNat <<< 16) R.thrLo.toNat)
        s.units s

end Sys2Proof.Machine
end

