-- ==== Sys2Proof/Machine/Placer.lean ====
section
/-! DEFINITION. The control-channel placer and the occupancy maps (`42_cce_placer.md` R230-R248). -/

namespace Sys2Proof.Machine

/-! ### Derived values of a layout (R232) -/

/-- G, the set bits of FMASK in ascending order (R232). -/
def Layout.groups (l : Layout) : List Nat := (List.range 45).filter (fun g => l.fmask.getLsbD g)

/-- n_rb = 6 · P (R232). -/
def Layout.nRb (l : Layout) : Nat := 6 * (Layout.groups l).length

/-- n_reg = n_rb · DUR (R232). -/
def Layout.nReg (l : Layout) : Nat := Layout.nRb l * l.dur.toNat

/-- n_cce = n_reg / 6 (R232). -/
def Layout.nCce (l : Layout) : Nat := Layout.nReg l / 6

/-- n_bundle = n_reg / L_eff; the record stores L_eff as its bundle size (R232, R233). -/
def Layout.nBundle (l : Layout) : Nat := Layout.nReg l / l.bundle.toNat

/-- C = n_bundle / R (R232). -/
def Layout.nCols (l : Layout) : Nat := Layout.nBundle l / l.ilv.toNat

/-- w = L_eff / DUR, resource blocks per bundle (R232). -/
def Layout.width (l : Layout) : Nat := l.bundle.toNat / l.dur.toNat

/-- symmask = ((1 << DUR) − 1) << START (R232). -/
def Layout.symmask (l : Layout) : BitVec 14 :=
  BitVec.ofNat 14 ((1 <<< l.dur.toNat - 1) <<< l.start.toNat)

/-- rb_first = RBOFF + 6 · g_0 (R232). -/
def Layout.rbFirst (l : Layout) : Nat := l.rbOffset.toNat + 6 * (Layout.groups l).headD 0

/-- rb_last = RBOFF + 6 · g_{P-1} + 5 (R232). -/
def Layout.rbLast (l : Layout) : Nat := l.rbOffset.toNat + 6 * (Layout.groups l).getLastD 0 + 5

/-- When a layout is legal (R231), from the operands as given. -/
def layoutLegal (numRb : Nat) (l : Layout) : Bool :=
  decide (l.fmask ≠ 0) &&
  decide (1 ≤ l.dur.toNat ∧ l.dur.toNat ≤ 3) &&
  decide (l.start.toNat + l.dur.toNat ≤ 14) &&
  (!l.il ||
    (decide ((l.dur.toNat ≤ 2 ∧ (l.bundle.toNat = 2 ∨ l.bundle.toNat = 6)) ∨
        (l.dur.toNat = 3 ∧ (l.bundle.toNat = 3 ∨ l.bundle.toNat = 6))) &&
     decide (l.ilv.toNat = 2 ∨ l.ilv.toNat = 3 ∨ l.ilv.toNat = 6) &&
     decide (l.shift.toNat ≤ 274) &&
     decide ((Layout.nReg l / l.bundle.toNat) % l.ilv.toNat = 0))) &&
  decide (Layout.rbLast l < numRb)

/-- The record CCP_LAYOUT_SET stores: its bundle size is L_eff, 6 when IL = 0 (R232, R233). -/
def layoutStored (l : Layout) : Layout := { l with bundle := if l.il then l.bundle else 6 }

/-! ### Layout commands -/

/-- CCP_LAYOUT_SET (R233). -/
def execCcpLayoutSet (k : Nat) (s : State) : Answer :=
  inLayouts k s <|
  check (layoutLegal s.cfg.numRb s.opLayout = false) .badLayout s <|
  finish .ok (results 0) { s.units with lay := put s.units.lay k (layoutStored s.opLayout) } s

/-- CCP_LAYOUT_DEL (R234). -/
def execCcpLayoutDel (k : Nat) (s : State) : Answer :=
  inLayouts k s <|
  finish .ok (results 0) { s.units with lay := drop s.units.lay k } s

/-- CCP_LAYOUT_INFO (R235). -/
def execCcpLayoutInfo (k : Nat) (s : State) : Answer :=
  withLayout k s fun l =>
    finish .ok
      (results (Layout.nCce l) (Layout.rbFirst l ||| Layout.rbLast l <<< 16) (Layout.symmask l).toNat
        (Layout.nRb l ||| Layout.nReg l <<< 16))
      s.units s

/-! ### The CCE-to-resource-block mapping (R236, R237) -/

/-- f(x), the bundle interleaver (R236). -/
def interleave (l : Layout) (x : Nat) : Nat :=
  if l.il then
    (x % l.ilv.toNat * Layout.nCols l + x / l.ilv.toNat + l.shift.toNat) % Layout.nBundle l
  else x

/-- absrb(i): set resource block i as an absolute one (R236). -/
def absRb (l : Layout) (i : Nat) : Nat :=
  l.rbOffset.toNat + 6 * (Layout.groups l).getD (i / 6) 0 + i % 6

/-- A layout as a given mapping sees it: R and SHIFT are never read when IL = 0 (R233). -/
def layoutRead (l : Layout) : Layout := if l.il then l else { l with ilv := 0, shift := 0 }

/-- The set resource block where CCE_MAP puts resource block `i` of bundle `x`: the default is
R236's f(x)·w + i; a `given` mapping is free within the set (R6, log 7), and like the default it does
not see R and SHIFT of a layout that is not interleaved (R233). -/
def setRb (m : CceMapParam) (l : Layout) (x i : Nat) : Nat :=
  match m with
  | .protocol => interleave l x * Layout.width l + i
  | .given    => Config.cceMapRaw (layoutRead l) x i % Layout.nRb l

/-- The absolute resource blocks of one bundle, `bundle_rbs` (R236). -/
def bundleRbs (m : CceMapParam) (l : Layout) (x : Nat) : List Nat :=
  (List.range (Layout.width l)).map (fun i => absRb l (setRb m l x i))

/-- The bundles of CCE j in order, `bundles(j)` before the interleaver: 6/L_eff of them (R236). -/
def cceBundles (l : Layout) (j : Nat) : List Nat :=
  (List.range (6 / l.bundle.toNat)).map (fun t => 6 * j / l.bundle.toNat + t)

/-- RBS(k, first, L): the resource blocks a candidate touches (R237). -/
def candidateRbs (m : CceMapParam) (l : Layout) (first n : Nat) : List Nat :=
  (List.range' first n).flatMap fun j => (cceBundles l j).flatMap fun x => bundleRbs m l x

/-! ### Candidate search (R238-R241) -/

/-- first_cce(m) (R238), in exact arithmetic. -/
def firstCce (nCce L M Y m : Nat) : Nat := L * ((Y + m * nCce / (L * M)) % (nCce / L))

/-- free(k, b, first, L) (R239): no touched resource block holds a bit of symmask. -/
def candidateFree (m : CceMapParam) (l : Layout) (u : Units) (b first n : Nat) : Bool :=
  (candidateRbs m l first n).all (fun r => decide (u.mask b r &&& Layout.symmask l = 0))

/-- find_level (R240): the candidate found as (first, m), and how many were tested. -/
def findLevel (map : CceMapParam) (l : Layout) (u : Units) (b lvl M Y : Nat) :
    Option (Nat × Nat) × Nat :=
  let L := 1 <<< lvl
  if M = 0 ∨ Layout.nCce l < L then (none, 0)
  else
    match (List.range M).find? (fun m => candidateFree map l u b (firstCce (Layout.nCce l) L M Y m) L) with
    | some m => (some (firstCce (Layout.nCce l) L M Y m, m), m + 1)
    | none   => (none, M)

/-- order(CQ) (R241): from the nearest level upward, then downward through the skipped ones. -/
def levelOrder (cq : Nat) : List Nat :=
  let start := (4 * cq + 128) / 256
  List.range' start (5 - start) ++ (List.range start).reverse

/-- The loop of R244 over the levels: the first hit as (level, first, m), and the tests in total. -/
def searchLevels (find : Nat → Option (Nat × Nat) × Nat) : List Nat → Nat → Option (Nat × Nat × Nat) × Nat
  | [], total => (none, total)
  | v :: rest, total =>
    match find v with
    | (some (first, m), tested) => (some (v, first, m), total + tested)
    | (none, tested)            => searchLevels find rest (total + tested)

/-- mark(k, b, first, L) (R245). -/
def markCandidate (map : CceMapParam) (l : Layout) (b first n : Nat) (u : Units) : Units :=
  (candidateRbs map l first n).foldl (fun v r => v.orMask b r (Layout.symmask l)) u

/-! ### Search and mark commands -/

/-- CCP_CCE_MAP (R242). -/
def execCcpCceMap (k : Nat) (s : State) : Answer :=
  withLayout k s fun l =>
  check (Layout.nCce l ≤ s.opCce) .badArg s <|
    let B := cceBundles l s.opCce
    let first (t : Nat) : Nat :=
      match B[t]? with
      | some x => absRb l (setRb s.cfg.cceMap l x 0)
      | none   => none32
    finish .ok
      (results (first 0) (first 1) (first 2)
        (Layout.width l ||| B.length <<< 8 ||| (Layout.symmask l).toNat <<< 16))
      s.units s

/-- CCP_FIND (R243). -/
def execCcpFind (mark : Bool) (k : Nat) (s : State) : Answer :=
  withLayout k s fun l =>
  check (s.cfg.numBeams ≤ s.opBeam) .badArg s <|
  check (4 < s.opLvl) .badArg s <|
  check (8 < s.opM) .badArg s <|
    match findLevel s.cfg.cceMap l s.units s.opBeam s.opLvl s.opM s.opY with
    | (none, tested) => finish .noCandidate (results none32 0 0 tested) s.units s
    | (some (first, m), tested) =>
      finish .ok (results first s.opLvl m (tested ||| flagNat mark <<< 8))
        (if mark then markCandidate s.cfg.cceMap l s.opBeam first (1 <<< s.opLvl) s.units else s.units) s

/-- CCP_SEARCH (R244). -/
def execCcpSearch (mark : Bool) (k : Nat) (s : State) : Answer :=
  withLayout k s fun l =>
  check (s.cfg.numBeams ≤ s.opBeam) .badArg s <|
  check (∃ v ∈ List.range 5, 8 < s.opMLevel v) .badArg s <|
  check (256 < s.opCq) .badArg s <|
    match searchLevels (fun v => findLevel s.cfg.cceMap l s.units s.opBeam v (s.opMLevel v) s.opY)
        (levelOrder s.opCq) 0 with
    | (none, total) => finish .noCandidate (results none32 0 0 total) s.units s
    | (some (v, first, m), total) =>
      finish .ok (results first v m (total ||| flagNat mark <<< 8))
        (if mark then markCandidate s.cfg.cceMap l s.opBeam first (1 <<< v) s.units else s.units) s

/-- CCP_MARK (R245): it does not test for collision. -/
def execCcpMark (k : Nat) (s : State) : Answer :=
  withLayout k s fun l =>
  check (s.cfg.numBeams ≤ s.opBeam) .badArg s <|
  check (4 < s.opLvl) .badArg s <|
  check (s.opFirst % (1 <<< s.opLvl) ≠ 0 ∨ Layout.nCce l < s.opFirst + 1 <<< s.opLvl) .badArg s <|
  finish .ok (results 0) (markCandidate s.cfg.cceMap l s.opBeam s.opFirst (1 <<< s.opLvl) s.units) s

/-! ### Occupancy commands -/

/-- Every mask of beam `b` cleared (R246). -/
def clearBeam (b : Nat) (u : Units) : Units :=
  { u with occ := dropAll u.occ (fun key => decide (key / 65536 = b)) }

/-- OCC_CLEAR (R246). -/
def execOccClear (all : Bool) (s : State) : Answer :=
  if all then finish .ok (results 0) { s.units with occ := [] } s
  else
    check (s.cfg.numBeams ≤ s.opBeam) .badArg s <|
    finish .ok (results 0) (clearBeam s.opBeam s.units) s

/-- `for r in [r0, r0+n): OCC[b][r] <- OCC[b][r] | m` (R247). -/
def orRange (b r0 n : Nat) (m : BitVec 14) (u : Units) : Units :=
  (List.range' r0 n).foldl (fun v r => v.orMask b r m) u

/-- OCC_SET (R247). -/
def execOccSet (s : State) : Answer :=
  check (s.cfg.numBeams ≤ s.opBeam) .badArg s <|
  check (s.cfg.numRb < s.opRb + s.opRbCount) .badArg s <|
  finish .ok (results 0) (orRange s.opBeam s.opRb s.opRbCount s.opSymMask s.units) s

/-- OCC_READ (R248). -/
def execOccRead (s : State) : Answer :=
  check (s.cfg.numBeams ≤ s.opBeam ∨ s.cfg.numRb ≤ s.opRb) .badArg s <|
  finish .ok (results (s.units.mask s.opBeam s.opRb).toNat) s.units s

end Sys2Proof.Machine
end

