-- ==== Sys2Proof/Machine/Sizer.lean ====
section
/-! DEFINITION. The resource-block sizer (`45_rb_sizer.md` R360-R362). -/

namespace Sys2Proof.Machine

/-- `n` with every factor `p` divided out, at most `fuel` times. -/
def stripFactor (p : Nat) : Nat → Nat → Nat
  | 0, n => n
  | fuel + 1, n => if n % p = 0 then stripFactor p fuel (n / p) else n

/-- is235(n): n ≥ 1 has no prime factor but 2, 3 and 5 (R360). -/
def is235 (n : Nat) : Bool :=
  decide (1 ≤ n) && decide (stripFactor 5 n (stripFactor 3 n (stripFactor 2 n n)) = 1)

/-- conf(n) (R360). -/
def conforms (tp : Bool) (n : Nat) : Bool := !tp || is235 n

/-- A non-decreasing function of n made from a free one: its running maximum (R361, log 6). -/
def runningMax (f : Nat → Nat) : Nat → Nat
  | 0 => f 0
  | n + 1 => max (runningMax f n) (f (n + 1))

/-- TBS_FN(n, CPAR) (R361): total, a 32-bit value for n < 2^16, and non-decreasing in n. -/
def tbsFn (p : TbsParam) (n : Nat) (cpar : Word) : Nat :=
  match p with
  | .testFn => n * field cpar 0 16
  | .given  => runningMax (fun k => (Config.tbsRaw k cpar).toNat) n

/-- The conforming counts in [lo, hi), ascending. -/
def conforming (tp : Bool) (lo hi : Nat) : List Nat := (List.range' lo (hi - lo)).filter (conforms tp)

/-- The probe of one loop pass (R362): the least conforming count in [max(mid, lo+1), hi), else the
greatest in (lo, mid). -/
def probe (tp : Bool) (lo hi : Nat) : Option Nat :=
  let mid := (lo + hi) / 2
  match (conforming tp (max mid (lo + 1)) hi).head? with
  | some q => some q
  | none   => (conforming tp (lo + 1) mid).getLast?

/-- The loop of R362 as (hi, th, ev); a pass shrinks hi − lo, so `hi - lo` passes are enough (R364,
log 22). -/
def sizeLoop (tp : Bool) (T : Nat → Nat) (target : Nat) : Nat → Nat → Nat → Nat → Nat → Nat × Nat × Nat
  | 0, _, hi, th, ev => (hi, th, ev)
  | fuel + 1, lo, hi, th, ev =>
    match probe tp lo hi with
    | none   => (hi, th, ev)
    | some q =>
      if target ≤ T q then sizeLoop tp T target fuel lo q (T q) (ev + 1)
      else sizeLoop tp T target fuel q hi th (ev + 1)

/-- What a fit returns (R362): count, achieved bytes, FITS, evaluations. -/
structure FitResult where
  rb       : Nat
  achieved : Nat
  fits     : Bool
  evals    : Nat
deriving DecidableEq, Repr

/-- The source's `fit` (R362) over legal operands. -/
def fitRb (tp : Bool) (T : Nat → Nat) (target minRb maxRb : Nat) : FitResult :=
  let S := conforming tp minRb (maxRb + 1)
  match S.head?, S.getLast? with
  | some lo, some hi =>
    if T hi < target then { rb := hi, achieved := T hi, fits := false, evals := 1 }
    else if lo = hi then { rb := hi, achieved := T hi, fits := true, evals := 1 }
    else if target ≤ T lo then { rb := lo, achieved := T lo, fits := true, evals := 2 }
    else
      let (rb, th, ev) := sizeLoop tp T target (hi - lo) lo hi (T hi) 2
      { rb := rb, achieved := th, fits := true, evals := ev }
  | _, _ => { rb := 0, achieved := 0, fits := false, evals := 0 }

/-- RBS_FIT (R362). -/
def execRbsFit (s : State) : Answer :=
  check (¬ (1 ≤ s.opMinRb ∧ s.opMinRb ≤ s.opMaxRb ∧ s.opMaxRb ≤ s.cfg.numRb)) .badArg s <|
    let r := fitRb s.opTp (fun n => tbsFn s.cfg.tbs n s.opCpar) s.opTarget s.opMinRb s.opMaxRb
    finish (if r.fits then .ok else .notFit) (results r.rb r.achieved (flagNat r.fits) r.evals) s.units s

end Sys2Proof.Machine
end

