-- ==== Sys2Proof/Machine/System.lean ====
section
/-! DEFINITION. The system commands (`40_system.md` R161, R163) and the illegal command
(`60_exceptions.md` R403). -/

namespace Sys2Proof.Machine

/-- NOP (R161). -/
def execNop (s : State) : Answer := finish .ok (results 0) s.units s

/-- CTX_RELEASE (R163): both pools and both link-adaptation records of the context become invalid;
the occupancy map, the layouts and the beam table stay. -/
def execCtxRelease (c : Nat) (s : State) : Answer :=
  inContext c s <|
    finish .ok (results 0)
      { s.units with
        hq := drop (drop s.units.hq (ctxKey c .dl)) (ctxKey c .ul)
        la := drop (drop s.units.la (ctxKey c .dl)) (ctxKey c .ul) } s

/-- A word the decoder finds illegal (R124, R403): ILLEGAL_CMD, no argument register read. -/
def execIllegal (s : State) : Answer := fatal .illegalCmd s

end Sys2Proof.Machine
end

