-- ==== Sys2Proof/Machine/Dispatch.lean ====
section
/-! DEFINITION. One arm per command: the command the engine serves, run as one transition
(`20_memory.md` R99). -/

namespace Sys2Proof.Machine

def exec (i : Instr) (s : State) : Host.Outcome State Fault Refusal :=
  match i with
  | .nop => Sys2Proof.Machine.execNop s
  | .ctxRelease c => Sys2Proof.Machine.execCtxRelease c s
  | .hqCreate d c => Sys2Proof.Machine.execHqCreate d c s
  | .hqTakeAvail d c => Sys2Proof.Machine.execHqTakeAvail d c s
  | .hqMarkFb d c => Sys2Proof.Machine.execHqMarkFb d c s
  | .hqFeedback d c => Sys2Proof.Machine.execHqFeedback d c s
  | .hqTakeRetx d c => Sys2Proof.Machine.execHqTakeRetx d c s
  | .hqResize d c => Sys2Proof.Machine.execHqResize d c s
  | .hqQuery d c => Sys2Proof.Machine.execHqQuery d c s
  | .hqStat d c => Sys2Proof.Machine.execHqStat d c s
  | .ccpLayoutSet k => Sys2Proof.Machine.execCcpLayoutSet k s
  | .ccpLayoutDel k => Sys2Proof.Machine.execCcpLayoutDel k s
  | .ccpLayoutInfo k => Sys2Proof.Machine.execCcpLayoutInfo k s
  | .ccpCceMap k => Sys2Proof.Machine.execCcpCceMap k s
  | .ccpFind m k => Sys2Proof.Machine.execCcpFind m k s
  | .ccpSearch m k => Sys2Proof.Machine.execCcpSearch m k s
  | .ccpMark k => Sys2Proof.Machine.execCcpMark k s
  | .occClear a => Sys2Proof.Machine.execOccClear a s
  | .occSet => Sys2Proof.Machine.execOccSet s
  | .occRead => Sys2Proof.Machine.execOccRead s
  | .genField f => Sys2Proof.Machine.execGenField f s
  | .genEncode => Sys2Proof.Machine.execGenEncode s
  | .genClear => Sys2Proof.Machine.execGenClear s
  | .laInit d c => Sys2Proof.Machine.execLaInit d c s
  | .laEval d c => Sys2Proof.Machine.execLaEval d c s
  | .laRead d sel c => Sys2Proof.Machine.execLaRead d sel c s
  | .rbsFit => Sys2Proof.Machine.execRbsFit s
  | .bmConfig => Sys2Proof.Machine.execBmConfig s
  | .bmAlloc => Sys2Proof.Machine.execBmAlloc s
  | .bmRelease => Sys2Proof.Machine.execBmRelease s
  | .bmRead => Sys2Proof.Machine.execBmRead s

end Sys2Proof.Machine
end

