-- ==== Sys2Proof/Machine/Engine.lean ====
section
/-! DEFINITION. The engine (`20_memory.md` R97-R103): which moves are enabled, one move, the fairness
between the ports (`70_reset_and_hazards.md` R464), and the free choice among several. Step.lean only calls what stands here. -/

namespace Sys2Proof.Machine

/-- A command of port `p` may run (R99), and the hold may be granted to `p` (R102). -/
def moveEnabled (s : State) : EngineMove → Bool
  | .command p => (s.port p).busy && decide (s.holdOwner = none ∨ s.holdOwner = some p)
  | .grant p   => (s.port p).holdReq && decide (s.holdOwner = none)

/-- The engine's enabled moves. -/
def enabledMoves (s : State) : List EngineMove :=
  [EngineMove.command .p0, .command .p1, .grant .p0, .grant .p1].filter (moveEnabled s)

/-- The pending word of port `p` is decoded and executed as one transition (R99, R132). -/
def runCommand (p : PortId) (s : State) : Answer :=
  let t : State := { s with cur := p }
  match decode t.cfg t.word with
  | some i => exec i t
  | none   => execIllegal t

/-- A grant step (R102). -/
def grantHold (p : PortId) (s : State) : Answer := .next { s with holdOwner := some p }

/-! ### Fairness between the ports (`70_reset_and_hazards.md` R464, log 27) -/

/-- The other port. -/
def PortId.other : PortId → PortId
  | .p0 => .p1
  | .p1 => .p0

/-- The port an engine move serves. -/
def EngineMove.port : EngineMove → PortId
  | .command p => p
  | .grant p   => p

/-- Port `p` has a command that could run and has been passed over for as long as this round allows: the
engine may not choose the other port again (R464). -/
def overdue (s : State) (p : PortId) : Bool :=
  decide (p ≠ s.fair.last) && moveEnabled s (.command p) &&
    decide (Config.patience s.fair.round ≤ s.fair.streak)

/-- The move the engine makes when `m` is chosen: `m`, or the command of the other port when that is
overdue (R464). -/
def fairMove (s : State) (m : EngineMove) : EngineMove :=
  if overdue s m.port.other then .command m.port.other else m

/-- The fairness record after a move for port `p`, from the state before it. -/
def fairAfter (s : State) (p : PortId) : Fairness :=
  let passed := flagNat (moveEnabled s (.command p.other))
  if p = s.fair.last then { s.fair with streak := s.fair.streak + passed }
  else { last := p, streak := passed, round := s.fair.round + 1 }

/-- The engine makes the move `m`. -/
def runMove (m : EngineMove) (s : State) : Answer :=
  let t : State := { s with fair := fairAfter s m.port }
  match m with
  | .command p => runCommand p t
  | .grant p   => grantHold p t

/-- One engine move, fair between the ports; a move that is not enabled does nothing (log 4). -/
def engineMove (m : EngineMove) (s : State) : Answer :=
  if moveEnabled s m then runMove (fairMove s m) s else .next s

/-- The engine left to itself: nothing to do, the one enabled move, or a free choice (R101, R102,
U1, U2, log 3); `engineMove` keeps the choices fair. -/
def engineFree (s : State) : Answer :=
  match enabledMoves s with
  | []      => .next s
  | [m]     => engineMove m s
  | m :: ms =>
    engineMove ((m :: ms).getD (Config.enginePick s.pick % (m :: ms).length) m)
      { s with pick := s.pick + 1 }

/-- One turn of an agent (R97, R450). -/
def takeTurn (t : Turn) (s : State) : Answer :=
  match t with
  | .access host op => .next (busAccess s host op)
  | .engine m       => engineMove m s
  | .hardReset      => .next (resetBlock s)

/-- The port through which a word placed from outside is run next: the owner of the hold, or the port
whose turn it is, for which no other port can be overdue (log 17). -/
def fetchPort (s : State) : PortId := s.holdOwner.getD s.fair.last.other

/-- The word is placed as the pending command of `fetchPort`, and the engine's turn to run it comes
first (log 17). -/
def placeWord (s : State) (w : Word) : State :=
  { s.setPort (fetchPort s) { s.port (fetchPort s) with pend := some w } with
    agenda := .engine (.command (fetchPort s)) :: s.agenda }

end Sys2Proof.Machine
end

