-- ==== Sys2Proof/Machine/Step.lean ====
section
/-! DEFINITION. One step of the machine (`20_memory.md` R97): the next turn of the agenda, or the
engine left to itself. -/

namespace Sys2Proof.Machine

/-- One step: the first turn of the agenda is taken; with no turn to come the engine moves alone. -/
def step (s : State) : Host.Outcome State Fault Refusal :=
  match s.agenda with
  | t :: rest => takeTurn t { s with agenda := rest }
  | []        => engineFree s

/-- `s` with the command word `w` (its low `nbits` bits) pending where the next step takes a command
word, and that step the engine's (log 17). -/
def State.withFetchWord (s : State) (nbits w : Nat) : State :=
  placeWord s (BitVec.ofNat 32 (w % 2 ^ nbits))

end Sys2Proof.Machine
end

