-- ==== Sys2Proof/Machine/OpcodeTable.lean ====
section
/-! DEFINITION. The opcode map of `30_encoding.md` R121 as the table prints it: mnemonic, match and
mask of every row, and each command's mnemonic. -/

namespace Sys2Proof.Machine

/-- One row of R121. -/
structure OpRow where
  mnemonic : String
  bits     : Word
  mask     : Word
deriving DecidableEq, Repr

/-- The rows of R121, in order. -/
def opcodeTable : List OpRow :=
  [ ⟨"NOP", 0x00000000, 0xFFFFFFFF⟩,
    ⟨"CTX_RELEASE", 0x01000000, 0xFFFF0000⟩,
    ⟨"HQ_CREATE", 0x10000000, 0xFFFE0000⟩,
    ⟨"HQ_TAKE_AVAIL", 0x11000000, 0xFFFE0000⟩,
    ⟨"HQ_MARK_FB", 0x12000000, 0xFFFE0000⟩,
    ⟨"HQ_FEEDBACK", 0x13000000, 0xFFFE0000⟩,
    ⟨"HQ_TAKE_RETX", 0x14000000, 0xFFFE0000⟩,
    ⟨"HQ_RESIZE", 0x15000000, 0xFFFE0000⟩,
    ⟨"HQ_QUERY", 0x16000000, 0xFFFE0000⟩,
    ⟨"HQ_STAT", 0x17000000, 0xFFFE0000⟩,
    ⟨"CCP_LAYOUT_SET", 0x20000000, 0xFFFF0000⟩,
    ⟨"CCP_LAYOUT_DEL", 0x21000000, 0xFFFF0000⟩,
    ⟨"CCP_LAYOUT_INFO", 0x22000000, 0xFFFF0000⟩,
    ⟨"CCP_CCE_MAP", 0x23000000, 0xFFFF0000⟩,
    ⟨"CCP_FIND", 0x24000000, 0xFFFE0000⟩,
    ⟨"CCP_SEARCH", 0x25000000, 0xFFFE0000⟩,
    ⟨"CCP_MARK", 0x26000000, 0xFFFF0000⟩,
    ⟨"OCC_CLEAR", 0x28000000, 0xFFFEFFFF⟩,
    ⟨"OCC_SET", 0x29000000, 0xFFFFFFFF⟩,
    ⟨"OCC_READ", 0x2A000000, 0xFFFFFFFF⟩,
    ⟨"GEN_FIELD", 0x30000000, 0xFFFF0000⟩,
    ⟨"GEN_ENCODE", 0x31000000, 0xFFFFFFFF⟩,
    ⟨"GEN_CLEAR", 0x32000000, 0xFFFFFFFF⟩,
    ⟨"LA_INIT", 0x40000000, 0xFFFE0000⟩,
    ⟨"LA_EVAL", 0x41000000, 0xFFFE0000⟩,
    ⟨"LA_READ", 0x42000000, 0xFFFC0000⟩,
    ⟨"RBS_FIT", 0x50000000, 0xFFFFFFFF⟩,
    ⟨"BM_CONFIG", 0x60000000, 0xFFFFFFFF⟩,
    ⟨"BM_ALLOC", 0x61000000, 0xFFFFFFFF⟩,
    ⟨"BM_RELEASE", 0x62000000, 0xFFFFFFFF⟩,
    ⟨"BM_READ", 0x63000000, 0xFFFFFFFF⟩ ]

/-- The mnemonic of a command (R121). -/
def mnemonicOf : Instr → String
  | .nop => "NOP"
  | .ctxRelease _ => "CTX_RELEASE"
  | .hqCreate _ _ => "HQ_CREATE"
  | .hqTakeAvail _ _ => "HQ_TAKE_AVAIL"
  | .hqMarkFb _ _ => "HQ_MARK_FB"
  | .hqFeedback _ _ => "HQ_FEEDBACK"
  | .hqTakeRetx _ _ => "HQ_TAKE_RETX"
  | .hqResize _ _ => "HQ_RESIZE"
  | .hqQuery _ _ => "HQ_QUERY"
  | .hqStat _ _ => "HQ_STAT"
  | .ccpLayoutSet _ => "CCP_LAYOUT_SET"
  | .ccpLayoutDel _ => "CCP_LAYOUT_DEL"
  | .ccpLayoutInfo _ => "CCP_LAYOUT_INFO"
  | .ccpCceMap _ => "CCP_CCE_MAP"
  | .ccpFind _ _ => "CCP_FIND"
  | .ccpSearch _ _ => "CCP_SEARCH"
  | .ccpMark _ => "CCP_MARK"
  | .occClear _ => "OCC_CLEAR"
  | .occSet => "OCC_SET"
  | .occRead => "OCC_READ"
  | .genField _ => "GEN_FIELD"
  | .genEncode => "GEN_ENCODE"
  | .genClear => "GEN_CLEAR"
  | .laInit _ _ => "LA_INIT"
  | .laEval _ _ => "LA_EVAL"
  | .laRead _ _ _ => "LA_READ"
  | .rbsFit => "RBS_FIT"
  | .bmConfig => "BM_CONFIG"
  | .bmAlloc => "BM_ALLOC"
  | .bmRelease => "BM_RELEASE"
  | .bmRead => "BM_READ"

end Sys2Proof.Machine
end

