-- ==== Sys2Proof/Safety.lean ====
section
/-! DEFINITION. The terms the claims use: how a command may end, what it leaves unchanged, the
invariants of the state, and the quantities of the rules written out independently of the meanings. -/

namespace Sys2Proof.Machine

/-! ### How a command ends -/

/-- What a command never changes: the other port, the hold owner, the parameters, and the model's own
fields (`20_memory.md` R99). -/
structure KeptOutside (s t : State) : Prop where
  other     : ∀ p, p ≠ s.cur → t.port p = s.port p
  holdOwner : t.holdOwner = s.holdOwner
  cfg       : t.cfg = s.cfg
  cur       : t.cur = s.cur
  agenda    : t.agenda = s.agenda
  resp      : t.resp = s.resp
  pick      : t.pick = s.pick
  fair      : t.fair = s.fair

/-- The command of the served port completed with code `rc` and results `res` (R99): BUSY 0, DONE 1,
DONEp set; its ARG registers, PSEQ, HOLD and OVERRUN, the error latch and IRQ_ENABLE stand. Nothing
is said of the unit arrays. -/
structure CompletedWith (s t : State) (rc : RCode) (res : Vector Word 4) : Prop where
  port : t.port s.cur = { s.port s.cur with pend := none, done := true, rcode := rc, res := res }
  greg : t.greg = { s.greg with irqStatus := s.greg.irqStatus ||| doneBit s.cur }
  kept : KeptOutside s t

/-- The command of the served port was aborted with a fatal code (`60_exceptions.md` R405, R406). -/
structure AbortedWith (s t : State) (code : RCode) : Prop where
  port   : t.port s.cur =
    { s.port s.cur with pend := none, done := true, rcode := code, res := Vector.replicate 4 0 }
  units  : t.units = s.units
  fatal  : t.greg.fatal = true
  multi  : t.greg.multiFatal = (s.greg.multiFatal || s.greg.fatal)
  first  : s.greg.fatal = false → t.greg.errInfo = s.word ∧
    t.greg.errCode.toNat = code.toByte.toNat + s.word.toNat / 2 ^ 24 * 256 + s.cur.toNat * 65536
  later  : s.greg.fatal = true → t.greg.errInfo = s.greg.errInfo ∧ t.greg.errCode = s.greg.errCode
  count  : t.greg.errCount.toNat = min (s.greg.errCount.toNat + 1) 0xFFFFFFFF
  status : t.greg.irqStatus = s.greg.irqStatus ||| doneBit s.cur ||| 0b100
  enable : t.greg.irqEnable = s.greg.irqEnable
  kept   : KeptOutside s t

/-- Command `i` is aborted with `code` in state `s`. -/
def Aborts (i : Instr) (s : State) (code : RCode) : Prop :=
  ∃ t, exec i s = .next t ∧ AbortedWith s t code

/-! ### What a command leaves of the unit arrays -/

/-- Only HQ[c][d] may differ. -/
def OnlyPool (c : Nat) (d : Direction) (u v : Units) : Prop :=
  v = { u with hq := v.hq } ∧ ∀ c' d', (c', d') ≠ (c, d) → v.pool c' d' = u.pool c' d'

/-- Only LA[c][d] may differ. -/
def OnlyRec (c : Nat) (d : Direction) (u v : Units) : Prop :=
  v = { u with la := v.la } ∧ ∀ c' d', (c', d') ≠ (c, d) → v.laRec c' d' = u.laRec c' d'

/-- Only LAY[k] may differ. -/
def OnlyLayout (k : Nat) (u v : Units) : Prop :=
  v = { u with lay := v.lay } ∧ ∀ k', k' ≠ k → look v.lay k' = look u.lay k'

/-- Only the occupancy maps may differ. -/
def OnlyOcc (u v : Units) : Prop := v = { u with occ := v.occ }

/-- Only the staging table of port `p` may differ. -/
def OnlyGen (p : PortId) (u v : Units) : Prop := v = u.setGen p (v.gen p)

/-- Of pool P's due slots only that of id `i` may differ, and it is now `v`. -/
def DueOnly (P Q : Pool) (i : Nat) (v : Option Word) : Prop :=
  look Q.due i = v ∧ ∀ j, j ≠ i → look Q.due j = look P.due j

/-- The unit arrays a command may change at all, by unit (R111, R418). -/
def UnitsKept (i : Instr) (p : PortId) (u v : Units) : Prop :=
  match i with
  | .nop => v = u
  | .ctxRelease _ => v = { u with hq := v.hq, la := v.la }
  | .hqCreate d c => OnlyPool c d u v
  | .hqTakeAvail d c => OnlyPool c d u v
  | .hqMarkFb d c => OnlyPool c d u v
  | .hqFeedback d c => OnlyPool c d u v
  | .hqTakeRetx d c => OnlyPool c d u v
  | .hqResize d c => OnlyPool c d u v
  | .hqQuery _ _ => v = u
  | .hqStat _ _ => v = u
  | .ccpLayoutSet k => OnlyLayout k u v
  | .ccpLayoutDel k => OnlyLayout k u v
  | .ccpLayoutInfo _ => v = u
  | .ccpCceMap _ => v = u
  | .ccpFind mark _ => if mark then OnlyOcc u v else v = u
  | .ccpSearch mark _ => if mark then OnlyOcc u v else v = u
  | .ccpMark _ => OnlyOcc u v
  | .occClear _ => OnlyOcc u v
  | .occSet => OnlyOcc u v
  | .occRead => v = u
  | .genField _ => OnlyGen p u v
  | .genEncode => OnlyGen p u v
  | .genClear => OnlyGen p u v
  | .laInit d c => OnlyRec c d u v
  | .laEval d c => OnlyRec c d u v
  | .laRead _ _ _ => v = u
  | .rbsFit => v = u
  | .bmConfig => v = { u with bma := v.bma, bt := v.bt }
  | .bmAlloc => v = { u with bt := v.bt }
  | .bmRelease => v = { u with bt := v.bt }
  | .bmRead => v = u

/-- The result codes a decoded command may end with (`60_exceptions.md` R401, its "raised by"). -/
def codesOf (i : Instr) : List RCode :=
  match i with
  | .nop => [.ok]
  | .ctxRelease _ => [.ok, .badIndex]
  | .hqCreate _ _ => [.ok, .badIndex, .badCapacity]
  | .hqTakeAvail _ _ => [.ok, .exhausted, .badIndex, .notConfigured]
  | .hqMarkFb _ _ => [.ok, .badIndex, .notConfigured, .badId, .badState]
  | .hqFeedback _ _ => [.ok, .badIndex, .notConfigured, .badId, .badState]
  | .hqTakeRetx _ _ => [.ok, .empty, .badIndex, .notConfigured]
  | .hqResize _ _ => [.ok, .badIndex, .notConfigured, .invalidResize, .badCapacity]
  | .hqQuery _ _ => [.ok, .badIndex, .notConfigured, .badId]
  | .hqStat _ _ => [.ok, .badIndex, .notConfigured]
  | .ccpLayoutSet _ => [.ok, .badIndex, .badLayout]
  | .ccpLayoutDel _ => [.ok, .badIndex]
  | .ccpLayoutInfo _ => [.ok, .badIndex, .notConfigured]
  | .ccpCceMap _ => [.ok, .badIndex, .notConfigured, .badArg]
  | .ccpFind _ _ => [.ok, .noCandidate, .badIndex, .notConfigured, .badArg]
  | .ccpSearch _ _ => [.ok, .noCandidate, .badIndex, .notConfigured, .badArg]
  | .ccpMark _ => [.ok, .badIndex, .notConfigured, .badArg]
  | .occClear all => if all then [.ok] else [.ok, .badArg]
  | .occSet => [.ok, .badArg]
  | .occRead => [.ok, .badArg]
  | .genField _ => [.ok, .badIndex, .badArg]
  | .genEncode => [.ok, .badArg, .layoutUndefined, .payloadTooLong, .fieldMissing, .sizeMismatch]
  | .genClear => [.ok]
  | .laInit _ _ => [.ok, .badIndex, .badArg]
  | .laEval _ _ => [.ok, .badIndex, .notConfigured]
  | .laRead _ _ _ => [.ok, .badIndex, .notConfigured]
  | .rbsFit => [.ok, .notFit, .badArg]
  | .bmConfig => [.ok, .badArg]
  | .bmAlloc => [.ok, .noTrack, .notConfigured, .badArg]
  | .bmRelease => [.ok, .notConfigured, .badArg]
  | .bmRead => [.ok, .notConfigured, .badArg]

/-! ### Layouts and candidates, from the rules -/

/-- P, how many groups of six resource blocks a layout has (`42_cce_placer.md` R232). -/
def groupCount (l : Layout) : Nat := (List.range 45).countP (fun g => l.fmask.getLsbD g)

/-- n_cce = P · DUR (R232). -/
def cceCount (l : Layout) : Nat := groupCount l * l.dur.toNat

/-- symmask (R232). -/
def symbolMask (l : Layout) : BitVec 14 := BitVec.ofNat 14 ((2 ^ l.dur.toNat - 1) * 2 ^ l.start.toNat)

/-- `legal(...)` of R231. -/
def LegalLayout (numRb : Nat) (l : Layout) : Prop :=
  l.fmask ≠ 0 ∧ 1 ≤ l.dur.toNat ∧ l.dur.toNat ≤ 3 ∧ l.start.toNat + l.dur.toNat ≤ 14 ∧
  (l.il = true →
    ((l.dur.toNat ≤ 2 ∧ (l.bundle.toNat = 2 ∨ l.bundle.toNat = 6)) ∨
      (l.dur.toNat = 3 ∧ (l.bundle.toNat = 3 ∨ l.bundle.toNat = 6))) ∧
    (l.ilv.toNat = 2 ∨ l.ilv.toNat = 3 ∨ l.ilv.toNat = 6) ∧ l.shift.toNat ≤ 274 ∧
    6 * groupCount l * l.dur.toNat / l.bundle.toNat % l.ilv.toNat = 0) ∧
  ∀ g, g < 45 → l.fmask.getLsbD g = true → l.rbOffset.toNat + 6 * g + 5 < numRb

/-- A stored layout record: legal, with bundle size 6 when it is not interleaved (R232, R233). -/
def LayoutOk (numRb : Nat) (l : Layout) : Prop := LegalLayout numRb l ∧ (l.il = false → l.bundle = 6)

/-- first_cce(m) of R238. -/
def candidateFirst (l : Layout) (L M Y m : Nat) : Nat :=
  L * ((Y + m * cceCount l / (L * M)) % (cceCount l / L))

/-- free(k, b, first, L) of R239. -/
def CandidateFree (s : State) (b : Nat) (l : Layout) (first L : Nat) : Prop :=
  ∀ r ∈ candidateRbs s.cfg.cceMap l first L, s.units.mask b r &&& symbolMask l = 0

/-- At this level candidate `m` is the first free one (R240). -/
def LevelHit (s : State) (b : Nat) (l : Layout) (lvl M Y m : Nat) : Prop :=
  2 ^ lvl ≤ cceCount l ∧ m < M ∧ CandidateFree s b l (candidateFirst l (2 ^ lvl) M Y m) (2 ^ lvl) ∧
    ∀ k, k < m → ¬ CandidateFree s b l (candidateFirst l (2 ^ lvl) M Y k) (2 ^ lvl)

/-- The level has no candidate, or none that is free (R238, R240). -/
def LevelMiss (s : State) (b : Nat) (l : Layout) (lvl M Y : Nat) : Prop :=
  M = 0 ∨ cceCount l < 2 ^ lvl ∨
    ∀ k, k < M → ¬ CandidateFree s b l (candidateFirst l (2 ^ lvl) M Y k) (2 ^ lvl)

/-- How many candidates a level without a hit tests (R240). -/
def missTests (l : Layout) (lvl M : Nat) : Nat := if cceCount l < 2 ^ lvl then 0 else M

/-- `mark(k, b, first, L)` of R245: symmask is ORed into every touched resource block of beam `b`,
nothing else changes. -/
def Marked (map : CceMapParam) (u v : Units) (b : Nat) (l : Layout) (first L : Nat) : Prop :=
  OnlyOcc u v ∧ ∀ b' r, r < 65536 →
    v.mask b' r =
      if b' = b ∧ r ∈ candidateRbs map l first L then u.mask b' r ||| symbolMask l else u.mask b' r

/-- From `s` to `t` only commands that do not clear beam `b`, and changes that leave the unit arrays
alone (register accesses, grants, the other fields of the state): the stretch between two OCC_CLEAR
commands for beam `b` (R249). -/
inductive NoClearRun (b : Nat) (s : State) : State → Prop
  | start : NoClearRun b s s
  | command {u v : State} (i : Instr) (h : NoClearRun b s u) (he : exec i u = .next v)
      (hall : i ≠ .occClear true) (hone : i = .occClear false → u.opBeam ≠ b) : NoClearRun b s v
  | outside {u v : State} (h : NoClearRun b s u) (hu : v.units = u.units) : NoClearRun b s v

/-! ### The grant encoder, from the rules -/

/-- The variant condition of R294 on the staged FDRA. -/
def VariantTaken (fmt : GrantFormat) (mode : AddrMode) (fdra : GenSlot) : Prop :=
  fmt = .dlA ∧ (mode = .bcast ∨ mode = .ra) ∧ 1 ≤ fdra.wid.toNat ∧
    fdra.val.toNat % 2 ^ fdra.wid.toNat = 2 ^ fdra.wid.toNat - 1

/-- The fields the encoder walks and its VARIANT tag (R294, R296): the whole layout, or up to FDRA
and then GEN_VARIANT. -/
def Walked (variant fields : List FieldId) (taken : Prop) (seq : List FieldId) (tag : Bool) : Prop :=
  (tag = true ∧ taken ∧
    ∃ pre post, fields = pre ++ fdraId :: post ∧ fdraId ∉ pre ∧ seq = pre ++ fdraId :: variant) ∨
  (tag = false ∧ (¬ taken ∨ fdraId ∉ fields) ∧ seq = fields)

/-- The sum of the widths of a field list (R296). -/
def widthSum (slot : FieldId → GenSlot) : List FieldId → Nat
  | [] => 0
  | f :: rest => (slot f).wid.toNat + widthSum slot rest

/-- The concatenation of the masked fields, first field most significant (R296). -/
def fieldsValue (slot : FieldId → GenSlot) : List FieldId → Nat
  | [] => 0
  | f :: rest =>
    (slot f).val.toNat % 2 ^ (slot f).wid.toNat * 2 ^ widthSum slot rest + fieldsValue slot rest

/-- Field values read off a payload from bit `pos - 1` downwards (R298). -/
def readFields (wid : FieldId → Nat) (payload pos : Nat) : List FieldId → List (FieldId × Nat)
  | [] => []
  | f :: rest =>
    (f, payload / 2 ^ (pos - wid f) % 2 ^ wid f) :: readFields wid payload (pos - wid f) rest

/-- `decode(P, A, fmt, mode, wid)` of R298 over a layout: field values from bit `pos - 1` downwards,
and the branch of R294 on the FDRA value read (`branching`: the format and mode allow it). -/
def readPayload (wid : FieldId → Nat) (branching : Bool) (variant : List FieldId) (payload pos : Nat) :
    List FieldId → List (FieldId × Nat) × Bool
  | [] => ([], false)
  | f :: rest =>
    let v := payload / 2 ^ (pos - wid f) % 2 ^ wid f
    if f = fdraId ∧ branching = true ∧ 1 ≤ wid f ∧ v = 2 ^ wid f - 1 then
      ((f, v) :: readFields wid payload (pos - wid f) variant, true)
    else
      let r := readPayload wid branching variant payload (pos - wid f) rest
      ((f, v) :: r.1, r.2)

/-! ### The sizer, from the rules -/

/-- is235 (`45_rb_sizer.md` R360). -/
def Smooth235 (n : Nat) : Prop := ∃ a b c, n = 2 ^ a * 3 ^ b * 5 ^ c

/-- The conforming counts of a request (R360, R362). -/
def Conforming (tp : Bool) (lo hi n : Nat) : Prop := lo ≤ n ∧ n ≤ hi ∧ (tp = true → Smooth235 n)

/-! ### Invariants -/

/-- The pool invariant of `10_state.md` R52. -/
structure PoolWf (nmax : Nat) (P : Pool) : Prop where
  capPos  : 1 ≤ P.cap
  capMax  : P.cap ≤ nmax
  parts   : (P.av ++ P.fb ++ P.rt).Perm (List.range P.cap)
  dueFb   : ∀ e ∈ P.due, e.1 ∈ P.fb
  dueForm : rising P.due = true

/-- Every valid pool satisfies R52. -/
def PoolsOk (s : State) : Prop := ∀ e ∈ s.units.hq, PoolWf s.cfg.nmax e.2

/-- Every unit array is in its canonical form (log 23). -/
def ArraysCanonical (u : Units) : Prop :=
  rising u.hq = true ∧ canonical 0 u.occ = true ∧ rising u.lay = true ∧
  canonical slotClear u.gen0 = true ∧ canonical slotClear u.gen1 = true ∧ rising u.la = true ∧
  canonical btEmpty u.bt = true

/-- The error latch is consistent (`10_state.md` R35-R38): all of it is 0 while FATAL is 0, and while
FATAL is 1 it holds a fatal code and a count. -/
def LatchOk (g : Globals) : Prop :=
  (g.fatal = false → g.multiFatal = false ∧ g.errCode = 0 ∧ g.errInfo = 0 ∧ g.errCount = 0) ∧
  (g.fatal = true → 0x80 ≤ g.errCode.toNat % 256 ∧ g.errCode.toNat < 2 ^ 17 ∧ g.errCount ≠ 0)

/-- The ranges of a valid link-adaptation record (R58). -/
def LaRecOk (R : LaRec) : Prop :=
  R.mn.toNat ≤ R.mcs.toNat ∧ R.mcs.toNat ≤ R.mx.toNat ∧ R.rate.toNat ≤ 65536 ∧ 1 ≤ R.win.toNat ∧
  R.thrLo.toNat ≤ 65536 ∧ R.thrHi.toNat ≤ 65536

/-- Every valid link-adaptation record is in range. -/
def RecsOk (s : State) : Prop := ∀ e ∈ s.units.la, LaRecOk e.2

/-- The beam configuration is in range (R59). -/
def BmaOk (cfg : Config) (b : BmaCfg) : Prop :=
  1 ≤ b.bd.toNat ∧ 1 ≤ b.sz.toNat ∧ b.sz.toNat ≤ cfg.allocMax ∧ 1 ≤ b.nt.toNat ∧ b.nt.toNat ≤ cfg.numTracks

/-- A staging slot is in range (R56): a width of at most 32, and a slot not written is clear. -/
def SlotOk (g : GenSlot) : Prop := g.wid.toNat ≤ 32 ∧ (g.wr = false → g = slotClear)

/-- Every record is in range and every listed index exists (R51-R59, R111). -/
structure RecordsOk (s : State) : Prop where
  cfg  : s.cfg.wf = true
  hq   : ∀ e ∈ s.units.hq, e.1 < 2 * s.cfg.numCtx
  la   : ∀ e ∈ s.units.la, e.1 < 2 * s.cfg.numCtx
  lay  : ∀ e ∈ s.units.lay, e.1 < s.cfg.numLayouts ∧ LayoutOk s.cfg.numRb e.2
  occ  : ∀ e ∈ s.units.occ, e.1 / 65536 < s.cfg.numBeams ∧ e.1 % 65536 < s.cfg.numRb
  gen0 : ∀ e ∈ s.units.gen0, e.1 < 64 ∧ SlotOk e.2
  gen1 : ∀ e ∈ s.units.gen1, e.1 < 64 ∧ SlotOk e.2
  bma  : ∀ b, s.units.bma = some b → BmaOk s.cfg b
  bt   : ∀ e ∈ s.units.bt, e.1 / 65536 < s.cfg.numTracks ∧ e.1 % 65536 < s.cfg.allocMax

/-- No port is BUSY and DONE at once (R44), and the hold owner still requests the hold (R102, R103). -/
def PortsOk (s : State) : Prop :=
  (∀ p, ¬ ((s.port p).pend.isSome = true ∧ (s.port p).done = true)) ∧
  ∀ p, s.holdOwner = some p → (s.port p).holdReq = true

end Sys2Proof.Machine
end

