-- ==== Sys2Proof/Certificates/Slice0/Obligations.lean ====
section
/-! DEFINITION. The statements for the provers, from the numbered rules of `spec/`. `Aborts`,
`CompletedWith` and the frame predicates are those of `Sys2Proof/Safety.lean`. -/

open Sys2Proof Sys2Proof.Machine

/-! ### Encoding and decoding -/

/-- Command words written out from `30_encoding.md` R120 and R121 decode to the commands they stand
for, and four illegal words decode to none. -/
def Obligations.SampleWordsDecode : Prop :=
  decode ex1 0x00000000#32 = some .nop ∧
  decode ex1 0x01000003#32 = some (.ctxRelease 3) ∧
  decode ex1 0x12010007#32 = some (.hqMarkFb .ul 7) ∧
  decode ex1 0x24010005#32 = some (.ccpFind true 5) ∧
  decode ex1 0x28010000#32 = some (.occClear true) ∧
  decode ex1 0x30000004#32 = some (.genField 4) ∧
  decode ex1 0x4203FFFF#32 = some (.laRead .ul true 65535) ∧
  decode ex1 0x50000000#32 = some .rbsFit ∧
  decode ex1 0x63000000#32 = some .bmRead ∧
  decode ex1 0x00000001#32 = none ∧ decode ex1 0x10020000#32 = none ∧
  decode ex1 0x27000000#32 = none ∧ decode { ex1 with hasBma := false } 0x61000000#32 = none

/-- Decode and encode agree: every command this configuration can have is what its word decodes to, and
every word that decodes is the word of what it decodes to, which is well formed. -/
def Obligations.DecodeEncodeAgree : Prop :=
  (∀ (cfg : Config) (i : Instr), i.wfIn cfg = true → decode cfg (encode i) = some i) ∧
  ∀ (cfg : Config) (w : Word) (i : Instr),
    decode cfg w = some i → i.wfIn cfg = true ∧ encode i = w

/-- The decoding procedure of R132 over the opcode map of R121: a word that matches a row decodes to a
command of that row's mnemonic, with FLAGS and INDEX from its fields, unless the row's unit is absent;
a word that matches no row is illegal; no word matches two rows. -/
def Obligations.DecodeFollowsTheOpcodeMap : Prop :=
  ∀ (cfg : Config) (w : Word),
    (∀ row ∈ opcodeTable, w &&& row.mask = row.bits →
      let absent := (row.mnemonic = "RBS_FIT" ∧ cfg.hasRbs = false) ∨
        (row.mnemonic ∈ ["BM_CONFIG", "BM_ALLOC", "BM_RELEASE", "BM_READ"] ∧ cfg.hasBma = false)
      (absent → decode cfg w = none) ∧
      (¬ absent → ∃ i, decode cfg w = some i ∧ mnemonicOf i = row.mnemonic ∧
        i.flags = w.toNat / 65536 % 256 ∧ i.index = w.toNat % 65536)) ∧
    ((∀ row ∈ opcodeTable, w &&& row.mask ≠ row.bits) → decode cfg w = none) ∧
    ∀ row ∈ opcodeTable, ∀ row' ∈ opcodeTable,
      w &&& row.mask = row.bits → w &&& row'.mask = row'.bits → row = row'

/-- An illegal pending word, when its port's command step is taken, is aborted with ILLEGAL_CMD (R403).
The other port is not overdue (R464, log 27), so that the engine may make this move. -/
def Obligations.IllegalWordAborts : Prop :=
  ∀ (s : State) (p : PortId) (w : Word) (rest : List Turn),
    s.agenda = .engine (.command p) :: rest → (s.port p).pend = some w →
    (s.holdOwner = none ∨ s.holdOwner = some p) → overdue s p.other = false → decode s.cfg w = none →
    ∃ t, step s = .next t ∧
      AbortedWith { s with agenda := rest, cur := p, fair := fairAfter s p } t .illegalCmd

/-! ### The step -/

/-- A step runs the decoded command: at the engine's turn for a port that is BUSY and not excluded by the
hold, the other port not overdue (R464, log 27), or when that is the engine's only enabled move, step is
`exec` of the decoded pending word with the port as the served one, the turn consumed and the fairness record
kept; at its turn for a port whose other port is overdue, the engine runs that port's command instead; and a
word placed by `withFetchWord` is what the next step runs. -/
def Obligations.StepRunsTheDecodedCommand : Prop :=
  (∀ (s : State) (p : PortId) (w : Word) (i : Instr) (rest : List Turn),
    s.agenda = .engine (.command p) :: rest → (s.port p).pend = some w →
    (s.holdOwner = none ∨ s.holdOwner = some p) → overdue s p.other = false → decode s.cfg w = some i →
    step s = exec i { s with agenda := rest, cur := p, fair := fairAfter s p }) ∧
  (∀ (s : State) (m : EngineMove) (w : Word) (i : Instr) (rest : List Turn),
    s.agenda = .engine m :: rest → moveEnabled s m = true → overdue s m.port.other = true →
    (s.port m.port.other).pend = some w → decode s.cfg w = some i →
    step s = exec i { s with agenda := rest, cur := m.port.other, fair := fairAfter s m.port.other }) ∧
  (∀ (s : State) (p : PortId) (w : Word) (i : Instr),
    s.agenda = [] → (s.port p).pend = some w → (s.holdOwner = none ∨ s.holdOwner = some p) →
    (∀ m, moveEnabled s m = true → m = .command p) → decode s.cfg w = some i →
    step s = exec i { s with cur := p, fair := fairAfter s p }) ∧
  ∀ (s : State) (n w : Nat) (i : Instr),
    decode s.cfg (BitVec.ofNat 32 (w % 2 ^ n)) = some i →
    let p := fetchPort s
    let u := s.setPort p { s.port p with pend := some (BitVec.ofNat 32 (w % 2 ^ n)) }
    step (s.withFetchWord n w) = exec i { u with cur := p, fair := fairAfter u p }

/-- The block never stops: every command and every step answers a next state (R406, R465). -/
def Obligations.EveryStepAnswers : Prop :=
  (∀ (i : Instr) (s : State), ∃ t, exec i s = .next t) ∧ ∀ s : State, ∃ t, step s = .next t

/-- The engine left to itself makes one of its enabled moves, the other port not overdue at it (R464,
log 27), or stands still when it has none; a command move is enabled exactly when the port is BUSY and the
hold is free or the port's own, a grant exactly when the hold is free and the port requests it (R99, R101,
R102). -/
def Obligations.EngineTakesAnEnabledMove : Prop :=
  (∀ s : State, s.agenda = [] →
    (∃ (m : EngineMove) (n : Nat), moveEnabled s m = true ∧ overdue s m.port.other = false ∧
      step s = runMove m { s with pick := n }) ∨
    ((∀ m, moveEnabled s m = false) ∧ step s = .next s)) ∧
  ∀ (s : State) (p : PortId),
    (moveEnabled s (.command p) = true ↔
      (s.port p).pend.isSome = true ∧ (s.holdOwner = none ∨ s.holdOwner = some p)) ∧
    (moveEnabled s (.grant p) = true ↔ (s.port p).holdReq = true ∧ s.holdOwner = none)

/-- A grant step, the other port not overdue (R464, log 27), gives the free hold to a requesting port and
changes nothing else but the fairness record (R102; that the request bit stays 1 is read from the rules,
log 14). A HOLD write by an idle port stores its request bit,
and a 0 written by the owner frees the hold at the same instant (R103, R168). While port `p` owns the hold,
no engine step touches the other port's registers or the ownership (R102). -/
def Obligations.HoldGrantReleaseAndExclusion : Prop :=
  ((∀ (s : State) (p : PortId) (rest : List Turn),
    s.agenda = .engine (.grant p) :: rest → s.holdOwner = none → (s.port p).holdReq = true →
    overdue s p.other = false →
    step s = .next { s with agenda := rest, holdOwner := some p, fair := fairAfter s p }) ∧
  ∀ (s : State) (host p : PortId) (v : Word) (rest : List Turn),
    s.agenda = .access host (.write .word (BitVec.ofNat 12 (portBase p + 0x08)) v) :: rest →
    (s.port p).pend = none →
    step s = .next { s.setPort p { s.port p with holdReq := v.getLsbD 0 } with
      holdOwner := if v.getLsbD 0 = false ∧ s.holdOwner = some p then none else s.holdOwner
      agenda := rest
      resp := some (host, .done) }) ∧
  ∀ (s t : State) (p q : PortId), s.holdOwner = some p → q ≠ p →
    (s.agenda = [] ∨ ∃ m rest, s.agenda = .engine m :: rest) → step s = .next t →
    t.port q = s.port q ∧ t.holdOwner = some p

/-! ### Reset -/

/-- The reset values of `10_state.md` R62, for every configuration: every host-readable register, the
pending latches, the hold owner, every unit array and the interrupt output. -/
def Obligations.ResetValues : Prop :=
  ∀ cfg : Config,
    let s := State.resetOf cfg
    s.cfg = cfg ∧
    readReg s 0x000 = 0x4850514D ∧ readReg s 0x004 = 1 ∧
    (∀ off ∈ [0x018, 0x01C, 0x020, 0x024, 0x028, 0x02C, 0x030, 0x034], readReg s off = 0) ∧
    (∀ p : PortId, (∀ k, k < 16 → readReg s (portBase p + 4 * k) = 0) ∧ (s.port p).pend = none) ∧
    (cfg.wf = true →
      (readReg s 0x008).toNat = (cfg.numCtx - 1) + cfg.nmax * 2 ^ 16 ∧
      (readReg s 0x00C).toNat = (cfg.numLayouts - 1) + (cfg.numBeams - 1) * 2 ^ 16 +
        (if cfg.hasBma then cfg.numTracks else 0) * 2 ^ 24 ∧
      (readReg s 0x010).toNat = cfg.numRb + (if cfg.hasBma then cfg.allocMax else 0) * 2 ^ 16 ∧
      (readReg s 0x014).toNat = (if cfg.hasRbs then 1 else 0) + (if cfg.hasBma then 2 else 0) +
        64 * 2 ^ 8 + 64 * 2 ^ 16 + 14 * 2 ^ 24) ∧
    s.holdOwner = none ∧
    (∀ c d, s.units.pool c d = none ∧ s.units.laRec c d = none) ∧
    (∀ b r, s.units.mask b r = 0) ∧ (∀ k, look s.units.lay k = none) ∧
    (∀ p f, s.units.slot p f = { val := 0, wid := 0, wr := false }) ∧
    s.units.bma = none ∧ (∀ t i, s.units.beam t i = 0xFFFF) ∧ s.irq = false

/-- A write of CTRL with bit 0 set, and the hardware reset, put the whole block into its reset state and
discard what is pending; a CTRL write with bit 0 clear does nothing (R162, R451). The turns to come, the
response, the choice counter and the fairness record are the model's own fields (logs 2, 3, 11, 27). -/
def Obligations.SoftAndHardwareReset : Prop :=
  (∀ (s : State) (host : PortId) (v : Word) (rest : List Turn),
    s.agenda = .access host (.write .word 0x018 v) :: rest →
    step s = .next
      (if v.getLsbD 0 then
        { State.resetOf s.cfg with
          agenda := rest, resp := some (host, .done), pick := s.pick, fair := s.fair }
      else { s with agenda := rest, resp := some (host, .done) })) ∧
  ∀ (s : State) (rest : List Turn), s.agenda = .hardReset :: rest →
    step s = .next { State.resetOf s.cfg with
      agenda := rest, resp := s.resp, pick := s.pick, fair := s.fair }

/-- The reset state of every well-formed configuration satisfies every invariant stated below. -/
def Obligations.ResetMeetsTheInvariants : Prop :=
  ∀ cfg : Config, cfg.wf = true →
    PoolsOk (State.resetOf cfg) ∧ ArraysCanonical (State.resetOf cfg).units ∧
    LatchOk (State.resetOf cfg).greg ∧ RecsOk (State.resetOf cfg) ∧ RecordsOk (State.resetOf cfg) ∧
    PortsOk (State.resetOf cfg)

/-! ### The register window -/

/-- An access that is not 32 bits wide or not at a multiple of 4 gets a bus error and has no effect on any
state (R93, R413). No register read has a side effect (R95). An aligned read of a reserved offset returns 0, and
a write to it, or to a read-only register, is ignored (R94, R95). The response is the field `resp` (log 11). -/
def Obligations.WindowAccesses : Prop :=
  (∀ (s : State) (host : PortId) (wd : AccessWidth) (off : BitVec 12) (v : Word) (rest : List Turn),
    (wd ≠ .word ∨ off.toNat % 4 ≠ 0) →
    (s.agenda = .access host (.read wd off) :: rest ∨ s.agenda = .access host (.write wd off v) :: rest) →
    step s = .next { s with agenda := rest, resp := some (host, .error) }) ∧
  (∀ (s : State) (host : PortId) (off : BitVec 12) (rest : List Turn), off.toNat % 4 = 0 →
    s.agenda = .access host (.read .word off) :: rest →
    step s = .next { s with agenda := rest, resp := some (host, .data (readReg s off.toNat)) }) ∧
  (∀ (s : State) (off : Nat), (0x038 ≤ off ∧ off < 0x100) ∨ (0x140 ≤ off ∧ off < 0x200) ∨
    (0x240 ≤ off ∧ off < 0x1000) → readReg s off = 0) ∧
  ∀ (s : State) (host : PortId) (off : BitVec 12) (v : Word) (rest : List Turn), off.toNat % 4 = 0 →
    ((0x038 ≤ off.toNat ∧ off.toNat < 0x100) ∨ (0x140 ≤ off.toNat ∧ off.toNat < 0x200) ∨
      0x240 ≤ off.toNat ∨ off.toNat < 0x018 ∨ (0x01C ≤ off.toNat ∧ off.toNat < 0x02C) ∨
      ∃ p, off.toNat = portBase p + 0x0C ∨
        (portBase p + 0x30 ≤ off.toNat ∧ off.toNat < portBase p + 0x40)) →
    s.agenda = .access host (.write .word off v) :: rest →
    step s = .next { s with agenda := rest, resp := some (host, .done) }

/-- What the registers read (`10_state.md` R31-R40, R44-R48): the constants, the status bits put
together, and the stored values. The capability fields need parameters in range. -/
def Obligations.RegisterReads : Prop :=
  ∀ s : State,
    readReg s 0x000 = 0x4850514D ∧ readReg s 0x004 = 1 ∧ readReg s 0x018 = 0 ∧ readReg s 0x02C = 0 ∧
    (s.cfg.wf = true →
      (readReg s 0x008).toNat = (s.cfg.numCtx - 1) + s.cfg.nmax * 2 ^ 16 ∧
      (readReg s 0x00C).toNat = (s.cfg.numLayouts - 1) + (s.cfg.numBeams - 1) * 2 ^ 16 +
        (if s.cfg.hasBma then s.cfg.numTracks else 0) * 2 ^ 24 ∧
      (readReg s 0x010).toNat = s.cfg.numRb + (if s.cfg.hasBma then s.cfg.allocMax else 0) * 2 ^ 16 ∧
      (readReg s 0x014).toNat = (if s.cfg.hasRbs then 1 else 0) + (if s.cfg.hasBma then 2 else 0) +
        64 * 2 ^ 8 + 64 * 2 ^ 16 + 14 * 2 ^ 24) ∧
    (readReg s 0x01C).toNat = s.greg.fatal.toNat + 2 * s.greg.multiFatal.toNat +
      (if (s.port .p0).pend.isSome ∨ (s.port .p1).pend.isSome then 4 else 0) +
      16 * (if s.holdOwner = some .p0 then 1 else if s.holdOwner = some .p1 then 2 else 0) ∧
    readReg s 0x020 = s.greg.errCode ∧ readReg s 0x024 = s.greg.errInfo ∧
    readReg s 0x028 = s.greg.errCount ∧ (readReg s 0x030).toNat = s.greg.irqStatus.toNat ∧
    (readReg s 0x034).toNat = s.greg.irqEnable.toNat ∧
    (s.irq = true ↔ ∃ j, j < 3 ∧ s.greg.irqStatus.getLsbD j = true ∧ s.greg.irqEnable.getLsbD j = true) ∧
    ∀ p : PortId,
      readReg s (portBase p) = 0 ∧
      (readReg s (portBase p + 0x04)).toNat = (s.port p).pend.isSome.toNat + 2 * (s.port p).done.toNat +
        4 * (s.port p).overrun.toNat + (if s.holdOwner = some p then 8 else 0) +
        256 * (s.port p).rcode.toByte.toNat ∧
      (readReg s (portBase p + 0x08)).toNat = (s.port p).holdReq.toNat ∧
      readReg s (portBase p + 0x0C) = (s.port p).pseq ∧
      (∀ i : Fin 8, readReg s (portBase p + 0x10 + 4 * i) = (s.port p).args.get i) ∧
      ∀ i : Fin 4, readReg s (portBase p + 0x30 + 4 * i) = (s.port p).res.get i

/-- Command acceptance (R98): a CMD write to an idle port; and RCODE and the RES registers keep their
values as long as a command of the port is pending (R105). -/
def Obligations.CommandAcceptance : Prop :=
  (∀ (s : State) (host p : PortId) (w : Word) (rest : List Turn),
    s.agenda = .access host (.write .word (BitVec.ofNat 12 (portBase p)) w) :: rest →
    (s.port p).pend = none →
    ∃ t, step s = .next t ∧
      t.port p = { s.port p with pend := some w, done := false, pseq := (s.port p).pseq + 1 } ∧
      (∀ q, q ≠ p → t.port q = s.port q) ∧ t.greg = s.greg ∧ t.units = s.units ∧
      t.holdOwner = s.holdOwner ∧ t.cfg = s.cfg ∧ t.agenda = rest ∧ t.resp = some (host, .done)) ∧
  ∀ (s t : State) (p : PortId), step s = .next t → (s.port p).pend.isSome = true →
    (t.port p).pend.isSome = true →
    (t.port p).rcode = (s.port p).rcode ∧ (t.port p).res = (s.port p).res

/-- Writes to a port's ARG registers, CMD and HOLD: while the port is idle an ARG write replaces the whole
register (R47); while it is BUSY each of the three is dropped and sets OVERRUN, without a bus error (R104). -/
def Obligations.ArgumentWritesAndDrops : Prop :=
  (∀ (s : State) (host p : PortId) (i : Fin 8) (v : Word) (rest : List Turn),
    s.agenda = .access host (.write .word (BitVec.ofNat 12 (portBase p + 0x10 + 4 * i)) v) :: rest →
    (s.port p).pend = none →
    step s = .next { s.setPort p { s.port p with args := (s.port p).args.set i v } with
      agenda := rest, resp := some (host, .done) }) ∧
  ∀ (s : State) (host p : PortId) (o : Nat) (v : Word) (rest : List Turn),
    (o = 0 ∨ o = 0x08 ∨ ∃ i : Fin 8, o = 0x10 + 4 * i) →
    s.agenda = .access host (.write .word (BitVec.ofNat 12 (portBase p + o)) v) :: rest →
    (s.port p).pend.isSome = true →
    step s = .next { s.setPort p { s.port p with overrun := true } with
      agenda := rest, resp := some (host, .done) }

/-- Error clear (R164), interrupt acknowledge and enable (R165, R166), and overrun clear (R167, R44), at
any time, BUSY or not; nothing else changes. -/
def Obligations.StatusWrites : Prop :=
  ∀ (s : State) (host : PortId) (v : Word) (rest : List Turn),
    (s.agenda = .access host (.write .word 0x02C v) :: rest →
      step s = .next { s with
        greg := if v.getLsbD 0 then
          { s.greg with fatal := false, multiFatal := false, errCode := 0, errInfo := 0, errCount := 0 }
          else s.greg
        agenda := rest, resp := some (host, .done) }) ∧
    (s.agenda = .access host (.write .word 0x030 v) :: rest →
      ∃ st : BitVec 3, step s = .next { s with
        greg := { s.greg with irqStatus := st }, agenda := rest, resp := some (host, .done) } ∧
        ∀ j, j < 3 → st.getLsbD j = (s.greg.irqStatus.getLsbD j && !v.getLsbD j)) ∧
    (s.agenda = .access host (.write .word 0x034 v) :: rest →
      ∃ en : BitVec 3, step s = .next { s with
        greg := { s.greg with irqEnable := en }, agenda := rest, resp := some (host, .done) } ∧
        en.toNat = v.toNat % 8) ∧
    ∀ p : PortId, s.agenda = .access host (.write .word (BitVec.ofNat 12 (portBase p + 4)) v) :: rest →
      step s = .next { s.setPort p { s.port p with overrun := (s.port p).overrun && !v.getLsbD 2 } with
        agenda := rest, resp := some (host, .done) }

/-- The argument fields of R126, as numbers made of the listed bits (R125). -/
def Obligations.ArgumentFields : Prop :=
  ∀ s : State,
    let a (i : Fin 8) : Nat := ((s.port s.cur).args.get i).toNat
    (s.opCap = a 0 % 2 ^ 8 ∧ s.opId = a 0 % 2 ^ 8 ∧ s.opDue.toNat = a 1 ∧
      s.opAck = decide (a 0 / 2 ^ 8 % 2 = 1)) ∧
    (s.opLayout.fmask.toNat = a 1 % 2 ^ 13 * 2 ^ 32 + a 0 ∧ s.opLayout.dur.toNat = a 2 % 2 ^ 2 ∧
      s.opLayout.start.toNat = a 2 / 2 ^ 4 % 2 ^ 4 ∧ s.opLayout.il = decide (a 2 / 2 ^ 8 % 2 = 1) ∧
      s.opLayout.bundle.toNat = a 2 / 2 ^ 9 % 2 ^ 3 ∧ s.opLayout.ilv.toNat = a 2 / 2 ^ 12 % 2 ^ 3 ∧
      s.opLayout.shift.toNat = a 2 / 2 ^ 16 % 2 ^ 9 ∧ s.opLayout.rbOffset.toNat = a 3 % 2 ^ 16) ∧
    (s.opCce = a 0 % 2 ^ 16 ∧ s.opBeam = a 0 % 2 ^ 8 ∧ s.opLvl = a 1 % 2 ^ 3 ∧
      s.opM = a 1 / 2 ^ 4 % 2 ^ 4 ∧ (∀ v, v < 5 → s.opMLevel v = a 1 / 2 ^ (4 * v) % 2 ^ 4) ∧
      s.opY = a 2 ∧ s.opCq = a 3 % 2 ^ 9 ∧ s.opFirst = a 2 % 2 ^ 16) ∧
    (s.opRb = a 1 % 2 ^ 16 ∧ s.opRbCount = a 1 / 2 ^ 16 ∧ s.opSymMask.toNat = a 2 % 2 ^ 14) ∧
    (s.opValue.toNat = a 0 ∧ s.opWidth.toNat = a 1 % 2 ^ 6 ∧ s.opAlign = a 1 % 2 ^ 7 ∧
      s.opFmt = [GrantFormat.dlA, .dlB, .ulA, .ulB].getD (a 0 % 4) .ulB ∧
      s.opMode = [AddrMode.bcast, .ra, .paging, .temp, .ded][a 0 / 2 ^ 4 % 2 ^ 3]?) ∧
    (s.opMcs0.toNat = a 0 % 2 ^ 8 ∧ s.opMin.toNat = a 0 / 2 ^ 8 % 2 ^ 8 ∧
      s.opMax.toNat = a 0 / 2 ^ 16 % 2 ^ 8 ∧ s.opThrLo.toNat = a 1 % 2 ^ 17 ∧
      s.opThrHi.toNat = a 2 % 2 ^ 17 ∧ s.opWin.toNat = a 3 % 2 ^ 10 ∧ s.opNow0.toNat = a 4 % 2 ^ 10 ∧
      s.opTx0.toNat = a 5 ∧ s.opRetx0.toNat = a 6 ∧ s.opRate0.toNat = a 7 % 2 ^ 17 ∧
      s.opNow.toNat = a 0 % 2 ^ 10 ∧ s.opTx.toNat = a 1 ∧ s.opRetx.toNat = a 2) ∧
    (s.opTarget = a 0 ∧ s.opMinRb = a 1 % 2 ^ 16 ∧ s.opMaxRb = a 1 / 2 ^ 16 ∧ s.opCpar.toNat = a 2 ∧
      s.opTp = decide (a 3 % 2 = 1)) ∧
    s.opBd.toNat = a 0 % 2 ^ 16 ∧ s.opAs.toNat = a 0 / 2 ^ 16 ∧ s.opNt.toNat = a 1 % 2 ^ 8 ∧
      s.opFrame = a 0 % 2 ^ 10 ∧ s.opSlot = a 0 / 2 ^ 16 ∧ s.opUbeam.toNat = a 1 % 2 ^ 16 ∧
      s.opSpf = a 2 % 2 ^ 16 ∧ s.opRelTrack = a 3 % 2 ^ 8 ∧ s.opWasNew = decide (a 3 / 2 ^ 8 % 2 = 1) ∧
      s.opReadTrack = a 0 % 2 ^ 8 ∧ s.opIdx = a 1 % 2 ^ 16

/-! ### Rules over all commands -/

/-- What every completion does and does not touch (R99, R47, R408): the served port is idle and DONE with
its ARG, PSEQ, HOLD and OVERRUN as they were; DONEp is set; IRQ_ENABLE, the other port, the hold and the
parameters stand; and of the unit arrays only those of the command's unit may differ. -/
def Obligations.CommandFrame : Prop :=
  ∀ (i : Instr) (s t : State), exec i s = .next t →
    (t.port s.cur).pend = none ∧ (t.port s.cur).done = true ∧
    (t.port s.cur).args = (s.port s.cur).args ∧ (t.port s.cur).pseq = (s.port s.cur).pseq ∧
    (t.port s.cur).holdReq = (s.port s.cur).holdReq ∧ (t.port s.cur).overrun = (s.port s.cur).overrun ∧
    t.greg.irqStatus &&& 0b011 = (s.greg.irqStatus ||| doneBit s.cur) &&& 0b011 ∧
    t.greg.irqEnable = s.greg.irqEnable ∧ KeptOutside s t ∧ UnitsKept i s.cur s.units t.units

/-- The result classes (R400, R402, R405): a command that ends with a fatal code is aborted precisely, one
that ends with a soft code other than OK changes no unit array, and neither a soft code nor OK touches the
error latch or any interrupt bit but DONEp. -/
def Obligations.ResultClasses : Prop :=
  ∀ (i : Instr) (s t : State), exec i s = .next t →
    (0x80 ≤ (t.port s.cur).rcode.toByte.toNat → AbortedWith s t (t.port s.cur).rcode) ∧
    ((t.port s.cur).rcode.toByte.toNat < 0x80 →
      t.greg = { s.greg with irqStatus := s.greg.irqStatus ||| doneBit s.cur } ∧
      ((t.port s.cur).rcode.toByte ≠ 0 → t.units = s.units))

/-- A command ends only with the result codes that R401 lists as raised by it. -/
def Obligations.OnlyDocumentedCodes : Prop :=
  ∀ (i : Instr) (s t : State), exec i s = .next t → (t.port s.cur).rcode ∈ codesOf i

/-! ### Invariants every step keeps -/

/-- Conservation (R52, R190): the three queues of every pool partition its ids, and a recorded due slot
belongs to an id awaiting feedback. -/
def Obligations.StepKeepsPools : Prop :=
  ∀ s t : State, PoolsOk s → step s = .next t → PoolsOk t

/-- The unit arrays keep their canonical form, so that equal arrays are equal data (log 23; a property of
the model's representation). -/
def Obligations.StepKeepsArraysCanonical : Prop :=
  ∀ s t : State, ArraysCanonical s.units → step s = .next t → ArraysCanonical t.units

/-- The error latch stays consistent (R35-R38, R164, R406). -/
def Obligations.StepKeepsTheErrorLatch : Prop :=
  ∀ s t : State, LatchOk s.greg → step s = .next t → LatchOk t.greg

/-- Link-adaptation records stay in range (R58, R332): the rate in 0..65536, the index between its
configured minimum and maximum. -/
def Obligations.StepKeepsLinkRecords : Prop :=
  ∀ s t : State, RecsOk s → step s = .next t → RecsOk t

/-- Every record and every index of the unit arrays stays in range: layouts legal, beam configuration and
staging slots in range, no entry outside the configured arrays (R51-R59, R111, R237). -/
def Obligations.StepKeepsRecords : Prop :=
  ∀ s t : State, RecordsOk s → step s = .next t → RecordsOk t

/-- No port is BUSY and DONE at once, and the hold owner's request bit stays 1 (R44, R102, R103). -/
def Obligations.StepKeepsPortsAndHold : Prop :=
  ∀ s t : State, PortsOk s → step s = .next t → PortsOk t

/-! ### System commands -/

/-- NOP (R161) completes with OK and zero results and changes no unit array; CTX_RELEASE (R163) makes both
pools and both link-adaptation records of its context invalid and touches nothing else. -/
def Obligations.NopAndCtxReleaseResults : Prop :=
  (∀ s : State, ∃ t, exec .nop s = .next t ∧ CompletedWith s t .ok (results 0) ∧ t.units = s.units) ∧
  ∀ (s : State) (c : Nat),
    (s.cfg.numCtx ≤ c → Aborts (.ctxRelease c) s .badIndex) ∧
    (c < s.cfg.numCtx → ∃ t, exec (.ctxRelease c) s = .next t ∧ CompletedWith s t .ok (results 0) ∧
      t.units = { s.units with hq := t.units.hq, la := t.units.la } ∧
      ∀ c' d, t.units.pool c' d = (if c' = c then none else s.units.pool c' d) ∧
        t.units.laRec c' d = (if c' = c then none else s.units.laRec c' d))

/-! ### The HARQ queue manager -/

/-- HQ_CREATE (R182): the pool is fresh whatever it was before. -/
def Obligations.HqCreateResult : Prop :=
  ∀ (s : State) (d : Direction) (c : Nat),
    (s.cfg.numCtx ≤ c → Aborts (.hqCreate d c) s .badIndex) ∧
    (c < s.cfg.numCtx → (s.opCap = 0 ∨ s.cfg.nmax < s.opCap) → Aborts (.hqCreate d c) s .badCapacity) ∧
    (c < s.cfg.numCtx → 1 ≤ s.opCap → s.opCap ≤ s.cfg.nmax →
      ∃ t, exec (.hqCreate d c) s = .next t ∧ CompletedWith s t .ok (results 0) ∧
        OnlyPool c d s.units t.units ∧
        ∃ Q, t.units.pool c d = some Q ∧ Q.cap = s.opCap ∧ Q.av = List.range s.opCap ∧ Q.fb = [] ∧
          Q.rt = [] ∧ ∀ j, look Q.due j = none)

/-- HQ_TAKE_AVAIL (R183): the head of AV goes to the tail of FB with its due slot unset; an empty AV is
the soft result EXHAUSTED. -/
def Obligations.HqTakeAvailResult : Prop :=
  ∀ (s : State) (d : Direction) (c : Nat),
    (s.cfg.numCtx ≤ c → Aborts (.hqTakeAvail d c) s .badIndex) ∧
    (c < s.cfg.numCtx → s.units.pool c d = none → Aborts (.hqTakeAvail d c) s .notConfigured) ∧
    ∀ P, c < s.cfg.numCtx → s.units.pool c d = some P →
      (∀ i q, P.av = i :: q → ∃ t, exec (.hqTakeAvail d c) s = .next t ∧
        CompletedWith s t .ok (results i) ∧ OnlyPool c d s.units t.units ∧
        ∃ Q, t.units.pool c d = some Q ∧ Q.cap = P.cap ∧ Q.av = q ∧ Q.fb = P.fb ++ [i] ∧ Q.rt = P.rt ∧
          DueOnly P Q i none) ∧
      (P.av = [] → ∃ t, exec (.hqTakeAvail d c) s = .next t ∧
        CompletedWith s t .exhausted (results 0xFFFFFFFF) ∧ t.units = s.units)

/-- HQ_MARK_FB (R184) on a pool that satisfies R52: an AV id, wherever it stands, moves to the tail of FB;
an FB id stays; either way its due slot is recorded; an RT id is BAD_STATE. -/
def Obligations.HqMarkFbResult : Prop :=
  ∀ (s : State) (d : Direction) (c : Nat),
    (s.cfg.numCtx ≤ c → Aborts (.hqMarkFb d c) s .badIndex) ∧
    (c < s.cfg.numCtx → s.units.pool c d = none → Aborts (.hqMarkFb d c) s .notConfigured) ∧
    ∀ P, c < s.cfg.numCtx → s.units.pool c d = some P → PoolWf s.cfg.nmax P →
      (P.cap ≤ s.opId → Aborts (.hqMarkFb d c) s .badId) ∧
      (s.opId ∈ P.rt → Aborts (.hqMarkFb d c) s .badState) ∧
      (s.opId ∈ P.av → ∃ t, exec (.hqMarkFb d c) s = .next t ∧ CompletedWith s t .ok (results 1) ∧
        OnlyPool c d s.units t.units ∧
        ∃ Q, t.units.pool c d = some Q ∧ Q.cap = P.cap ∧ Q.av = P.av.filter (· ≠ s.opId) ∧
          Q.fb = P.fb ++ [s.opId] ∧ Q.rt = P.rt ∧ DueOnly P Q s.opId (some s.opDue)) ∧
      (s.opId ∈ P.fb → ∃ t, exec (.hqMarkFb d c) s = .next t ∧ CompletedWith s t .ok (results 0) ∧
        OnlyPool c d s.units t.units ∧
        ∃ Q, t.units.pool c d = some Q ∧ Q.cap = P.cap ∧ Q.av = P.av ∧ Q.fb = P.fb ∧ Q.rt = P.rt ∧
          DueOnly P Q s.opId (some s.opDue))

/-- HQ_FEEDBACK (R185) on a pool that satisfies R52: an FB id goes to the tail of AV on a positive and of
RT on a negative acknowledgment, its due slot unset; an id in AV or RT is BAD_STATE. -/
def Obligations.HqFeedbackResult : Prop :=
  ∀ (s : State) (d : Direction) (c : Nat),
    (s.cfg.numCtx ≤ c → Aborts (.hqFeedback d c) s .badIndex) ∧
    (c < s.cfg.numCtx → s.units.pool c d = none → Aborts (.hqFeedback d c) s .notConfigured) ∧
    ∀ P, c < s.cfg.numCtx → s.units.pool c d = some P → PoolWf s.cfg.nmax P →
      (P.cap ≤ s.opId → Aborts (.hqFeedback d c) s .badId) ∧
      (s.opId ∈ P.av ∨ s.opId ∈ P.rt → Aborts (.hqFeedback d c) s .badState) ∧
      (s.opId ∈ P.fb → ∃ t, exec (.hqFeedback d c) s = .next t ∧
        CompletedWith s t .ok (results (if s.opAck then 0 else 2)) ∧ OnlyPool c d s.units t.units ∧
        ∃ Q, t.units.pool c d = some Q ∧ Q.cap = P.cap ∧ Q.fb = P.fb.filter (· ≠ s.opId) ∧
          Q.av = (if s.opAck then P.av ++ [s.opId] else P.av) ∧
          Q.rt = (if s.opAck then P.rt else P.rt ++ [s.opId]) ∧ DueOnly P Q s.opId none)

/-- HQ_TAKE_RETX (R186): the head of RT goes to the tail of FB with its due slot unset; an empty RT is the
soft result EMPTY. -/
def Obligations.HqTakeRetxResult : Prop :=
  ∀ (s : State) (d : Direction) (c : Nat),
    (s.cfg.numCtx ≤ c → Aborts (.hqTakeRetx d c) s .badIndex) ∧
    (c < s.cfg.numCtx → s.units.pool c d = none → Aborts (.hqTakeRetx d c) s .notConfigured) ∧
    ∀ P, c < s.cfg.numCtx → s.units.pool c d = some P →
      (∀ i q, P.rt = i :: q → ∃ t, exec (.hqTakeRetx d c) s = .next t ∧
        CompletedWith s t .ok (results i) ∧ OnlyPool c d s.units t.units ∧
        ∃ Q, t.units.pool c d = some Q ∧ Q.cap = P.cap ∧ Q.av = P.av ∧ Q.fb = P.fb ++ [i] ∧ Q.rt = q ∧
          DueOnly P Q i none) ∧
      (P.rt = [] → ∃ t, exec (.hqTakeRetx d c) s = .next t ∧
        CompletedWith s t .empty (results 0xFFFFFFFF) ∧ t.units = s.units)

/-- HQ_RESIZE (R187): only growth; the new ids follow AV in ascending order with no due slot; a smaller
capacity is INVALID_RESIZE, tested before BAD_CAPACITY. -/
def Obligations.HqResizeResult : Prop :=
  ∀ (s : State) (d : Direction) (c : Nat),
    (s.cfg.numCtx ≤ c → Aborts (.hqResize d c) s .badIndex) ∧
    (c < s.cfg.numCtx → s.units.pool c d = none → Aborts (.hqResize d c) s .notConfigured) ∧
    ∀ P, c < s.cfg.numCtx → s.units.pool c d = some P →
      (s.opCap < P.cap → Aborts (.hqResize d c) s .invalidResize) ∧
      (P.cap ≤ s.opCap → s.cfg.nmax < s.opCap → Aborts (.hqResize d c) s .badCapacity) ∧
      (P.cap ≤ s.opCap → s.opCap ≤ s.cfg.nmax → ∃ t, exec (.hqResize d c) s = .next t ∧
        CompletedWith s t .ok (results s.opCap) ∧ OnlyPool c d s.units t.units ∧
        ∃ Q, t.units.pool c d = some Q ∧ Q.cap = s.opCap ∧
          Q.av = P.av ++ (List.range s.opCap).filter (fun j => P.cap ≤ j) ∧ Q.fb = P.fb ∧ Q.rt = P.rt ∧
          ∀ j, look Q.due j = if P.cap ≤ j ∧ j < s.opCap then none else look P.due j)

/-- HQ_QUERY (R188) on a pool that satisfies R52: for the id at position `k` of its queue, the queue code,
the neighbours (0xFF for none), the due slot and the position. -/
def Obligations.HqQueryResult : Prop :=
  ∀ (s : State) (d : Direction) (c : Nat),
    (s.cfg.numCtx ≤ c → Aborts (.hqQuery d c) s .badIndex) ∧
    (c < s.cfg.numCtx → s.units.pool c d = none → Aborts (.hqQuery d c) s .notConfigured) ∧
    ∀ P, c < s.cfg.numCtx → s.units.pool c d = some P → s.cfg.wf = true → PoolWf s.cfg.nmax P →
      (P.cap ≤ s.opId → Aborts (.hqQuery d c) s .badId) ∧
      ∀ (code : Nat) (L : List Nat) (k : Nat),
        (code, L) ∈ [(0, P.av), (1, P.fb), (2, P.rt)] → L[k]? = some s.opId →
        ∃ t, exec (.hqQuery d c) s = .next t ∧ t.units = s.units ∧
          CompletedWith s t .ok (results
            (code + (L[k + 1]?).getD 0xFF * 2 ^ 8 + (if k = 0 then 0xFF else (L[k - 1]?).getD 0xFF) * 2 ^ 16 +
              (if (look P.due s.opId).isSome then 2 ^ 24 else 0))
            ((look P.due s.opId).getD 0).toNat k)

/-- HQ_STAT (R189) on a pool that satisfies R52: the three lengths and the capacity, the three heads and
the three tails (0xFF for an empty queue). -/
def Obligations.HqStatResult : Prop :=
  ∀ (s : State) (d : Direction) (c : Nat),
    (s.cfg.numCtx ≤ c → Aborts (.hqStat d c) s .badIndex) ∧
    (c < s.cfg.numCtx → s.units.pool c d = none → Aborts (.hqStat d c) s .notConfigured) ∧
    ∀ P, c < s.cfg.numCtx → s.units.pool c d = some P → s.cfg.wf = true → PoolWf s.cfg.nmax P →
      P.av.length + P.fb.length + P.rt.length = P.cap ∧
      ∃ t, exec (.hqStat d c) s = .next t ∧ t.units = s.units ∧
        CompletedWith s t .ok (results
          (P.av.length + P.fb.length * 2 ^ 8 + P.rt.length * 2 ^ 16 + P.cap * 2 ^ 24)
          (P.av.head?.getD 0xFF + P.fb.head?.getD 0xFF * 2 ^ 8 + P.rt.head?.getD 0xFF * 2 ^ 16)
          (P.av.getLast?.getD 0xFF + P.fb.getLast?.getD 0xFF * 2 ^ 8 + P.rt.getLast?.getD 0xFF * 2 ^ 16))

/-- Exhaustion and recovery (R192): from a fresh pool of capacity N, N HQ_TAKE_AVAIL commands return
0, 1, ..., N - 1 in that order and the next returns EXHAUSTED; after positive feedback for an id j < N
the next HQ_TAKE_AVAIL returns j. Between the commands the host may do anything that leaves the unit
arrays and the parameters alone (`S` is the state before each command). -/
def Obligations.ExhaustionAndRecovery : Prop :=
  ∀ (d : Direction) (c N j : Nat) (S : Nat → State),
    c < (S 0).cfg.numCtx → 1 ≤ N → N ≤ (S 0).cfg.nmax → j < N → (∀ n, (S n).cfg = (S 0).cfg) →
    (∃ P, (S 0).units.pool c d = some P ∧ P.cap = N ∧ P.av = List.range N ∧ P.fb = [] ∧ P.rt = [] ∧
      P.due = []) →
    (∀ n t, n ≤ N → exec (.hqTakeAvail d c) (S n) = .next t → (S (n + 1)).units = t.units) →
    (S (N + 1)).opId = j → (S (N + 1)).opAck = true →
    (∀ t, exec (.hqFeedback d c) (S (N + 1)) = .next t → (S (N + 2)).units = t.units) →
    (∀ n, n < N → ∃ t, exec (.hqTakeAvail d c) (S n) = .next t ∧ CompletedWith (S n) t .ok (results n)) ∧
    (∃ t, exec (.hqTakeAvail d c) (S N) = .next t ∧
      CompletedWith (S N) t .exhausted (results 0xFFFFFFFF)) ∧
    (∃ t, exec (.hqFeedback d c) (S (N + 1)) = .next t ∧ CompletedWith (S (N + 1)) t .ok (results 0)) ∧
    ∃ t, exec (.hqTakeAvail d c) (S (N + 2)) = .next t ∧ CompletedWith (S (N + 2)) t .ok (results j)

/-! ### The control-channel placer -/

/-- CCP_LAYOUT_SET (R231, R233): a legal layout replaces the slot, with bundle size 6 when it is not
interleaved; an illegal one is BAD_LAYOUT. CCP_LAYOUT_DEL (R234): the slot becomes invalid, whatever it was. -/
def Obligations.CcpLayoutSetAndDelResults : Prop :=
  (∀ (s : State) (k : Nat),
    (s.cfg.numLayouts ≤ k → Aborts (.ccpLayoutSet k) s .badIndex) ∧
    (k < s.cfg.numLayouts → ¬ LegalLayout s.cfg.numRb s.opLayout → Aborts (.ccpLayoutSet k) s .badLayout) ∧
    (k < s.cfg.numLayouts → LegalLayout s.cfg.numRb s.opLayout →
      ∃ t, exec (.ccpLayoutSet k) s = .next t ∧ CompletedWith s t .ok (results 0) ∧
        OnlyLayout k s.units t.units ∧
        look t.units.lay k =
          some (if s.opLayout.il then s.opLayout else { s.opLayout with bundle := 6 }))) ∧
  ∀ (s : State) (k : Nat),
    (s.cfg.numLayouts ≤ k → Aborts (.ccpLayoutDel k) s .badIndex) ∧
    (k < s.cfg.numLayouts → ∃ t, exec (.ccpLayoutDel k) s = .next t ∧ CompletedWith s t .ok (results 0) ∧
      OnlyLayout k s.units t.units ∧ look t.units.lay k = none)

/-- CCP_LAYOUT_INFO (R232, R235) on a legal stored layout whose lowest and highest groups are `lo`, `hi`. -/
def Obligations.CcpLayoutInfoResult : Prop :=
  ∀ (s : State) (k : Nat),
    (s.cfg.numLayouts ≤ k → Aborts (.ccpLayoutInfo k) s .badIndex) ∧
    (k < s.cfg.numLayouts → look s.units.lay k = none → Aborts (.ccpLayoutInfo k) s .notConfigured) ∧
    ∀ l, k < s.cfg.numLayouts → look s.units.lay k = some l → s.cfg.wf = true → LayoutOk s.cfg.numRb l →
      ∀ lo hi, l.fmask.getLsbD lo = true → l.fmask.getLsbD hi = true →
        (∀ g, l.fmask.getLsbD g = true → lo ≤ g ∧ g ≤ hi) →
        ∃ t, exec (.ccpLayoutInfo k) s = .next t ∧ t.units = s.units ∧
          CompletedWith s t .ok (results (groupCount l * l.dur.toNat)
            ((l.rbOffset.toNat + 6 * lo) + (l.rbOffset.toNat + 6 * hi + 5) * 2 ^ 16)
            ((2 ^ l.dur.toNat - 1) * 2 ^ l.start.toNat)
            (6 * groupCount l + 6 * groupCount l * l.dur.toNat * 2 ^ 16))

/-- CCP_CCE_MAP (R242) on a legal stored layout: where the first resource block of each of the CCE's
6/L_eff bundles lies, and the layout's figures, under the configuration's CCE_MAP. -/
def Obligations.CcpCceMapResult : Prop :=
  ∀ (s : State) (k : Nat),
    (s.cfg.numLayouts ≤ k → Aborts (.ccpCceMap k) s .badIndex) ∧
    (k < s.cfg.numLayouts → look s.units.lay k = none → Aborts (.ccpCceMap k) s .notConfigured) ∧
    ∀ l, k < s.cfg.numLayouts → look s.units.lay k = some l → s.cfg.wf = true → LayoutOk s.cfg.numRb l →
      (cceCount l ≤ s.opCce → Aborts (.ccpCceMap k) s .badArg) ∧
      (s.opCce < cceCount l →
        let L := l.bundle.toNat
        let first (t : Nat) : Nat :=
          if t < 6 / L then ((bundleRbs s.cfg.cceMap l (6 * s.opCce / L + t)).head?).getD 0 else 0xFFFFFFFF
        ∃ t, exec (.ccpCceMap k) s = .next t ∧ t.units = s.units ∧
          CompletedWith s t .ok (results (first 0) (first 1) (first 2)
            (L / l.dur.toNat + 6 / L * 2 ^ 8 + (2 ^ l.dur.toNat - 1) * 2 ^ l.start.toNat * 2 ^ 16)))

/-- The default mapping of R236 and the positions of R237: with G the layout's groups in ascending order, the
interleaver f, and w resource blocks to a bundle; and a candidate touches the blocks of its CCEs' bundles. -/
def Obligations.DefaultCceMapping : Prop :=
  ∀ (numRb : Nat) (l : Layout) (G : List Nat), LayoutOk numRb l → G.Pairwise (· < ·) →
    (∀ g, g ∈ G ↔ l.fmask.getLsbD g = true) →
    let L := l.bundle.toNat
    let n := 6 * groupCount l * l.dur.toNat / L
    let w := L / l.dur.toNat
    let f (x : Nat) : Nat :=
      if l.il then (x % l.ilv.toNat * (n / l.ilv.toNat) + x / l.ilv.toNat + l.shift.toNat) % n else x
    (∀ x, x < n → bundleRbs .protocol l x =
      (List.range' (f x * w) w).map (fun i => l.rbOffset.toNat + 6 * G[i / 6]?.getD 0 + i % 6)) ∧
    ∀ first count r, r ∈ candidateRbs .protocol l first count ↔
      ∃ j t, first ≤ j ∧ j < first + count ∧ t < 6 / L ∧ r ∈ bundleRbs .protocol l (6 * j / L + t)

/-- Under the default mapping of R236 the CCEs of a legal layout partition its control-resource-set: taken
together they touch every resource block of it exactly once, so candidates with disjoint CCE ranges touch
disjoint resource blocks. -/
def Obligations.CcesPartitionTheResourceSet : Prop :=
  ∀ (numRb : Nat) (l : Layout), LayoutOk numRb l →
    (candidateRbs .protocol l 0 (cceCount l)).Nodup ∧
    (∀ r, r ∈ candidateRbs .protocol l 0 (cceCount l) ↔
      ∃ g i, l.fmask.getLsbD g = true ∧ i < 6 ∧ r = l.rbOffset.toNat + 6 * g + i) ∧
    ∀ a m b n, a + m ≤ b → b + n ≤ cceCount l →
      ∀ r, r ∈ candidateRbs .protocol l a m → r ∉ candidateRbs .protocol l b n

/-- CCP_FIND (R238-R240, R243) on a legal stored layout: the first free candidate, marked when MARK is set
and not otherwise; no free candidate is the soft result NO_CANDIDATE. -/
def Obligations.CcpFindResult : Prop :=
  ∀ (s : State) (mark : Bool) (k : Nat),
    (s.cfg.numLayouts ≤ k → Aborts (.ccpFind mark k) s .badIndex) ∧
    (k < s.cfg.numLayouts → look s.units.lay k = none → Aborts (.ccpFind mark k) s .notConfigured) ∧
    ∀ l, k < s.cfg.numLayouts → look s.units.lay k = some l → s.cfg.wf = true → LayoutOk s.cfg.numRb l →
      (s.cfg.numBeams ≤ s.opBeam ∨ 4 < s.opLvl ∨ 8 < s.opM → Aborts (.ccpFind mark k) s .badArg) ∧
      (s.opBeam < s.cfg.numBeams → s.opLvl ≤ 4 → s.opM ≤ 8 →
        (∀ m, LevelHit s s.opBeam l s.opLvl s.opM s.opY m →
          let first := candidateFirst l (2 ^ s.opLvl) s.opM s.opY m
          ∃ t, exec (.ccpFind mark k) s = .next t ∧
            CompletedWith s t .ok (results first s.opLvl m (m + 1 + if mark then 2 ^ 8 else 0)) ∧
            (mark = false → t.units = s.units) ∧
            (mark = true → Marked s.cfg.cceMap s.units t.units s.opBeam l first (2 ^ s.opLvl))) ∧
        (LevelMiss s s.opBeam l s.opLvl s.opM s.opY → ∃ t, exec (.ccpFind mark k) s = .next t ∧
          CompletedWith s t .noCandidate (results 0xFFFFFFFF 0 0 (missTests l s.opLvl s.opM)) ∧
          t.units = s.units))

/-- CCP_SEARCH (R241, R244) on a legal stored layout: over the levels from the nearest one to CQ upward and
then downward, the first level with a free candidate, all tests counted; none is NO_CANDIDATE. -/
def Obligations.CcpSearchResult : Prop :=
  ∀ (s : State) (mark : Bool) (k : Nat),
    (s.cfg.numLayouts ≤ k → Aborts (.ccpSearch mark k) s .badIndex) ∧
    (k < s.cfg.numLayouts → look s.units.lay k = none → Aborts (.ccpSearch mark k) s .notConfigured) ∧
    ∀ l, k < s.cfg.numLayouts → look s.units.lay k = some l → s.cfg.wf = true → LayoutOk s.cfg.numRb l →
      (s.cfg.numBeams ≤ s.opBeam ∨ (∃ v, v < 5 ∧ 8 < s.opMLevel v) ∨ 256 < s.opCq →
        Aborts (.ccpSearch mark k) s .badArg) ∧
      (s.opBeam < s.cfg.numBeams → (∀ v, v < 5 → s.opMLevel v ≤ 8) → s.opCq ≤ 256 →
        let start := (4 * s.opCq + 128) / 256
        let order := (List.range 5).filter (fun v => start ≤ v) ++ (List.range start).reverse
        let tests (v : Nat) : Nat := missTests l v (s.opMLevel v)
        (∀ pre v post m, order = pre ++ v :: post →
          (∀ u ∈ pre, LevelMiss s s.opBeam l u (s.opMLevel u) s.opY) →
          LevelHit s s.opBeam l v (s.opMLevel v) s.opY m →
          let first := candidateFirst l (2 ^ v) (s.opMLevel v) s.opY m
          ∃ t, exec (.ccpSearch mark k) s = .next t ∧
            CompletedWith s t .ok
              (results first v m ((pre.map tests).sum + (m + 1) + if mark then 2 ^ 8 else 0)) ∧
            (mark = false → t.units = s.units) ∧
            (mark = true → Marked s.cfg.cceMap s.units t.units s.opBeam l first (2 ^ v))) ∧
        ((∀ v, v < 5 → LevelMiss s s.opBeam l v (s.opMLevel v) s.opY) →
          ∃ t, exec (.ccpSearch mark k) s = .next t ∧
            CompletedWith s t .noCandidate (results 0xFFFFFFFF 0 0 (order.map tests).sum) ∧
            t.units = s.units))

/-- CCP_MARK (R245) on a legal stored layout: no collision test; a first CCE that is no multiple of the
level or does not fit is BAD_ARG. -/
def Obligations.CcpMarkResult : Prop :=
  ∀ (s : State) (k : Nat),
    (s.cfg.numLayouts ≤ k → Aborts (.ccpMark k) s .badIndex) ∧
    (k < s.cfg.numLayouts → look s.units.lay k = none → Aborts (.ccpMark k) s .notConfigured) ∧
    ∀ l, k < s.cfg.numLayouts → look s.units.lay k = some l → s.cfg.wf = true → LayoutOk s.cfg.numRb l →
      (s.cfg.numBeams ≤ s.opBeam ∨ 4 < s.opLvl ∨ s.opFirst % 2 ^ s.opLvl ≠ 0 ∨
        cceCount l < s.opFirst + 2 ^ s.opLvl → Aborts (.ccpMark k) s .badArg) ∧
      (s.opBeam < s.cfg.numBeams → s.opLvl ≤ 4 → s.opFirst % 2 ^ s.opLvl = 0 →
        s.opFirst + 2 ^ s.opLvl ≤ cceCount l →
        ∃ t, exec (.ccpMark k) s = .next t ∧ CompletedWith s t .ok (results 0) ∧
          Marked s.cfg.cceMap s.units t.units s.opBeam l s.opFirst (2 ^ s.opLvl))

/-- OCC_CLEAR (R246): every mask of every beam, or of one beam. OCC_SET (R247): the mask is ORed into the
range of resource blocks, nothing else changes. OCC_READ (R248): one mask, zero-extended. -/
def Obligations.OccupancyCommandResults : Prop :=
  (∀ s : State,
    (∃ t, exec (.occClear true) s = .next t ∧ CompletedWith s t .ok (results 0) ∧
      OnlyOcc s.units t.units ∧ ∀ b r, t.units.mask b r = 0) ∧
    (s.cfg.numBeams ≤ s.opBeam → Aborts (.occClear false) s .badArg) ∧
    (s.opBeam < s.cfg.numBeams → ∃ t, exec (.occClear false) s = .next t ∧
      CompletedWith s t .ok (results 0) ∧ OnlyOcc s.units t.units ∧
      ∀ b r, r < 65536 → t.units.mask b r = if b = s.opBeam then 0 else s.units.mask b r)) ∧
  (∀ s : State, s.cfg.wf = true →
    (s.cfg.numBeams ≤ s.opBeam ∨ s.cfg.numRb < s.opRb + s.opRbCount → Aborts .occSet s .badArg) ∧
    (s.opBeam < s.cfg.numBeams → s.opRb + s.opRbCount ≤ s.cfg.numRb → ∃ t, exec .occSet s = .next t ∧
      CompletedWith s t .ok (results 0) ∧ OnlyOcc s.units t.units ∧
      ∀ b r, r < 65536 → t.units.mask b r =
        if b = s.opBeam ∧ s.opRb ≤ r ∧ r < s.opRb + s.opRbCount then s.units.mask b r ||| s.opSymMask
        else s.units.mask b r)) ∧
  ∀ s : State,
    (s.cfg.numBeams ≤ s.opBeam ∨ s.cfg.numRb ≤ s.opRb → Aborts .occRead s .badArg) ∧
    (s.opBeam < s.cfg.numBeams → s.opRb < s.cfg.numRb → ∃ t, exec .occRead s = .next t ∧
      CompletedWith s t .ok (results (s.units.mask s.opBeam s.opRb).toNat) ∧ t.units = s.units)

/-- Occupancy monotonicity (R249): in a stretch with no clear of beam `b` its masks only gain bits, and once
a symbol of resource block `r` is marked on beam `b`, no later CCP_FIND or CCP_SEARCH of the stretch returns
a candidate that touches it. -/
def Obligations.OccupancyMonotonicity : Prop :=
  ∀ (b r j : Nat) (s u : State), r < 65536 → NoClearRun b s u →
    (s.units.mask b r).getLsbD j = true →
    (u.units.mask b r).getLsbD j = true ∧
    ∀ (k : Nat) (mark : Bool) (l : Layout) (t : State), look u.units.lay k = some l →
      LayoutOk u.cfg.numRb l → u.opBeam = b →
      (exec (.ccpFind mark k) u = .next t ∨ exec (.ccpSearch mark k) u = .next t) →
      (t.port u.cur).rcode = .ok → (symbolMask l).getLsbD j = true →
      r ∉ candidateRbs u.cfg.cceMap l ((t.port u.cur).res.get 0).toNat
        (2 ^ ((t.port u.cur).res.get 1).toNat)

/-! ### The grant encoder -/

/-- GEN_FIELD (R295) writes one slot of the served port's staging table; GEN_CLEAR (R297) clears every slot
of it; neither touches another table. -/
def Obligations.GenStagingResults : Prop :=
  (∀ (s : State) (f : Nat),
    (64 ≤ f → Aborts (.genField f) s .badIndex) ∧
    (f < 64 → 32 < s.opWidth.toNat → Aborts (.genField f) s .badArg) ∧
    (f < 64 → s.opWidth.toNat ≤ 32 → ∃ t, exec (.genField f) s = .next t ∧
      CompletedWith s t .ok (results 0) ∧ OnlyGen s.cur s.units t.units ∧
      ∀ g, t.units.slot s.cur g =
        if g = f then { val := s.opValue, wid := s.opWidth, wr := true } else s.units.slot s.cur g)) ∧
  ∀ s : State, ∃ t, exec .genClear s = .next t ∧ CompletedWith s t .ok (results 0) ∧
    OnlyGen s.cur s.units t.units ∧ ∀ g, t.units.slot s.cur g = { val := 0, wid := 0, wr := false }

/-- GEN_ENCODE (R294, R296, R299): the checks in order; on success the concatenation of the walked fields,
most significant first, padded with zeros to A bits, in RES1:RES0, with A, VARIANT and n, and the served
port's staging table cleared. -/
def Obligations.GenEncodeResult : Prop :=
  ∀ s : State,
    (s.opMode = none → Aborts .genEncode s .badArg) ∧
    ∀ mode, s.opMode = some mode →
      (genLayout s.cfg s.opFmt mode = none → Aborts .genEncode s .layoutUndefined) ∧
      ∀ fields, genLayout s.cfg s.opFmt mode = some fields →
        (64 < s.opAlign → Aborts .genEncode s .payloadTooLong) ∧
        (s.opAlign ≤ 64 → ∀ seq tag,
          let slot := s.units.slot s.cur
          let n := widthSum slot seq
          let payload := fieldsValue slot seq * 2 ^ (s.opAlign - n)
          Walked s.cfg.genVariant fields (VariantTaken s.opFmt mode (slot fdraId)) seq tag →
          ((∃ f ∈ seq, (slot f).wr = false) → Aborts .genEncode s .fieldMissing) ∧
          ((∀ f ∈ seq, (slot f).wr = true) → s.opAlign < n → Aborts .genEncode s .sizeMismatch) ∧
          ((∀ f ∈ seq, (slot f).wr = true) → n ≤ s.opAlign →
            payload < 2 ^ s.opAlign ∧
            ∃ t, exec .genEncode s = .next t ∧
              CompletedWith s t .ok
                (results (payload % 2 ^ 32) (payload / 2 ^ 32) s.opAlign ((if tag then 1 else 0) + n * 2 ^ 8)) ∧
              OnlyGen s.cur s.units t.units ∧
              ∀ g, t.units.slot s.cur g = { val := 0, wid := 0, wr := false }))

/-- Round trip (R298): after every successful GEN_ENCODE, walking the same layout over the returned payload
with the staged widths, branching on the FDRA value read, gives for each walked field its staged value
masked to its width, and the same VARIANT bit and content length. -/
def Obligations.GrantRoundTrip : Prop :=
  ∀ (s t : State) (mode : AddrMode) (fields : List FieldId),
    s.opMode = some mode → genLayout s.cfg s.opFmt mode = some fields →
    exec .genEncode s = .next t → (t.port s.cur).rcode = .ok →
    let slot := s.units.slot s.cur
    let res (i : Fin 4) : Nat := ((t.port s.cur).res.get i).toNat
    let out := readPayload (fun f => (slot f).wid.toNat)
      (decide (s.opFmt = .dlA ∧ (mode = .bcast ∨ mode = .ra))) s.cfg.genVariant
      (res 0 + res 1 * 2 ^ 32) (res 2) fields
    (∀ e ∈ out.1, e.2 = (slot e.1).val.toNat % 2 ^ (slot e.1).wid.toNat) ∧
    Walked s.cfg.genVariant fields (VariantTaken s.opFmt mode (slot fdraId)) (out.1.map Prod.fst) out.2 ∧
    res 3 = (if out.2 then 1 else 0) + widthSum slot (out.1.map Prod.fst) * 2 ^ 8

/-! ### The link-adaptation selector -/

/-- LA_INIT (R331): WIN = 0 selects the window 10. -/
def Obligations.LaInitResult : Prop :=
  ∀ (s : State) (d : Direction) (c : Nat),
    (s.cfg.numCtx ≤ c → Aborts (.laInit d c) s .badIndex) ∧
    (c < s.cfg.numCtx →
      (s.opMcs0.toNat < s.opMin.toNat ∨ s.opMax.toNat < s.opMcs0.toNat ∨ 65536 < s.opThrLo.toNat ∨
        65536 < s.opThrHi.toNat ∨ 65536 < s.opRate0.toNat) → Aborts (.laInit d c) s .badArg) ∧
    (c < s.cfg.numCtx → s.opMin.toNat ≤ s.opMcs0.toNat → s.opMcs0.toNat ≤ s.opMax.toNat →
      s.opThrLo.toNat ≤ 65536 → s.opThrHi.toNat ≤ 65536 → s.opRate0.toNat ≤ 65536 →
      ∃ t, exec (.laInit d c) s = .next t ∧ CompletedWith s t .ok (results 0) ∧
        OnlyRec c d s.units t.units ∧
        ∃ R, t.units.laRec c d = some R ∧ R.mcs = s.opMcs0 ∧ R.mn = s.opMin ∧ R.mx = s.opMax ∧
          R.thrLo = s.opThrLo ∧ R.thrHi = s.opThrHi ∧
          R.win.toNat = (if s.opWin.toNat = 0 then 10 else s.opWin.toNat) ∧ R.last = s.opNow0 ∧
          R.txSnap = s.opTx0 ∧ R.retxSnap = s.opRetx0 ∧ R.rate = s.opRate0)

/-- LA_EVAL (R332): no update inside the window; else the filtered rate, the branch and the new index, with
the arithmetic as the rule writes it. -/
def Obligations.LaEvalResult : Prop :=
  ∀ (s : State) (d : Direction) (c : Nat),
    (s.cfg.numCtx ≤ c → Aborts (.laEval d c) s .badIndex) ∧
    (c < s.cfg.numCtx → s.units.laRec c d = none → Aborts (.laEval d c) s .notConfigured) ∧
    ∀ R, c < s.cfg.numCtx → s.units.laRec c d = some R →
      let e := (s.opNow.toNat + 1024 - R.last.toNat) % 1024
      let txW := (s.opTx.toNat + 2 ^ 32 - R.txSnap.toNat) % 2 ^ 32
      let retxW := (s.opRetx.toNat + 2 ^ 32 - R.retxSnap.toNat) % 2 ^ 32
      let frac := if txW = 0 then 0 else min 65536 (retxW * 65536 / txW)
      let rate2 := (9 * R.rate.toNat + frac) / 10
      let action := if rate2 < R.thrLo.toNat ∧ 3 < txW then 1
        else if R.thrHi.toNat < rate2 ∨ txW < 3 then 2 else 0
      let mcs2 := if action = 1 then min (R.mcs.toNat + 1) R.mx.toNat
        else if action = 2 then max (R.mcs.toNat - 1) R.mn.toNat else R.mcs.toNat
      (e < R.win.toNat → ∃ t, exec (.laEval d c) s = .next t ∧
        CompletedWith s t .ok (results R.mcs.toNat R.rate.toNat 0 0) ∧ t.units = s.units) ∧
      (R.win.toNat ≤ e → ∃ t, exec (.laEval d c) s = .next t ∧
        CompletedWith s t .ok (results mcs2 rate2 (1 + 2 * action) txW) ∧ OnlyRec c d s.units t.units ∧
        ∃ Q, t.units.laRec c d = some Q ∧ Q.mcs.toNat = mcs2 ∧ Q.rate.toNat = rate2 ∧ Q.last = s.opNow ∧
          Q.txSnap = s.opTx ∧ Q.retxSnap = s.opRetx ∧ Q.mn = R.mn ∧ Q.mx = R.mx ∧ Q.win = R.win ∧
          Q.thrLo = R.thrLo ∧ Q.thrHi = R.thrHi)

/-- LA_READ (R333): both result pages. -/
def Obligations.LaReadResult : Prop :=
  ∀ (s : State) (d : Direction) (sel : Bool) (c : Nat),
    (s.cfg.numCtx ≤ c → Aborts (.laRead d sel c) s .badIndex) ∧
    (c < s.cfg.numCtx → s.units.laRec c d = none → Aborts (.laRead d sel c) s .notConfigured) ∧
    ∀ R, c < s.cfg.numCtx → s.units.laRec c d = some R →
      ∃ t, exec (.laRead d sel c) s = .next t ∧ t.units = s.units ∧
        CompletedWith s t .ok
          (if sel then results R.thrHi.toNat R.txSnap.toNat R.retxSnap.toNat 0
          else results (R.mcs.toNat + R.mn.toNat * 2 ^ 8 + R.mx.toNat * 2 ^ 16) R.rate.toNat
            (R.last.toNat + R.win.toNat * 2 ^ 16) R.thrLo.toNat)

/-- Downward response (R334) over N successive evaluating LA_EVAL commands on one record, each with at least
4 transmissions in its window and a fraction at least thr_hi + 10, where thr_lo ≤ thr_hi and
the record is in range: (a) a rate above
thr_hi stays above it; (b) it is above thr_hi after at most thr_hi + 1 evaluations; (c) each evaluation that
ends above thr_hi lowers the index by 1 or leaves it at the minimum; the index never goes below the minimum.
`S n` is the state before the n-th command and `R n` the record in it. -/
def Obligations.DownwardResponse : Prop :=
  ∀ (d : Direction) (c N : Nat) (S : Nat → State) (R : Nat → LaRec),
    (∀ n, n ≤ N → c < (S n).cfg.numCtx ∧ (S n).units.laRec c d = some (R n)) →
    (∀ n, n < N → ∃ t, exec (.laEval d c) (S n) = .next t ∧ t.units.laRec c d = some (R (n + 1)) ∧
      ((t.port (S n).cur).res.get 2).toNat % 2 = 1 ∧ 4 ≤ ((S n).opTx - (R n).txSnap).toNat ∧
      (R n).thrHi.toNat + 10 ≤ min 65536
        (((S n).opRetx - (R n).retxSnap).toNat * 65536 / ((S n).opTx - (R n).txSnap).toNat)) →
    (R 0).thrLo.toNat ≤ (R 0).thrHi.toNat → LaRecOk (R 0) →
    let hi := (R 0).thrHi.toNat
    let mn := (R 0).mn.toNat
    (∀ n, n < N → hi < (R n).rate.toNat → hi < (R (n + 1)).rate.toNat) ∧
    (hi + 1 ≤ N → hi < (R N).rate.toNat) ∧
    (∀ n, n < N → hi < (R (n + 1)).rate.toNat →
      (R (n + 1)).mcs.toNat = if (R n).mcs.toNat = mn then mn else (R n).mcs.toNat - 1) ∧
    ∀ n, n ≤ N → mn ≤ (R n).mcs.toNat

/-- Sparse-scheduling bias (R335): an evaluation with fewer than 3 transmissions in its window lowers the
index, saturating at the minimum, whatever the rate; one with at most 3 never raises it. -/
def Obligations.SparseSchedulingBias : Prop :=
  ∀ (d : Direction) (c : Nat) (s t : State) (R Q : LaRec),
    c < s.cfg.numCtx → s.units.laRec c d = some R → exec (.laEval d c) s = .next t →
    ((t.port s.cur).res.get 2).toNat % 2 = 1 → t.units.laRec c d = some Q →
    LaRecOk R →
    ((s.opTx - R.txSnap).toNat < 3 →
      Q.mcs.toNat = if R.mcs.toNat = R.mn.toNat then R.mn.toNat else R.mcs.toNat - 1) ∧
    ((s.opTx - R.txSnap).toNat ≤ 3 → Q.mcs.toNat ≤ R.mcs.toNat)

/-! ### The sizer -/

/-- RBS_FIT (R360-R364), for the configuration's TBS_FN, which is non-decreasing: the smallest conforming
count that reaches TARGET, with its size and FITS = 1, after at most one evaluation per conforming count; if
none reaches it, NOT_FIT with the largest conforming count after one evaluation; if none conforms, NOT_FIT
with (0, 0, 0) and no evaluation. -/
def Obligations.RbsFitResult : Prop :=
  ∀ s : State,
    let T (n : Nat) : Nat := tbsFn s.cfg.tbs n s.opCpar
    let C : Nat → Prop := Conforming s.opTp s.opMinRb s.opMaxRb
    (∀ m n, m ≤ n → T m ≤ T n) ∧
    (¬ (1 ≤ s.opMinRb ∧ s.opMinRb ≤ s.opMaxRb ∧ s.opMaxRb ≤ s.cfg.numRb) → Aborts .rbsFit s .badArg) ∧
    (1 ≤ s.opMinRb → s.opMinRb ≤ s.opMaxRb → s.opMaxRb ≤ s.cfg.numRb →
      ((∀ n, ¬ C n) → ∃ t, exec .rbsFit s = .next t ∧
        CompletedWith s t .notFit (results 0 0 0 0) ∧ t.units = s.units) ∧
      (∀ n, C n → (∀ m, C m → m ≤ n) → T n < s.opTarget → ∃ t, exec .rbsFit s = .next t ∧
        CompletedWith s t .notFit (results n (T n) 0 1) ∧ t.units = s.units) ∧
      ∀ n, C n → s.opTarget ≤ T n → (∀ m, C m → s.opTarget ≤ T m → n ≤ m) →
        ∃ t ev, exec .rbsFit s = .next t ∧ CompletedWith s t .ok (results n (T n) 1 ev) ∧
          t.units = s.units ∧ 1 ≤ ev ∧
          ∀ L : List Nat, (∀ m, C m → m ∈ L) → ev ≤ L.length)

/-! ### The beam allocator -/

/-- BM_CONFIG (R381): the configuration is replaced and every entry of the table becomes EMPTY. BM_READ (R384)
returns one entry. -/
def Obligations.BmConfigAndReadResults : Prop :=
  (∀ s : State,
    (s.opBd.toNat = 0 ∨ s.opAs.toNat = 0 ∨ s.cfg.allocMax < s.opAs.toNat ∨ s.opNt.toNat = 0 ∨
      s.cfg.numTracks < s.opNt.toNat → Aborts .bmConfig s .badArg) ∧
    (1 ≤ s.opBd.toNat → 1 ≤ s.opAs.toNat → s.opAs.toNat ≤ s.cfg.allocMax → 1 ≤ s.opNt.toNat →
      s.opNt.toNat ≤ s.cfg.numTracks → ∃ t, exec .bmConfig s = .next t ∧
        CompletedWith s t .ok (results 0) ∧
        t.units = { s.units with bma := t.units.bma, bt := t.units.bt } ∧
        t.units.bma = some { bd := s.opBd, sz := s.opAs, nt := s.opNt } ∧
        ∀ tr i, t.units.beam tr i = 0xFFFF)) ∧
  ∀ s : State,
    (s.units.bma = none → Aborts .bmRead s .notConfigured) ∧
    ∀ b, s.units.bma = some b →
      (b.nt.toNat ≤ s.opReadTrack ∨ b.sz.toNat ≤ s.opIdx → Aborts .bmRead s .badArg) ∧
      (s.opReadTrack < b.nt.toNat → s.opIdx < b.sz.toNat → ∃ t, exec .bmRead s = .next t ∧
        CompletedWith s t .ok (results (s.units.beam s.opReadTrack s.opIdx).toNat) ∧ t.units = s.units)

/-- BM_ALLOC (R382) on a configuration in range: the first track in order that holds the user beam (reuse) or
is EMPTY (assigned) at the rotating index; none is the soft result NO_TRACK. -/
def Obligations.BmAllocResult : Prop :=
  ∀ s : State,
    (s.units.bma = none → Aborts .bmAlloc s .notConfigured) ∧
    ∀ b, s.units.bma = some b → BmaOk s.cfg b →
      (s.opSpf = 0 ∨ s.opSpf ≤ s.opSlot ∨ s.opUbeam = 0xFFFF → Aborts .bmAlloc s .badArg) ∧
      (s.opSlot < s.opSpf → s.opUbeam ≠ 0xFFFF →
        let idx := (s.opFrame * s.opSpf + s.opSlot) / b.bd.toNat % b.sz.toNat
        let entry (t : Nat) : BitVec 16 := s.units.beam t idx
        (∀ tr, tr < b.nt.toNat → (∀ u, u < tr → entry u ≠ s.opUbeam ∧ entry u ≠ 0xFFFF) →
          (entry tr = s.opUbeam → ∃ t, exec .bmAlloc s = .next t ∧
            CompletedWith s t .ok (results tr 0 idx) ∧ t.units = s.units) ∧
          (entry tr = 0xFFFF → ∃ t, exec .bmAlloc s = .next t ∧
            CompletedWith s t .ok (results tr 1 idx) ∧ t.units = { s.units with bt := t.units.bt } ∧
            ∀ x i, i < 65536 →
              t.units.beam x i = if x = tr ∧ i = idx then s.opUbeam else s.units.beam x i)) ∧
        ((∀ u, u < b.nt.toNat → entry u ≠ s.opUbeam ∧ entry u ≠ 0xFFFF) →
          ∃ t, exec .bmAlloc s = .next t ∧ CompletedWith s t .noTrack (results 0xFFFFFFFF 0 idx) ∧
            t.units = s.units))

/-- BM_RELEASE (R383, R385) on a configuration in range: the entry is cleared only when WASNEW = 1 and it
holds the user beam named; nothing else ever changes. -/
def Obligations.BmReleaseResult : Prop :=
  ∀ s : State,
    (s.units.bma = none → Aborts .bmRelease s .notConfigured) ∧
    ∀ b, s.units.bma = some b → BmaOk s.cfg b →
      (s.opSpf = 0 ∨ s.opSpf ≤ s.opSlot ∨ s.opUbeam = 0xFFFF ∨ b.nt.toNat ≤ s.opRelTrack →
        Aborts .bmRelease s .badArg) ∧
      (s.opSlot < s.opSpf → s.opUbeam ≠ 0xFFFF → s.opRelTrack < b.nt.toNat →
        let idx := (s.opFrame * s.opSpf + s.opSlot) / b.bd.toNat % b.sz.toNat
        (s.opWasNew = true → s.units.beam s.opRelTrack idx = s.opUbeam →
          ∃ t, exec .bmRelease s = .next t ∧ CompletedWith s t .ok (results 1 0 idx) ∧
            t.units = { s.units with bt := t.units.bt } ∧
            ∀ x i, i < 65536 → t.units.beam x i =
              if x = s.opRelTrack ∧ i = idx then 0xFFFF else s.units.beam x i) ∧
        (s.opWasNew = false ∨ s.units.beam s.opRelTrack idx ≠ s.opUbeam →
          ∃ t, exec .bmRelease s = .next t ∧ CompletedWith s t .ok (results 0 0 idx) ∧
            t.units = s.units))

/-! ### Layout fields that are never read -/

/-- R and SHIFT of a layout that is not interleaved are never read (R233): with any other values of the two
in slot `k`, every command that reads slot `k` answers the same, whatever the configuration's CCE_MAP; the
state after it differs in those two stored fields alone. -/
def Obligations.PlainLayoutsHideRAndShift : Prop :=
  ∀ (i : Instr) (mark : Bool) (k : Nat) (s t : State) (l : Layout) (R : BitVec 3) (sh : BitVec 9),
    i ∈ [Instr.ccpLayoutInfo k, .ccpCceMap k, .ccpFind mark k, .ccpSearch mark k, .ccpMark k] →
    look s.units.lay k = some l → l.il = false → exec i s = .next t →
    let alter (u : State) : State :=
      { u with units := { u.units with lay := put u.units.lay k { l with ilv := R, shift := sh } } }
    exec i (alter s) = .next (alter t)

/-! ### Fairness between the ports -/

/-- Completion and fairness (R464): in a run that goes on for ever, during which the host agents may do
anything (`S` is the state before each step, and between the steps they add the turns they like), if the
engine moves again and again at instants at which port `p` has a command and is not excluded by the other
port's hold, then every command of `p` is gone from PEND after finitely many steps, whatever the free
choices of the engine and the free patience are (logs 3, 27). So the engine does not choose the other port
for ever. -/
def Obligations.EveryEligibleCommandCompletes : Prop :=
  ∀ (S : Nat → State) (p : PortId),
    (∀ n, ∃ t a, step (S n) = .next t ∧ S (n + 1) = { t with agenda := a }) →
    (∀ n, ∃ m, n ≤ m ∧ moveEnabled (S m) (.command p) = true ∧
      ((S m).agenda = [] ∨
        ∃ e rest, (S m).agenda = .engine e :: rest ∧ moveEnabled (S m) e = true)) →
    ∀ n, ∃ m, n ≤ m ∧ ((S m).port p).pend = none
end

