-- ==== Sys2Proof/Laws/Bits.lean ====
section
/-! SUPPORT. The fields of a command word put together from its three fields (`30_encoding.md`
R120), and fields as numbers. -/

namespace Sys2Proof.Machine

theorem field_eq (w : Word) (lo len : Nat) : field w lo len = w.toNat / 2 ^ lo % 2 ^ len := by
  simp [field, slice, BitVec.extractLsb'_toNat, Nat.shiftRight_eq_div_pow]

theorem field_lt (w : Word) (lo len : Nat) : field w lo len < 2 ^ len := by
  rw [field_eq]; exact Nat.mod_lt _ (Nat.two_pow_pos len)

theorem mkWord_toNat {o f x : Nat} (ho : o < 256) (hf : f < 256) (hx : x < 65536) :
    (mkWord o f x).toNat = o * 2 ^ 24 + f * 2 ^ 16 + x := by
  simp only [mkWord, BitVec.toNat_ofNat]
  omega

theorem field_mkWord_opc {o f x : Nat} (ho : o < 256) (hf : f < 256) (hx : x < 65536) :
    field (mkWord o f x) 24 8 = o := by
  rw [field_eq, mkWord_toNat ho hf hx]; omega

theorem field_mkWord_flags {o f x : Nat} (ho : o < 256) (hf : f < 256) (hx : x < 65536) :
    field (mkWord o f x) 16 8 = f := by
  rw [field_eq, mkWord_toNat ho hf hx]; omega

theorem field_mkWord_index {o f x : Nat} (ho : o < 256) (hf : f < 256) (hx : x < 65536) :
    field (mkWord o f x) 0 16 = x := by
  rw [field_eq, mkWord_toNat ho hf hx]; omega

/-- A word is the word of its three fields. -/
theorem mkWord_fields (w : Word) : mkWord (field w 24 8) (field w 16 8) (field w 0 16) = w := by
  apply BitVec.eq_of_toNat_eq
  rw [mkWord_toNat (field_lt w 24 8) (field_lt w 16 8) (field_lt w 0 16)]
  simp only [field_eq]
  have := w.isLt
  omega

end Sys2Proof.Machine
end

