-- ==== Sys2Proof/Laws/Sparse.lean ====
section
/-! SUPPORT. The laws of sparse arrays: a read after a write to the same key gives the value, a write
leaves every other key alone, and every operation keeps the canonical form. -/

namespace Sys2Proof.Machine

variable {α : Type} (m : Sparse α) (j k : Nat) (v : α)

@[simp] theorem look_nil : look ([] : Sparse α) k = none := rfl

theorem look_put : look (put m k v) j = if j = k then some v else look m j := by
  induction m with
  | nil => by_cases h : j = k <;> simp [put, look, h, eq_comm]
  | cons e rest ih =>
    simp only [put]
    split
    · by_cases h : j = k <;> simp [look, h, eq_comm]
    · split
      · rename_i _ h; subst h; by_cases h : j = e.1 <;> simp [look, h, eq_comm]
      · simp only [look, ih]
        by_cases h : e.1 = j
        · subst h; simp [Ne.symm ‹¬k = e.1›]
        · simp [h]

theorem look_filter (f : Nat → Bool) :
    look (m.filter (fun e => f e.1)) j = if f j then look m j else none := by
  induction m with
  | nil => simp
  | cons e rest ih =>
    by_cases hf : f e.1 <;> by_cases h : e.1 = j <;> simp_all [look, List.filter]

theorem look_drop : look (drop m k) j = if j = k then none else look m j := by
  unfold drop
  rw [look_filter m j (fun i => decide (i ≠ k))]
  by_cases h : j = k <;> simp [h]

theorem look_dropAll (bad : Nat → Bool) :
    look (dropAll m bad) j = if bad j then none else look m j := by
  unfold dropAll
  rw [look_filter m j (fun i => !bad i)]
  by_cases h : bad j <;> simp [h]

theorem readAt_writeAt [DecidableEq α] (d : α) :
    readAt d (writeAt d m k v) j = if j = k then v else readAt d m j := by
  unfold readAt writeAt
  by_cases hv : v = d
  · by_cases h : j = k <;> simp [hv, look_drop, h]
  · by_cases h : j = k <;> simp [hv, look_put, h]

theorem readAt_dropAll (d : α) (bad : Nat → Bool) :
    readAt d (dropAll m bad) j = if bad j then d else readAt d m j := by
  unfold readAt; rw [look_dropAll]; split <;> rfl

@[simp] theorem readAt_nil (d : α) : readAt d ([] : Sparse α) k = d := rfl

/-! ### The canonical form -/

/-- The listed keys strictly rise. -/
theorem rising_iff : rising m = true ↔ (m.map Prod.fst).Pairwise (· < ·) := by
  induction m with
  | nil => simp [rising]
  | cons a rest ih =>
    cases rest with
    | nil => simp [rising]
    | cons b rest =>
      simp only [rising, Bool.and_eq_true, decide_eq_true_eq, ih, List.map_cons, List.pairwise_cons]
      constructor
      · rintro ⟨h, h2, h3⟩
        refine ⟨?_, h2, h3⟩
        intro x hx
        rcases List.mem_cons.1 hx with rfl | hx
        · exact h
        · exact lt_trans h (h2 _ hx)
      · rintro ⟨h, h2, h3⟩
        exact ⟨h _ (List.mem_cons_self ..), h2, h3⟩

theorem rising_filter (f : Nat × α → Bool) (h : rising m = true) : rising (m.filter f) = true := by
  rw [rising_iff] at *
  exact h.sublist (List.filter_sublist.map _)

theorem mem_put {e : Nat × α} (h : e ∈ put m k v) : e = (k, v) ∨ e ∈ m := by
  induction m with
  | nil => simpa [put] using h
  | cons a rest ih =>
    simp only [put] at h
    split at h
    · simpa using h
    · split at h
      · rcases List.mem_cons.1 h with h | h <;> simp [h]
      · rcases List.mem_cons.1 h with h | h
        · simp [h]
        · rcases ih h with h | h <;> simp [h]

theorem rising_put (h : rising m = true) : rising (put m k v) = true := by
  rw [rising_iff] at *
  induction m with
  | nil => simp [put]
  | cons a rest ih =>
    simp only [List.map_cons, List.pairwise_cons] at h
    simp only [put]
    split
    · rename_i hk
      simp only [List.map_cons, List.pairwise_cons]
      refine ⟨?_, h⟩
      intro x hx
      rcases List.mem_cons.1 hx with rfl | hx
      · exact hk
      · exact lt_trans hk (h.1 _ hx)
    · split
      · rename_i _ hk; simpa [hk] using h
      · rename_i hk hk'
        simp only [List.map_cons, List.pairwise_cons]
        refine ⟨?_, ih h.2⟩
        intro x hx
        obtain ⟨e, he, rfl⟩ := List.mem_map.1 hx
        rcases mem_put rest k v he with rfl | he
        · exact lt_of_le_of_ne (not_lt.1 hk) (Ne.symm hk')
        · exact h.1 _ (List.mem_map_of_mem he)

theorem rising_drop (h : rising m = true) : rising (drop m k) = true := rising_filter m _ h

theorem rising_dropAll (bad : Nat → Bool) (h : rising m = true) : rising (dropAll m bad) = true :=
  rising_filter m _ h

theorem canonical_writeAt [DecidableEq α] (d : α) (h : canonical d m = true) :
    canonical d (writeAt d m k v) = true := by
  simp only [canonical, Bool.and_eq_true, List.all_eq_true, decide_eq_true_eq] at *
  unfold writeAt
  split
  · exact ⟨rising_drop m k h.1, fun e he => h.2 e (List.mem_of_mem_filter he)⟩
  · rename_i hv
    refine ⟨rising_put m k v h.1, fun e he => ?_⟩
    rcases mem_put m k v he with rfl | he
    · exact hv
    · exact h.2 e he

theorem canonical_dropAll [DecidableEq α] (d : α) (bad : Nat → Bool) (h : canonical d m = true) :
    canonical d (dropAll m bad) = true := by
  simp only [canonical, Bool.and_eq_true, List.all_eq_true, decide_eq_true_eq] at *
  exact ⟨rising_dropAll m bad h.1, fun e he => h.2 e (List.mem_of_mem_filter he)⟩

/-- A listed entry of a rising array is what the array reads at its key. -/
theorem look_of_mem {e : Nat × α} (h : rising m = true) (he : e ∈ m) : look m e.1 = some e.2 := by
  rw [rising_iff] at h
  induction m with
  | nil => cases he
  | cons a rest ih =>
    simp only [List.map_cons, List.pairwise_cons] at h
    rcases List.mem_cons.1 he with rfl | he
    · simp [look]
    · have := h.1 _ (List.mem_map_of_mem he)
      simp [look, Nat.ne_of_lt this, ih h.2 he]

/-- What a sparse array reads is listed. -/
theorem mem_of_look {k : Nat} {v : α} (h : look m k = some v) : (k, v) ∈ m := by
  induction m with
  | nil => cases h
  | cons a rest ih =>
    simp only [look] at h
    split at h
    · rename_i hk; cases h; subst hk; exact List.mem_cons_self ..
    · exact List.mem_cons_of_mem _ (ih h)

end Sys2Proof.Machine
end

