-- ==== Sys2Proof/Laws/State.lean ====
section
/-! SUPPORT. One lemma per field per update of the state, so that no proof unfolds a record update. -/

namespace Sys2Proof.Machine

variable (s : State) (p q : PortId) (v : Port)

@[simp] theorem State.setPort_port_self : (s.setPort p v).port p = v := by cases p <;> rfl
theorem State.setPort_port_other (h : q ≠ p) : (s.setPort p v).port q = s.port q := by
  cases p <;> cases q <;> first | rfl | exact absurd rfl h
@[simp] theorem State.setPort_cfg : (s.setPort p v).cfg = s.cfg := by cases p <;> rfl
@[simp] theorem State.setPort_greg : (s.setPort p v).greg = s.greg := by cases p <;> rfl
@[simp] theorem State.setPort_holdOwner : (s.setPort p v).holdOwner = s.holdOwner := by cases p <;> rfl
@[simp] theorem State.setPort_units : (s.setPort p v).units = s.units := by cases p <;> rfl
@[simp] theorem State.setPort_cur : (s.setPort p v).cur = s.cur := by cases p <;> rfl
@[simp] theorem State.setPort_agenda : (s.setPort p v).agenda = s.agenda := by cases p <;> rfl
@[simp] theorem State.setPort_resp : (s.setPort p v).resp = s.resp := by cases p <;> rfl
@[simp] theorem State.setPort_pick : (s.setPort p v).pick = s.pick := by cases p <;> rfl
@[simp] theorem State.setPort_fair : (s.setPort p v).fair = s.fair := by cases p <;> rfl
@[simp] theorem State.setPort_same : s.setPort p (s.port p) = s := by cases p <;> rfl

/-! The port accessor sees through updates of the other fields. -/

section
variable (g : Globals) (o : Option PortId) (u : Units) (a : List Turn) (r : Option (PortId × BusResp)) (n : Nat)
  (f : Fairness)

@[simp] theorem State.port_with_greg : ({ s with greg := g } : State).port p = s.port p := by cases p <;> rfl
@[simp] theorem State.port_with_holdOwner : ({ s with holdOwner := o } : State).port p = s.port p := by cases p <;> rfl
@[simp] theorem State.port_with_units : ({ s with units := u } : State).port p = s.port p := by cases p <;> rfl
@[simp] theorem State.port_with_units_greg :
    ({ s with units := u, greg := g } : State).port p = s.port p := by cases p <;> rfl
@[simp] theorem State.port_with_cur : ({ s with cur := q } : State).port p = s.port p := by cases p <;> rfl
@[simp] theorem State.port_with_agenda : ({ s with agenda := a } : State).port p = s.port p := by cases p <;> rfl
@[simp] theorem State.port_with_resp : ({ s with resp := r } : State).port p = s.port p := by cases p <;> rfl
@[simp] theorem State.port_with_pick : ({ s with pick := n } : State).port p = s.port p := by cases p <;> rfl
@[simp] theorem State.port_with_fair : ({ s with fair := f } : State).port p = s.port p := by cases p <;> rfl
end

/-! ### Completion -/

section
variable (rc : RCode) (res : Vector Word 4) (u : Units)

@[simp] theorem complete_cfg : (complete rc res u s).cfg = s.cfg := by simp [complete]
@[simp] theorem complete_greg : (complete rc res u s).greg =
    { s.greg with irqStatus := s.greg.irqStatus ||| doneBit s.cur } := by simp [complete]
@[simp] theorem complete_holdOwner : (complete rc res u s).holdOwner = s.holdOwner := by simp [complete]
@[simp] theorem complete_units : (complete rc res u s).units = u := by simp [complete]
@[simp] theorem complete_cur : (complete rc res u s).cur = s.cur := by simp [complete]
@[simp] theorem complete_agenda : (complete rc res u s).agenda = s.agenda := by simp [complete]
@[simp] theorem complete_resp : (complete rc res u s).resp = s.resp := by simp [complete]
@[simp] theorem complete_pick : (complete rc res u s).pick = s.pick := by simp [complete]
@[simp] theorem complete_fair : (complete rc res u s).fair = s.fair := by simp [complete]
@[simp] theorem complete_port : (complete rc res u s).port s.cur =
    { s.port s.cur with pend := none, done := true, rcode := rc, res := res } := by
  cases h : s.cur <;> simp [complete, State.me, State.setPort, State.port, h]
theorem complete_port_other (h : q ≠ s.cur) : (complete rc res u s).port q = s.port q := by
  cases hc : s.cur <;> cases q <;> simp_all [complete, State.setPort, State.port]
end

/-! ### Fatal results -/

section
variable (code : RCode)

@[simp] theorem fatalState_cfg : (fatalState code s).cfg = s.cfg := by simp [fatalState]
@[simp] theorem fatalState_greg : (fatalState code s).greg =
    latch code s.word s.cur { s.greg with irqStatus := s.greg.irqStatus ||| doneBit s.cur } := by
  simp [fatalState]
@[simp] theorem fatalState_holdOwner : (fatalState code s).holdOwner = s.holdOwner := by simp [fatalState]
@[simp] theorem fatalState_units : (fatalState code s).units = s.units := by simp [fatalState]
@[simp] theorem fatalState_cur : (fatalState code s).cur = s.cur := by simp [fatalState]
@[simp] theorem fatalState_agenda : (fatalState code s).agenda = s.agenda := by simp [fatalState]
@[simp] theorem fatalState_resp : (fatalState code s).resp = s.resp := by simp [fatalState]
@[simp] theorem fatalState_pick : (fatalState code s).pick = s.pick := by simp [fatalState]
@[simp] theorem fatalState_fair : (fatalState code s).fair = s.fair := by simp [fatalState]
@[simp] theorem fatalState_port : (fatalState code s).port s.cur =
    { s.port s.cur with pend := none, done := true, rcode := code, res := results 0 } := by
  cases h : s.cur <;> simp [fatalState, complete, State.me, State.setPort, State.port, h]
theorem fatalState_port_other (h : q ≠ s.cur) : (fatalState code s).port q = s.port q := by
  cases hc : s.cur <;> cases q <;> simp_all [fatalState, complete, State.setPort, State.port]
end

/-! ### Reset -/

@[simp] theorem resetBlock_cfg : (resetBlock s).cfg = s.cfg := rfl
@[simp] theorem resetBlock_greg : (resetBlock s).greg = Globals.reset := rfl
@[simp] theorem resetBlock_port : (resetBlock s).port p = Port.reset := by cases p <;> rfl
@[simp] theorem resetBlock_holdOwner : (resetBlock s).holdOwner = none := rfl
@[simp] theorem resetBlock_units : (resetBlock s).units = Units.reset := rfl
@[simp] theorem resetBlock_agenda : (resetBlock s).agenda = s.agenda := rfl
@[simp] theorem resetBlock_resp : (resetBlock s).resp = s.resp := rfl
@[simp] theorem resetBlock_pick : (resetBlock s).pick = s.pick := rfl
@[simp] theorem resetBlock_fair : (resetBlock s).fair = s.fair := rfl

end Sys2Proof.Machine
end

