-- ==== Sys2Proof/Laws/Ops.lean ====
section
/-! SUPPORT. What each shared operation can do, said once: the prologues, the checks, and the shape
of every command's outcome. The provers cite these instead of unfolding the operations. -/

namespace Sys2Proof.Machine

variable {s t : State} {c k : Nat} {d : Direction}

@[simp] theorem finish_eq_next {rc : RCode} {res : Vector Word 4} {u : Units} :
    finish rc res u s = .next t ↔ t = complete rc res u s := by
  simp [finish, eq_comm]

@[simp] theorem fatal_eq_next {code : RCode} : fatal code s = .next t ↔ t = fatalState code s := by
  simp [fatal, eq_comm]

/-! ### The prologues, when their checks pass and when they do not -/

theorem inContext_ok {a : Answer} (h : c < s.cfg.numCtx) : inContext c s a = a :=
  if_neg (Nat.not_le.2 h)

theorem inContext_bad {a : Answer} (h : s.cfg.numCtx ≤ c) : inContext c s a = fatal .badIndex s :=
  if_pos h

theorem withPool_ok {f : Pool → Answer} {P : Pool} (h : c < s.cfg.numCtx)
    (hp : s.units.pool c d = some P) : withPool c d s f = f P := by
  unfold withPool; rw [inContext_ok h, hp]

theorem withPool_none {f : Pool → Answer} (h : c < s.cfg.numCtx) (hp : s.units.pool c d = none) :
    withPool c d s f = fatal .notConfigured s := by
  unfold withPool; rw [inContext_ok h, hp]

theorem withPool_bad {f : Pool → Answer} (h : s.cfg.numCtx ≤ c) :
    withPool c d s f = fatal .badIndex s := inContext_bad h

theorem withRec_ok {f : LaRec → Answer} {R : LaRec} (h : c < s.cfg.numCtx)
    (hp : s.units.laRec c d = some R) : withRec c d s f = f R := by
  unfold withRec; rw [inContext_ok h, hp]

theorem withRec_none {f : LaRec → Answer} (h : c < s.cfg.numCtx) (hp : s.units.laRec c d = none) :
    withRec c d s f = fatal .notConfigured s := by
  unfold withRec; rw [inContext_ok h, hp]

theorem withRec_bad {f : LaRec → Answer} (h : s.cfg.numCtx ≤ c) :
    withRec c d s f = fatal .badIndex s := inContext_bad h

theorem inLayouts_ok {a : Answer} (h : k < s.cfg.numLayouts) : inLayouts k s a = a :=
  if_neg (Nat.not_le.2 h)

theorem inLayouts_bad {a : Answer} (h : s.cfg.numLayouts ≤ k) : inLayouts k s a = fatal .badIndex s :=
  if_pos h

theorem withLayout_ok {f : Layout → Answer} {l : Layout} (h : k < s.cfg.numLayouts)
    (hl : look s.units.lay k = some l) : withLayout k s f = f l := by
  unfold withLayout; rw [inLayouts_ok h, hl]

theorem withLayout_none {f : Layout → Answer} (h : k < s.cfg.numLayouts)
    (hl : look s.units.lay k = none) : withLayout k s f = fatal .notConfigured s := by
  unfold withLayout; rw [inLayouts_ok h, hl]

theorem withLayout_bad {f : Layout → Answer} (h : s.cfg.numLayouts ≤ k) :
    withLayout k s f = fatal .badIndex s := inLayouts_bad h

theorem withBma_ok {f : BmaCfg → Answer} {b : BmaCfg} (h : s.units.bma = some b) :
    withBma s f = f b := by
  unfold withBma; rw [h]

theorem withBma_none {f : BmaCfg → Answer} (h : s.units.bma = none) :
    withBma s f = fatal .notConfigured s := by
  unfold withBma; rw [h]

theorem check_ok {bad : Prop} [Decidable bad] {code : RCode} {a : Answer} (h : ¬ bad) :
    check bad code s a = a := if_neg h

theorem check_bad {bad : Prop} [Decidable bad] {code : RCode} {a : Answer} (h : bad) :
    check bad code s a = fatal code s := if_pos h

/-! ### What an opening check can do: one inversion lemma each -/

theorem inContext_cases {a : Answer} (h : inContext c s a = .next t) :
    (s.cfg.numCtx ≤ c ∧ t = fatalState .badIndex s) ∨ (c < s.cfg.numCtx ∧ a = .next t) := by
  unfold inContext at h
  split at h
  · exact .inl ⟨‹_›, fatal_eq_next.1 h⟩
  · exact .inr ⟨Nat.not_le.1 ‹_›, h⟩

theorem withPool_cases {f : Pool → Answer} (h : withPool c d s f = .next t) :
    (∃ code, code.isFatal = true ∧ t = fatalState code s) ∨
    (∃ P, c < s.cfg.numCtx ∧ s.units.pool c d = some P ∧ f P = .next t) := by
  rcases inContext_cases h with ⟨-, rfl⟩ | ⟨hc, h⟩
  · exact .inl ⟨.badIndex, by decide, rfl⟩
  · cases hp : s.units.pool c d with
    | none => rw [hp] at h; exact .inl ⟨.notConfigured, by decide, fatal_eq_next.1 h⟩
    | some P => rw [hp] at h; exact .inr ⟨P, hc, rfl, h⟩

theorem withRec_cases {f : LaRec → Answer} (h : withRec c d s f = .next t) :
    (∃ code, code.isFatal = true ∧ t = fatalState code s) ∨
    (∃ R, c < s.cfg.numCtx ∧ s.units.laRec c d = some R ∧ f R = .next t) := by
  rcases inContext_cases h with ⟨-, rfl⟩ | ⟨hc, h⟩
  · exact .inl ⟨.badIndex, by decide, rfl⟩
  · cases hp : s.units.laRec c d with
    | none => rw [hp] at h; exact .inl ⟨.notConfigured, by decide, fatal_eq_next.1 h⟩
    | some R => rw [hp] at h; exact .inr ⟨R, hc, rfl, h⟩

theorem inLayouts_cases {a : Answer} (h : inLayouts k s a = .next t) :
    (s.cfg.numLayouts ≤ k ∧ t = fatalState .badIndex s) ∨ (k < s.cfg.numLayouts ∧ a = .next t) := by
  unfold inLayouts at h
  split at h
  · exact .inl ⟨‹_›, fatal_eq_next.1 h⟩
  · exact .inr ⟨Nat.not_le.1 ‹_›, h⟩

theorem withLayout_cases {f : Layout → Answer} (h : withLayout k s f = .next t) :
    (∃ code, code.isFatal = true ∧ t = fatalState code s) ∨
    (∃ l, k < s.cfg.numLayouts ∧ look s.units.lay k = some l ∧ f l = .next t) := by
  rcases inLayouts_cases h with ⟨-, rfl⟩ | ⟨hc, h⟩
  · exact .inl ⟨.badIndex, by decide, rfl⟩
  · cases hp : look s.units.lay k with
    | none => rw [hp] at h; exact .inl ⟨.notConfigured, by decide, fatal_eq_next.1 h⟩
    | some l => rw [hp] at h; exact .inr ⟨l, hc, rfl, h⟩

theorem withBma_cases {f : BmaCfg → Answer} (h : withBma s f = .next t) :
    (∃ code, code.isFatal = true ∧ t = fatalState code s) ∨
    (∃ b, s.units.bma = some b ∧ f b = .next t) := by
  cases hb : s.units.bma with
  | none => rw [withBma_none hb] at h; exact .inl ⟨.notConfigured, by decide, fatal_eq_next.1 h⟩
  | some b => rw [withBma_ok hb] at h; exact .inr ⟨b, rfl, h⟩

theorem check_cases {bad : Prop} [Decidable bad] {code : RCode} {a : Answer}
    (h : check bad code s a = .next t) :
    (bad ∧ t = fatalState code s) ∨ (¬ bad ∧ a = .next t) := by
  unfold check at h
  split at h
  · exact .inl ⟨‹_›, fatal_eq_next.1 h⟩
  · exact .inr ⟨‹_›, h⟩

/-! ### Unit arrays -/

theorem ctxKey_inj {c c' : Nat} {d d' : Direction} (h : ctxKey c d = ctxKey c' d') : c = c' ∧ d = d' := by
  cases d <;> cases d' <;> simp [ctxKey, Direction.code] at h ⊢ <;> omega

theorem pairKey_inj {a b a' b' : Nat} (hb : b < 65536) (hb' : b' < 65536)
    (h : pairKey a b = pairKey a' b') : a = a' ∧ b = b' := by
  simp only [pairKey] at h; omega

@[simp] theorem pool_setPool_self {u : Units} {P : Pool} : (u.setPool c d P).pool c d = some P := by
  simp [Units.pool, Units.setPool, look_put]

theorem pool_setPool_other {u : Units} {P : Pool} {c' : Nat} {d' : Direction}
    (h : (c', d') ≠ (c, d)) : (u.setPool c d P).pool c' d' = u.pool c' d' := by
  have : ctxKey c' d' ≠ ctxKey c d := fun e => h (by obtain ⟨rfl, rfl⟩ := ctxKey_inj e; rfl)
  simp [Units.pool, Units.setPool, look_put, this]

@[simp] theorem laRec_setLaRec_self {u : Units} {R : LaRec} :
    (u.setLaRec c d R).laRec c d = some R := by
  simp [Units.laRec, Units.setLaRec, look_put]

theorem laRec_setLaRec_other {u : Units} {R : LaRec} {c' : Nat} {d' : Direction}
    (h : (c', d') ≠ (c, d)) : (u.setLaRec c d R).laRec c' d' = u.laRec c' d' := by
  have : ctxKey c' d' ≠ ctxKey c d := fun e => h (by obtain ⟨rfl, rfl⟩ := ctxKey_inj e; rfl)
  simp [Units.laRec, Units.setLaRec, look_put, this]

theorem mask_orMask {u : Units} {b r b' r' : Nat} {m : BitVec 14} (hr : r < 65536) (hr' : r' < 65536) :
    (u.orMask b r m).mask b' r' = if b' = b ∧ r' = r then u.mask b r ||| m else u.mask b' r' := by
  have hk : pairKey b' r' = pairKey b r ↔ b' = b ∧ r' = r :=
    ⟨pairKey_inj hr' hr, by rintro ⟨rfl, rfl⟩; rfl⟩
  simp only [Units.mask, Units.orMask, readAt_writeAt, hk]

theorem beam_setBeam {u : Units} {t i t' i' : Nat} {v : BitVec 16} (hi : i < 65536) (hi' : i' < 65536) :
    (u.setBeam t i v).beam t' i' = if t' = t ∧ i' = i then v else u.beam t' i' := by
  have hk : pairKey t' i' = pairKey t i ↔ t' = t ∧ i' = i :=
    ⟨pairKey_inj hi' hi, by rintro ⟨rfl, rfl⟩; rfl⟩
  simp only [Units.beam, Units.setBeam, readAt_writeAt, hk]

@[simp] theorem gen_setGen_self {u : Units} {p : PortId} {g : Sparse GenSlot} : (u.setGen p g).gen p = g := by
  cases p <;> rfl

theorem gen_setGen_other {u : Units} {p q : PortId} {g : Sparse GenSlot} (h : q ≠ p) :
    (u.setGen p g).gen q = u.gen q := by
  cases p <;> cases q <;> first | rfl | exact absurd rfl h

end Sys2Proof.Machine
end

