-- ==== Sys2Proof/Laws/Exec.lean ====
section
/-! SUPPORT. What a command can do, said once: it is aborted, or it completes with unit arrays that
`UnitStep` lists. Later proofs take cases on `UnitStep` and do not unfold a command. -/

namespace Sys2Proof.Machine

/-- The unit arrays a completed command may leave, by command and result code, with what its checks
established. -/
inductive UnitStep (s : State) : Instr → RCode → Units → Prop
  | same {i : Instr} {rc : RCode} : UnitStep s i rc s.units
  | ctxRelease {c : Nat} (hc : c < s.cfg.numCtx) : UnitStep s (.ctxRelease c) .ok
      { s.units with
        hq := drop (drop s.units.hq (ctxKey c .dl)) (ctxKey c .ul)
        la := drop (drop s.units.la (ctxKey c .dl)) (ctxKey c .ul) }
  | hqCreate {d : Direction} {c : Nat} (hc : c < s.cfg.numCtx) (h1 : 1 ≤ s.opCap)
      (hn : s.opCap ≤ s.cfg.nmax) :
      UnitStep s (.hqCreate d c) .ok (s.units.setPool c d (Pool.fresh s.opCap))
  | hqTakeAvail {d : Direction} {c : Nat} {P : Pool} {i : Nat} {q : List Nat} (hc : c < s.cfg.numCtx)
      (hp : s.units.pool c d = some P) (hq : P.av = i :: q) :
      UnitStep s (.hqTakeAvail d c) .ok (s.units.setPool c d (P.take i))
  | hqMarkAv {d : Direction} {c : Nat} {P : Pool} (hc : c < s.cfg.numCtx)
      (hp : s.units.pool c d = some P) (hid : s.opId < P.cap) (hq : s.opId ∈ P.av) :
      UnitStep s (.hqMarkFb d c) .ok (s.units.setPool c d ((P.grant s.opId).setDue s.opId s.opDue))
  | hqMarkFb {d : Direction} {c : Nat} {P : Pool} (hc : c < s.cfg.numCtx)
      (hp : s.units.pool c d = some P) (hid : s.opId < P.cap) (hq : s.opId ∈ P.fb) :
      UnitStep s (.hqMarkFb d c) .ok (s.units.setPool c d (P.setDue s.opId s.opDue))
  | hqAck {d : Direction} {c : Nat} {P : Pool} (hc : c < s.cfg.numCtx)
      (hp : s.units.pool c d = some P) (hid : s.opId < P.cap) (hq : s.opId ∈ P.fb) :
      UnitStep s (.hqFeedback d c) .ok (s.units.setPool c d (P.ack s.opId))
  | hqNack {d : Direction} {c : Nat} {P : Pool} (hc : c < s.cfg.numCtx)
      (hp : s.units.pool c d = some P) (hid : s.opId < P.cap) (hq : s.opId ∈ P.fb) :
      UnitStep s (.hqFeedback d c) .ok (s.units.setPool c d (P.nack s.opId))
  | hqTakeRetx {d : Direction} {c : Nat} {P : Pool} {i : Nat} {q : List Nat} (hc : c < s.cfg.numCtx)
      (hp : s.units.pool c d = some P) (hq : P.rt = i :: q) :
      UnitStep s (.hqTakeRetx d c) .ok (s.units.setPool c d (P.retake i))
  | hqResize {d : Direction} {c : Nat} {P : Pool} (hc : c < s.cfg.numCtx)
      (hp : s.units.pool c d = some P) (h1 : P.cap ≤ s.opCap) (hn : s.opCap ≤ s.cfg.nmax) :
      UnitStep s (.hqResize d c) .ok (s.units.setPool c d (P.grow s.opCap))
  | layoutSet {k : Nat} (hk : k < s.cfg.numLayouts) (hl : layoutLegal s.cfg.numRb s.opLayout = true) :
      UnitStep s (.ccpLayoutSet k) .ok
        { s.units with lay := put s.units.lay k (layoutStored s.opLayout) }
  | layoutDel {k : Nat} (hk : k < s.cfg.numLayouts) :
      UnitStep s (.ccpLayoutDel k) .ok { s.units with lay := drop s.units.lay k }
  | findMark {k : Nat} {l : Layout} {m : Nat} (hk : k < s.cfg.numLayouts)
      (hl : look s.units.lay k = some l) (hb : s.opBeam < s.cfg.numBeams) (hv : s.opLvl ≤ 4)
      (hn : 1 <<< s.opLvl ≤ Layout.nCce l) (hm : m < s.opM) :
      UnitStep s (.ccpFind true k) .ok
        (markCandidate s.cfg.cceMap l s.opBeam
          (firstCce (Layout.nCce l) (1 <<< s.opLvl) s.opM s.opY m) (1 <<< s.opLvl) s.units)
  | searchMark {k : Nat} {l : Layout} {v m : Nat} (hk : k < s.cfg.numLayouts)
      (hl : look s.units.lay k = some l) (hb : s.opBeam < s.cfg.numBeams)
      (hv : v ∈ levelOrder s.opCq) (hn : 1 <<< v ≤ Layout.nCce l) (hm : m < s.opMLevel v) :
      UnitStep s (.ccpSearch true k) .ok
        (markCandidate s.cfg.cceMap l s.opBeam
          (firstCce (Layout.nCce l) (1 <<< v) (s.opMLevel v) s.opY m) (1 <<< v) s.units)
  | ccpMark {k : Nat} {l : Layout} (hk : k < s.cfg.numLayouts) (hl : look s.units.lay k = some l)
      (hb : s.opBeam < s.cfg.numBeams) (hv : s.opLvl ≤ 4)
      (hm : s.opFirst % (1 <<< s.opLvl) = 0) (hn : s.opFirst + 1 <<< s.opLvl ≤ Layout.nCce l) :
      UnitStep s (.ccpMark k) .ok
        (markCandidate s.cfg.cceMap l s.opBeam s.opFirst (1 <<< s.opLvl) s.units)
  | occClearAll : UnitStep s (.occClear true) .ok { s.units with occ := [] }
  | occClearBeam (hb : s.opBeam < s.cfg.numBeams) :
      UnitStep s (.occClear false) .ok (clearBeam s.opBeam s.units)
  | occSet (hb : s.opBeam < s.cfg.numBeams) (hr : s.opRb + s.opRbCount ≤ s.cfg.numRb) :
      UnitStep s .occSet .ok (orRange s.opBeam s.opRb s.opRbCount s.opSymMask s.units)
  | genField {f : Nat} (hf : f < 64) (hw : s.opWidth.toNat ≤ 32) :
      UnitStep s (.genField f) .ok
        (s.units.setGen s.cur
          (writeAt slotClear (s.units.gen s.cur) f { val := s.opValue, wid := s.opWidth, wr := true }))
  | genEncode : UnitStep s .genEncode .ok (s.units.setGen s.cur [])
  | genClear : UnitStep s .genClear .ok (s.units.setGen s.cur [])
  | laInit {d : Direction} {c : Nat} (hc : c < s.cfg.numCtx) (h1 : s.opMin.toNat ≤ s.opMcs0.toNat)
      (h2 : s.opMcs0.toNat ≤ s.opMax.toNat) (h3 : s.opThrLo.toNat ≤ rateOne)
      (h4 : s.opThrHi.toNat ≤ rateOne) (h5 : s.opRate0.toNat ≤ rateOne) :
      UnitStep s (.laInit d c) .ok (s.units.setLaRec c d s.opRecord)
  | laEval {d : Direction} {c : Nat} {R : LaRec} (hc : c < s.cfg.numCtx)
      (hr : s.units.laRec c d = some R) (he : R.win.toNat ≤ elapsed R s.opNow) :
      UnitStep s (.laEval d c) .ok (s.units.setLaRec c d (evalRecord R s.opNow s.opTx s.opRetx))
  | bmConfig (h1 : s.opBd ≠ 0) (h2 : s.opAs ≠ 0) (h3 : s.opAs.toNat ≤ s.cfg.allocMax)
      (h4 : s.opNt ≠ 0) (h5 : s.opNt.toNat ≤ s.cfg.numTracks) :
      UnitStep s .bmConfig .ok
        { s.units with bma := some { bd := s.opBd, sz := s.opAs, nt := s.opNt }, bt := [] }
  | bmAlloc {b : BmaCfg} {t : Nat} (hb : s.units.bma = some b) (ht : t < b.nt.toNat)
      (hu : s.opUbeam ≠ btEmpty)
      (he : s.units.beam t (beamIndex b s.opFrame s.opSlot s.opSpf) = btEmpty) :
      UnitStep s .bmAlloc .ok
        (s.units.setBeam t (beamIndex b s.opFrame s.opSlot s.opSpf) s.opUbeam)
  | bmRelease {b : BmaCfg} (hb : s.units.bma = some b) (ht : s.opRelTrack < b.nt.toNat)
      (hw : s.opWasNew = true)
      (he : s.units.beam s.opRelTrack (beamIndex b s.opFrame s.opSlot s.opSpf) = s.opUbeam) :
      UnitStep s .bmRelease .ok
        (s.units.setBeam s.opRelTrack (beamIndex b s.opFrame s.opSlot s.opSpf) btEmpty)

/-- A command was aborted (R405), or it completed with a code that is not fatal (R400). -/
def ExecShape (i : Instr) (s t : State) : Prop :=
  (∃ code : RCode, code.isFatal = true ∧ t = fatalState code s) ∨
  (∃ (rc : RCode) (res : Vector Word 4) (u : Units),
    rc.isFatal = false ∧ t = complete rc res u s ∧ UnitStep s i rc u)

variable {s t : State} {i : Instr}

theorem ExecShape.fatal {code : RCode} (hf : code.isFatal = true) : ExecShape i s (fatalState code s) :=
  .inl ⟨code, hf, rfl⟩

theorem ExecShape.done {rc : RCode} {res : Vector Word 4} {u : Units} (hf : rc.isFatal = false)
    (h : UnitStep s i rc u) : ExecShape i s (complete rc res u s) :=
  .inr ⟨rc, res, u, hf, rfl, h⟩

theorem shape_ok {res : Vector Word 4} {u : Units} (h : finish .ok res u s = .next t)
    (hu : UnitStep s i .ok u) : ExecShape i s t := by
  rw [finish_eq_next] at h; subst h; exact .done (by decide) hu

theorem shape_same {rc : RCode} {res : Vector Word 4} (h : finish rc res s.units s = .next t)
    (hf : rc.isFatal = false) : ExecShape i s t := by
  rw [finish_eq_next] at h; subst h; exact .done hf .same

theorem shape_fatal {code : RCode} (h : fatal code s = .next t) (hf : code.isFatal = true) :
    ExecShape i s t := by
  rw [fatal_eq_next] at h; subst h; exact .fatal hf

theorem findLevel_some {map : CceMapParam} {l : Layout} {u : Units} {b lvl M Y first m tested : Nat}
    (h : findLevel map l u b lvl M Y = (some (first, m), tested)) :
    1 <<< lvl ≤ Layout.nCce l ∧ m < M ∧ first = firstCce (Layout.nCce l) (1 <<< lvl) M Y m ∧
      tested = m + 1 ∧ candidateFree map l u b first (1 <<< lvl) = true ∧
      ∀ k < m, candidateFree map l u b (firstCce (Layout.nCce l) (1 <<< lvl) M Y k) (1 <<< lvl) = false := by
  unfold findLevel at h
  simp only at h
  split at h
  · simp at h
  · rename_i hn
    split at h
    · rename_i k hk
      simp only [Prod.mk.injEq, Option.some.injEq] at h
      obtain ⟨⟨rfl, rfl⟩, rfl⟩ := h
      obtain ⟨hp, as, bs, hL, hno⟩ := List.find?_eq_some_iff_append.1 hk
      have hmem : k ∈ List.range M := by rw [hL]; simp
      have hlen : as.length = k := by
        have := congrArg (fun L => L[as.length]?) hL
        rw [List.getElem?_append_right (le_refl _)] at this
        simp only [Nat.sub_self, List.getElem?_cons_zero] at this
        have hlt : as.length < M := by
          by_contra hge
          rw [List.getElem?_eq_none (by simpa using hge)] at this; cases this
        rw [List.getElem?_range hlt] at this; exact Option.some.inj this
      have has : as = List.range k := by
        have := congrArg (List.take k) hL
        rw [List.take_range, List.take_append_of_le_length (by omega), List.take_of_length_le (by omega)] at this
        have hk' := List.mem_range.1 hmem
        rw [Nat.min_eq_left (by omega)] at this; exact this.symm
      refine ⟨by omega, List.mem_range.1 hmem, rfl, rfl, hp, fun j hj => ?_⟩
      simpa using hno j (by rw [has]; exact List.mem_range.2 hj)
    · simp at h

theorem findLevel_none {map : CceMapParam} {l : Layout} {u : Units} {b lvl M Y tested : Nat}
    (h : findLevel map l u b lvl M Y = (none, tested)) :
    ((M = 0 ∨ Layout.nCce l < 1 <<< lvl) ∧ tested = 0) ∨
    (1 <<< lvl ≤ Layout.nCce l ∧ tested = M ∧
      ∀ k < M, candidateFree map l u b (firstCce (Layout.nCce l) (1 <<< lvl) M Y k) (1 <<< lvl) = false) := by
  unfold findLevel at h
  simp only at h
  split at h
  · simp only [Prod.mk.injEq, true_and] at h; exact .inl ⟨‹_›, h.symm⟩
  · rename_i hn
    split at h
    · simp at h
    · rename_i hk
      simp only [Prod.mk.injEq, true_and] at h
      refine .inr ⟨by omega, h.symm, fun k hkM => ?_⟩
      simpa using List.find?_eq_none.1 hk k (List.mem_range.2 hkM)

theorem searchLevels_some {find : Nat → Option (Nat × Nat) × Nat} {vs : List Nat}
    {n v first m total : Nat} (h : searchLevels find vs n = (some (v, first, m), total)) :
    v ∈ vs ∧ ∃ tested, find v = (some (first, m), tested) := by
  induction vs generalizing n with
  | nil => simp [searchLevels] at h
  | cons a rest ih =>
    simp only [searchLevels] at h
    split at h
    · rename_i f' m' t' hf
      simp only [Prod.mk.injEq, Option.some.injEq] at h
      obtain ⟨⟨rfl, rfl, rfl⟩, rfl⟩ := h
      exact ⟨List.mem_cons_self .., _, hf⟩
    · obtain ⟨hv, ht⟩ := ih h
      exact ⟨List.mem_cons_of_mem _ hv, ht⟩

theorem scanTracks_some {u : Units} {nt idx t : Nat} {ub : BitVec 16}
    (h : scanTracks u nt idx ub = some t) : t < nt ∧ (u.beam t idx = ub ∨ u.beam t idx = btEmpty) := by
  unfold scanTracks at h
  have h1 := List.find?_some h
  have h2 := List.mem_of_find?_eq_some h
  exact ⟨List.mem_range.1 h2, by simpa using h1⟩

/-! ### One shape lemma per command -/

theorem shape_nop (h : execNop s = .next t) : ExecShape .nop s t := shape_ok h .same

theorem shape_ctxRelease {c : Nat} (h : execCtxRelease c s = .next t) : ExecShape (.ctxRelease c) s t := by
  rcases inContext_cases h with ⟨-, rfl⟩ | ⟨hc, h⟩
  · exact .fatal (by decide)
  · exact shape_ok h (.ctxRelease hc)

theorem shape_hqCreate {d : Direction} {c : Nat} (h : execHqCreate d c s = .next t) :
    ExecShape (.hqCreate d c) s t := by
  rcases inContext_cases h with ⟨-, rfl⟩ | ⟨hc, h⟩
  · exact .fatal (by decide)
  rcases check_cases h with ⟨-, rfl⟩ | ⟨hn, h⟩
  · exact .fatal (by decide)
  · exact shape_ok h (.hqCreate hc (by omega) (by omega))

theorem shape_hqTakeAvail {d : Direction} {c : Nat} (h : execHqTakeAvail d c s = .next t) :
    ExecShape (.hqTakeAvail d c) s t := by
  rcases withPool_cases h with ⟨code, hf, rfl⟩ | ⟨P, hc, hp, h⟩
  · exact .fatal hf
  split at h
  · exact shape_same h (by decide)
  · rename_i hq; exact shape_ok h (.hqTakeAvail hc hp hq)

theorem queueOf_av {P : Pool} {n : Nat} (h : P.queueOf n = .av) : n ∈ P.av := by
  unfold Pool.queueOf at h; split at h
  · assumption
  · split at h <;> cases h

theorem queueOf_fb {P : Pool} {n : Nat} (h : P.queueOf n = .fb) : n ∈ P.fb := by
  unfold Pool.queueOf at h; split at h
  · cases h
  · split at h
    · assumption
    · cases h

theorem shape_hqMarkFb {d : Direction} {c : Nat} (h : execHqMarkFb d c s = .next t) :
    ExecShape (.hqMarkFb d c) s t := by
  rcases withPool_cases h with ⟨code, hf, rfl⟩ | ⟨P, hc, hp, h⟩
  · exact .fatal hf
  rcases check_cases h with ⟨-, rfl⟩ | ⟨hi, h⟩
  · exact .fatal (by decide)
  split at h
  · rename_i hq; exact shape_ok h (.hqMarkAv hc hp (by omega) (queueOf_av hq))
  · rename_i hq; exact shape_ok h (.hqMarkFb hc hp (by omega) (queueOf_fb hq))
  · exact shape_fatal h (by decide)

theorem shape_hqFeedback {d : Direction} {c : Nat} (h : execHqFeedback d c s = .next t) :
    ExecShape (.hqFeedback d c) s t := by
  rcases withPool_cases h with ⟨code, hf, rfl⟩ | ⟨P, hc, hp, h⟩
  · exact .fatal hf
  rcases check_cases h with ⟨-, rfl⟩ | ⟨hi, h⟩
  · exact .fatal (by decide)
  rcases check_cases h with ⟨-, rfl⟩ | ⟨hq, h⟩
  · exact .fatal (by decide)
  have hq := queueOf_fb (not_not.1 hq)
  split at h
  · exact shape_ok h (.hqAck hc hp (by omega) hq)
  · exact shape_ok h (.hqNack hc hp (by omega) hq)

theorem shape_hqTakeRetx {d : Direction} {c : Nat} (h : execHqTakeRetx d c s = .next t) :
    ExecShape (.hqTakeRetx d c) s t := by
  rcases withPool_cases h with ⟨code, hf, rfl⟩ | ⟨P, hc, hp, h⟩
  · exact .fatal hf
  split at h
  · exact shape_same h (by decide)
  · rename_i hq; exact shape_ok h (.hqTakeRetx hc hp hq)

theorem shape_hqResize {d : Direction} {c : Nat} (h : execHqResize d c s = .next t) :
    ExecShape (.hqResize d c) s t := by
  rcases withPool_cases h with ⟨code, hf, rfl⟩ | ⟨P, hc, hp, h⟩
  · exact .fatal hf
  rcases check_cases h with ⟨-, rfl⟩ | ⟨h1, h⟩
  · exact .fatal (by decide)
  rcases check_cases h with ⟨-, rfl⟩ | ⟨h2, h⟩
  · exact .fatal (by decide)
  · exact shape_ok h (.hqResize hc hp (by omega) (by omega))

theorem shape_hqQuery {d : Direction} {c : Nat} (h : execHqQuery d c s = .next t) :
    ExecShape (.hqQuery d c) s t := by
  rcases withPool_cases h with ⟨code, hf, rfl⟩ | ⟨P, hc, hp, h⟩
  · exact .fatal hf
  rcases check_cases h with ⟨-, rfl⟩ | ⟨hi, h⟩
  · exact .fatal (by decide)
  · exact shape_same h (by decide)

theorem shape_hqStat {d : Direction} {c : Nat} (h : execHqStat d c s = .next t) :
    ExecShape (.hqStat d c) s t := by
  rcases withPool_cases h with ⟨code, hf, rfl⟩ | ⟨P, hc, hp, h⟩
  · exact .fatal hf
  · exact shape_same h (by decide)

theorem shape_ccpLayoutSet {k : Nat} (h : execCcpLayoutSet k s = .next t) :
    ExecShape (.ccpLayoutSet k) s t := by
  rcases inLayouts_cases h with ⟨-, rfl⟩ | ⟨hk, h⟩
  · exact .fatal (by decide)
  rcases check_cases h with ⟨-, rfl⟩ | ⟨hl, h⟩
  · exact .fatal (by decide)
  · exact shape_ok h (.layoutSet hk (by simpa using hl))

theorem shape_ccpLayoutDel {k : Nat} (h : execCcpLayoutDel k s = .next t) :
    ExecShape (.ccpLayoutDel k) s t := by
  rcases inLayouts_cases h with ⟨-, rfl⟩ | ⟨hk, h⟩
  · exact .fatal (by decide)
  · exact shape_ok h (.layoutDel hk)

theorem shape_ccpLayoutInfo {k : Nat} (h : execCcpLayoutInfo k s = .next t) :
    ExecShape (.ccpLayoutInfo k) s t := by
  rcases withLayout_cases h with ⟨code, hf, rfl⟩ | ⟨l, hk, hl, h⟩
  · exact .fatal hf
  · exact shape_same h (by decide)

theorem shape_ccpCceMap {k : Nat} (h : execCcpCceMap k s = .next t) : ExecShape (.ccpCceMap k) s t := by
  rcases withLayout_cases h with ⟨code, hf, rfl⟩ | ⟨l, hk, hl, h⟩
  · exact .fatal hf
  rcases check_cases h with ⟨-, rfl⟩ | ⟨-, h⟩
  · exact .fatal (by decide)
  · exact shape_same h (by decide)

theorem shape_ccpFind {m : Bool} {k : Nat} (h : execCcpFind m k s = .next t) :
    ExecShape (.ccpFind m k) s t := by
  rcases withLayout_cases h with ⟨code, hf, rfl⟩ | ⟨l, hk, hl, h⟩
  · exact .fatal hf
  rcases check_cases h with ⟨-, rfl⟩ | ⟨hb, h⟩
  · exact .fatal (by decide)
  rcases check_cases h with ⟨-, rfl⟩ | ⟨hv, h⟩
  · exact .fatal (by decide)
  rcases check_cases h with ⟨-, rfl⟩ | ⟨-, h⟩
  · exact .fatal (by decide)
  split at h
  · exact shape_same h (by decide)
  · rename_i first n tested hf
    obtain ⟨hn, hm, rfl, -, -, -⟩ := findLevel_some hf
    cases m
    · exact shape_ok h .same
    · exact shape_ok h (.findMark hk hl (by omega) (by omega) hn hm)

theorem shape_ccpSearch {m : Bool} {k : Nat} (h : execCcpSearch m k s = .next t) :
    ExecShape (.ccpSearch m k) s t := by
  rcases withLayout_cases h with ⟨code, hf, rfl⟩ | ⟨l, hk, hl, h⟩
  · exact .fatal hf
  rcases check_cases h with ⟨-, rfl⟩ | ⟨hb, h⟩
  · exact .fatal (by decide)
  rcases check_cases h with ⟨-, rfl⟩ | ⟨hv, h⟩
  · exact .fatal (by decide)
  rcases check_cases h with ⟨-, rfl⟩ | ⟨-, h⟩
  · exact .fatal (by decide)
  split at h
  · exact shape_same h (by decide)
  · rename_i v first n total hs
    obtain ⟨hv, tested, hf⟩ := searchLevels_some hs
    obtain ⟨hn, hm, rfl, -, -, -⟩ := findLevel_some hf
    cases m
    · exact shape_ok h .same
    · exact shape_ok h (.searchMark hk hl (by omega) hv hn hm)

theorem shape_ccpMark {k : Nat} (h : execCcpMark k s = .next t) : ExecShape (.ccpMark k) s t := by
  rcases withLayout_cases h with ⟨code, hf, rfl⟩ | ⟨l, hk, hl, h⟩
  · exact .fatal hf
  rcases check_cases h with ⟨-, rfl⟩ | ⟨hb, h⟩
  · exact .fatal (by decide)
  rcases check_cases h with ⟨-, rfl⟩ | ⟨hv, h⟩
  · exact .fatal (by decide)
  rcases check_cases h with ⟨-, rfl⟩ | ⟨hm, h⟩
  · exact .fatal (by decide)
  · exact shape_ok h (.ccpMark hk hl (by omega) (by omega) (by omega) (by omega))

theorem shape_occClear {a : Bool} (h : execOccClear a s = .next t) : ExecShape (.occClear a) s t := by
  unfold execOccClear at h
  cases a
  · rcases check_cases h with ⟨-, rfl⟩ | ⟨hb, h⟩
    · exact .fatal (by decide)
    · exact shape_ok h (.occClearBeam (by omega))
  · exact shape_ok h .occClearAll

theorem shape_occSet (h : execOccSet s = .next t) : ExecShape .occSet s t := by
  rcases check_cases h with ⟨-, rfl⟩ | ⟨hb, h⟩
  · exact .fatal (by decide)
  rcases check_cases h with ⟨-, rfl⟩ | ⟨hr, h⟩
  · exact .fatal (by decide)
  · exact shape_ok h (.occSet (by omega) (by omega))

theorem shape_occRead (h : execOccRead s = .next t) : ExecShape .occRead s t := by
  rcases check_cases h with ⟨-, rfl⟩ | ⟨hb, h⟩
  · exact .fatal (by decide)
  · exact shape_same h (by decide)

theorem shape_genField {f : Nat} (h : execGenField f s = .next t) : ExecShape (.genField f) s t := by
  unfold execGenField at h
  split at h
  · exact shape_fatal h (by decide)
  rcases check_cases h with ⟨-, rfl⟩ | ⟨hb, h⟩
  · exact .fatal (by decide)
  · exact shape_ok h (.genField (by omega) (by omega))

theorem shape_genEncode (h : execGenEncode s = .next t) : ExecShape .genEncode s t := by
  unfold execGenEncode at h
  split at h
  · exact shape_fatal h (by decide)
  split at h
  · exact shape_fatal h (by decide)
  rcases check_cases h with ⟨-, rfl⟩ | ⟨-, h⟩
  · exact .fatal (by decide)
  split at h
  · exact shape_fatal h (by decide)
  rcases check_cases h with ⟨-, rfl⟩ | ⟨-, h⟩
  · exact .fatal (by decide)
  · exact shape_ok h .genEncode

theorem shape_genClear (h : execGenClear s = .next t) : ExecShape .genClear s t := shape_ok h .genClear

theorem shape_laInit {d : Direction} {c : Nat} (h : execLaInit d c s = .next t) :
    ExecShape (.laInit d c) s t := by
  rcases inContext_cases h with ⟨-, rfl⟩ | ⟨hc, h⟩
  · exact .fatal (by decide)
  rcases check_cases h with ⟨-, rfl⟩ | ⟨hm, h⟩
  · exact .fatal (by decide)
  rcases check_cases h with ⟨-, rfl⟩ | ⟨hr, h⟩
  · exact .fatal (by decide)
  · exact shape_ok h (.laInit hc (by omega) (by omega) (by omega) (by omega) (by omega))

theorem shape_laEval {d : Direction} {c : Nat} (h : execLaEval d c s = .next t) :
    ExecShape (.laEval d c) s t := by
  rcases withRec_cases h with ⟨code, hf, rfl⟩ | ⟨R, hc, hr, h⟩
  · exact .fatal hf
  split at h
  · exact shape_same h (by decide)
  · exact shape_ok h (.laEval hc hr (by omega))

theorem shape_laRead {d : Direction} {sel : Bool} {c : Nat} (h : execLaRead d sel c s = .next t) :
    ExecShape (.laRead d sel c) s t := by
  rcases withRec_cases h with ⟨code, hf, rfl⟩ | ⟨R, hc, hr, h⟩
  · exact .fatal hf
  split at h
  · exact shape_same h (by decide)
  · exact shape_same h (by decide)

theorem shape_rbsFit (h : execRbsFit s = .next t) : ExecShape .rbsFit s t := by
  rcases check_cases h with ⟨-, rfl⟩ | ⟨-, h⟩
  · exact .fatal (by decide)
  · exact shape_same h (by split <;> decide)

theorem shape_bmConfig (h : execBmConfig s = .next t) : ExecShape .bmConfig s t := by
  rcases check_cases h with ⟨-, rfl⟩ | ⟨h1, h⟩
  · exact .fatal (by decide)
  rcases check_cases h with ⟨-, rfl⟩ | ⟨h2, h⟩
  · exact .fatal (by decide)
  rcases check_cases h with ⟨-, rfl⟩ | ⟨h3, h⟩
  · exact .fatal (by decide)
  push Not at h2 h3
  exact shape_ok h (.bmConfig h1 h2.1 h2.2 h3.1 h3.2)

theorem shape_bmAlloc (h : execBmAlloc s = .next t) : ExecShape .bmAlloc s t := by
  rcases withBma_cases h with ⟨code, hf, rfl⟩ | ⟨b, hb, h⟩
  · exact .fatal hf
  rcases check_cases h with ⟨-, rfl⟩ | ⟨-, h⟩
  · exact .fatal (by decide)
  rcases check_cases h with ⟨-, rfl⟩ | ⟨hu, h⟩
  · exact .fatal (by decide)
  dsimp only at h
  split at h
  · exact shape_same h (by decide)
  · rename_i tr hs
    obtain ⟨ht, hv⟩ := scanTracks_some hs
    split at h
    · exact shape_same h (by decide)
    · rename_i hne
      exact shape_ok h (.bmAlloc hb ht hu (hv.resolve_left hne))

theorem shape_bmRelease (h : execBmRelease s = .next t) : ExecShape .bmRelease s t := by
  rcases withBma_cases h with ⟨code, hf, rfl⟩ | ⟨b, hb, h⟩
  · exact .fatal hf
  rcases check_cases h with ⟨-, rfl⟩ | ⟨-, h⟩
  · exact .fatal (by decide)
  rcases check_cases h with ⟨-, rfl⟩ | ⟨-, h⟩
  · exact .fatal (by decide)
  rcases check_cases h with ⟨-, rfl⟩ | ⟨ht, h⟩
  · exact .fatal (by decide)
  dsimp only at h
  split at h
  · rename_i hw; exact shape_ok h (.bmRelease hb (by omega) hw.1 hw.2)
  · exact shape_same h (by decide)

theorem shape_bmRead (h : execBmRead s = .next t) : ExecShape .bmRead s t := by
  rcases withBma_cases h with ⟨code, hf, rfl⟩ | ⟨b, hb, h⟩
  · exact .fatal hf
  rcases check_cases h with ⟨-, rfl⟩ | ⟨-, h⟩
  · exact .fatal (by decide)
  · exact shape_same h (by decide)

/-- The shape of every command's next state. -/
theorem exec_shape (h : exec i s = .next t) : ExecShape i s t := by
  cases i
  · exact shape_nop h
  · exact shape_ctxRelease h
  · exact shape_hqCreate h
  · exact shape_hqTakeAvail h
  · exact shape_hqMarkFb h
  · exact shape_hqFeedback h
  · exact shape_hqTakeRetx h
  · exact shape_hqResize h
  · exact shape_hqQuery h
  · exact shape_hqStat h
  · exact shape_ccpLayoutSet h
  · exact shape_ccpLayoutDel h
  · exact shape_ccpLayoutInfo h
  · exact shape_ccpCceMap h
  · exact shape_ccpFind h
  · exact shape_ccpSearch h
  · exact shape_ccpMark h
  · exact shape_occClear h
  · exact shape_occSet h
  · exact shape_occRead h
  · exact shape_genField h
  · exact shape_genEncode h
  · exact shape_genClear h
  · exact shape_laInit h
  · exact shape_laEval h
  · exact shape_laRead h
  · exact shape_rbsFit h
  · exact shape_bmConfig h
  · exact shape_bmAlloc h
  · exact shape_bmRelease h
  · exact shape_bmRead h

end Sys2Proof.Machine
end

