-- ==== Sys2Proof/Laws/Grant.lean ====
section
/-! SUPPORT. The grant encoder's walk and packing against `Sys2Proof/Safety.lean`
(`43_grant_encoder.md` R294, R296). -/

namespace Sys2Proof.Machine

theorem variantHolds_iff (fmt : GrantFormat) (mode : AddrMode) (g : GenSlot) :
    variantHolds fmt mode g = true ↔ VariantTaken fmt mode g := by
  simp only [variantHolds, VariantTaken, GenSlot.masked, Bool.and_eq_true, decide_eq_true_eq, and_assoc]
  exact ⟨fun ⟨a, b, c, d⟩ => ⟨a, b, c, of_decide_eq_true d⟩,
    fun ⟨a, b, c, d⟩ => ⟨a, b, c, decide_eq_true d⟩⟩

/-- Every layout has a walk. -/
theorem walked_exists (variant fields : List FieldId) (taken : Prop) :
    ∃ seq tag, Walked variant fields taken seq tag := by
  by_cases h : taken ∧ fdraId ∈ fields
  · obtain ⟨pre, post, e, hn⟩ := List.eq_append_cons_of_mem h.2
    exact ⟨_, true, .inl ⟨rfl, h.1, pre, post, e, hn, rfl⟩⟩
  · exact ⟨fields, false, .inr ⟨rfl, by tauto, rfl⟩⟩

/-- The walk succeeds exactly when every walked field is staged, with the rules' sequence and tag. -/
theorem walkLayout_eq (slot : FieldId → GenSlot) (variant : List FieldId) (taken : Prop) (br : Bool)
    (hbr : br = true ↔ taken) (fields seq : List FieldId) (tag : Bool)
    (hw : Walked variant fields taken seq tag) :
    walkLayout slot br variant fields =
      if seq.all (fun f => (slot f).wr) then some (seq, tag) else none := by
  induction fields generalizing seq with
  | nil =>
    rcases hw with ⟨_, _, pre, post, h, _⟩ | ⟨rfl, _, rfl⟩
    · simp at h
    · rfl
  | cons f rest ih =>
    unfold walkLayout
    rcases hw with ⟨rfl, ht, pre, post, h, hno, rfl⟩ | ⟨rfl, hn, rfl⟩
    · cases pre with
      | nil =>
        simp only [List.nil_append, List.cons.injEq] at h
        obtain ⟨rfl, rfl⟩ := h
        simp only [List.nil_append, List.all_cons]
        by_cases h1 : (slot fdraId).wr = true
        · simp only [h1, if_true, hbr.2 ht, and_self]
          unfold walkPlain
          by_cases h2 : variant.all (fun f => (slot f).wr) = true
          · simp [h2]
          · simp [h2]
        · simp [h1]
      | cons a pre =>
        simp only [List.cons_append, List.cons.injEq] at h
        obtain ⟨rfl, rfl⟩ := h
        simp only [List.mem_cons, not_or] at hno
        rw [ih (pre ++ fdraId :: variant) (.inl ⟨rfl, ht, pre, post, rfl, hno.2, rfl⟩),
          if_neg (show ¬ (f = fdraId ∧ br = true) from fun h => hno.1 h.1.symm)]
        by_cases h1 : (slot f).wr = true
        · by_cases h2 : (pre ++ fdraId :: variant).all (fun f => (slot f).wr) = true
          · rw [if_pos h1, if_pos h2]; simp at h2; simp [h1]; exact h2
          · rw [if_pos h1, if_neg h2]; simp at h2; simp [h1]; exact h2
        · simp [h1]
    · have hf : ¬ (f = fdraId ∧ br = true) := by
        rintro ⟨rfl, h⟩
        rcases hn with hn | hn
        · exact hn (hbr.1 h)
        · simp at hn
      rw [ih rest (.inr ⟨rfl, hn.imp_right fun hn h => hn (List.mem_cons_of_mem _ h), rfl⟩), if_neg hf]
      by_cases h1 : (slot f).wr = true
      · by_cases h2 : rest.all (fun f => (slot f).wr) = true
        · rw [if_pos h1, if_pos h2]; simp at h2; simp [h1]; exact h2
        · rw [if_pos h1, if_neg h2]; simp at h2; simp [h1]; exact h2
      · simp [h1]

theorem contentBits_eq (slot : FieldId → GenSlot) (seq : List FieldId) :
    contentBits slot seq = widthSum slot seq := by
  induction seq with
  | nil => rfl
  | cons f r ih => simp only [contentBits, List.map_cons, List.sum_cons, widthSum] at *; rw [ih]

theorem fieldsValue_lt (slot : FieldId → GenSlot) (seq : List FieldId) :
    fieldsValue slot seq < 2 ^ widthSum slot seq := by
  induction seq with
  | nil => simp [fieldsValue, widthSum]
  | cons f r ih =>
    simp only [fieldsValue, widthSum]
    have h1 : (slot f).val.toNat % 2 ^ (slot f).wid.toNat < 2 ^ (slot f).wid.toNat :=
      Nat.mod_lt _ (Nat.two_pow_pos _)
    have h2 := Nat.mul_le_mul_right (2 ^ widthSum slot r) h1
    rw [Nat.succ_mul] at h2
    rw [Nat.pow_add]
    omega

theorem packFields_eq (slot : FieldId → GenSlot) (seq : List FieldId) :
    packFields slot seq = fieldsValue slot seq := by
  have key : ∀ v, seq.foldl (fun v f => v <<< (slot f).wid.toNat ||| (slot f).masked) v =
      v * 2 ^ widthSum slot seq + fieldsValue slot seq := by
    induction seq with
    | nil => simp [widthSum, fieldsValue]
    | cons f r ih =>
      intro v
      rw [List.foldl_cons, ih]
      simp only [widthSum, fieldsValue]
      have h1 : v <<< (slot f).wid.toNat ||| (slot f).masked =
          v * 2 ^ (slot f).wid.toNat + (slot f).masked := by
        unfold GenSlot.masked
        rw [← Nat.shiftLeft_add_eq_or_of_lt (Nat.mod_lt _ (Nat.two_pow_pos _)), Nat.shiftLeft_eq]
      rw [h1, Nat.pow_add]
      unfold GenSlot.masked
      ring
  have h := key 0
  rw [Nat.zero_mul, Nat.zero_add] at h
  exact h

end Sys2Proof.Machine
end

