-- ==== Sys2Proof/Laws/Outcome.lean ====
section
/-! SUPPORT. How a command's outcome reads in the terms of `Sys2Proof/Safety.lean`: a completion, a
fatal result, and what an update of one unit array leaves alone. -/

namespace Sys2Proof.Machine

variable {s : State} {i : Instr}

/-! ### Numbers put together from fields -/

theorem or_shiftLeft_8 {a b : Nat} (h : a < 2 ^ 8) : a ||| b <<< 8 = a + b * 2 ^ 8 := by
  rw [Nat.or_comm, ← Nat.shiftLeft_add_eq_or_of_lt h, Nat.shiftLeft_eq, Nat.add_comm]

theorem or_shiftLeft_16 {a b : Nat} (h : a < 2 ^ 16) : a ||| b <<< 16 = a + b * 2 ^ 16 := by
  rw [Nat.or_comm, ← Nat.shiftLeft_add_eq_or_of_lt h, Nat.shiftLeft_eq, Nat.add_comm]

theorem or_shiftLeft_24 {a b : Nat} (h : a < 2 ^ 24) : a ||| b <<< 24 = a + b * 2 ^ 24 := by
  rw [Nat.or_comm, ← Nat.shiftLeft_add_eq_or_of_lt h, Nat.shiftLeft_eq, Nat.add_comm]

theorem errCodeWord_toNat (code : RCode) (w : Word) (p : PortId) :
    (errCodeWord code w p).toNat = code.toByte.toNat + w.toNat / 2 ^ 24 * 256 + p.toNat * 65536 := by
  have hw := w.isLt
  have h1 : field w 24 8 = w.toNat / 2 ^ 24 := by rw [field_eq]; omega
  have hf : w.toNat / 2 ^ 24 < 256 := by omega
  have hc := code.toByte.isLt
  have hp : p.toNat ≤ 1 := by cases p <;> decide
  rw [errCodeWord, h1, or_shiftLeft_8 hc, or_shiftLeft_16 (by omega), BitVec.toNat_ofNat]
  omega

/-! ### Completion and fatal result -/

theorem keptOutside_complete (s : State) (rc : RCode) (res : Vector Word 4) (u : Units) :
    KeptOutside s (complete rc res u s) where
  other := fun p h => complete_port_other (s := s) (q := p) rc res u h
  holdOwner := by simp
  cfg := by simp
  cur := by simp
  agenda := by simp
  resp := by simp
  pick := by simp
  fair := by simp

theorem keptOutside_fatalState (s : State) (code : RCode) : KeptOutside s (fatalState code s) where
  other := fun p h => fatalState_port_other (s := s) (code := code) (q := p) h
  holdOwner := by simp
  cfg := by simp
  cur := by simp
  agenda := by simp
  resp := by simp
  pick := by simp
  fair := by simp

theorem completedWith_complete (s : State) (rc : RCode) (res : Vector Word 4) (u : Units) :
    CompletedWith s (complete rc res u s) rc res :=
  ⟨by simp, by simp, keptOutside_complete ..⟩

theorem abortedWith_fatalState (s : State) (code : RCode) : AbortedWith s (fatalState code s) code where
  port := by rw [fatalState_port]; congr 1
  units := by simp
  fatal := by simp [latch]
  multi := by simp [latch]
  first := fun h => by
    simp only [fatalState_greg, latch, h]
    exact ⟨by simp, by simpa using errCodeWord_toNat ..⟩
  later := fun h => by simp [latch, h]
  count := by
    simp only [fatalState_greg, latch, countUp, BitVec.toNat_ofNat]
    have := s.greg.errCount.isLt
    omega
  status := by simp [latch, fatalBit]
  enable := by simp [latch]
  kept := keptOutside_fatalState ..

theorem aborts_of_fatal {code : RCode} (h : exec i s = fatal code s) : Aborts i s code :=
  ⟨_, h, abortedWith_fatalState s code⟩

/-- A command that ends with `finish` completes with that code and those results. -/
theorem completes_of_finish {rc : RCode} {res : Vector Word 4} {u : Units} {Q : State → Prop}
    (h : exec i s = finish rc res u s) (hq : Q (complete rc res u s)) :
    ∃ t, exec i s = .next t ∧ CompletedWith s t rc res ∧ Q t :=
  ⟨_, h, completedWith_complete .., hq⟩

/-! ### What an update of one unit array leaves alone -/

theorem onlyPool_setPool (u : Units) (c : Nat) (d : Direction) (P : Pool) :
    OnlyPool c d u (u.setPool c d P) :=
  ⟨rfl, fun _ _ h => pool_setPool_other h⟩

theorem onlyRec_setLaRec (u : Units) (c : Nat) (d : Direction) (R : LaRec) :
    OnlyRec c d u (u.setLaRec c d R) :=
  ⟨rfl, fun _ _ h => laRec_setLaRec_other h⟩

theorem onlyGen_setGen (u : Units) (p : PortId) (g : Sparse GenSlot) : OnlyGen p u (u.setGen p g) := by
  cases p <;> rfl

theorem slot_setGen_self (u : Units) (p : PortId) (g : Sparse GenSlot) (f : Nat) :
    (u.setGen p g).slot p f = readAt slotClear g f := by
  simp [Units.slot]

theorem onlyOcc_foldl_orMask (L : List Nat) (b : Nat) (m : BitVec 14) (u : Units) :
    OnlyOcc u (L.foldl (fun v r => v.orMask b r m) u) := by
  induction L generalizing u with
  | nil => rfl
  | cons a L ih =>
    have h := ih (u.orMask b a m)
    unfold OnlyOcc at h ⊢
    rw [List.foldl_cons, h]
    rfl

/-- ORing a mask into a list of resource blocks of beam `b`, entry by entry. -/
theorem mask_foldl_orMask (b : Nat) (m : BitVec 14) (L : List Nat) (hL : ∀ r ∈ L, r < 65536)
    (u : Units) (b' r : Nat) (hr : r < 65536) :
    (L.foldl (fun v r => v.orMask b r m) u).mask b' r =
      if b' = b ∧ r ∈ L then u.mask b' r ||| m else u.mask b' r := by
  induction L generalizing u with
  | nil => simp
  | cons a L ih =>
    rw [List.foldl_cons, ih (fun x hx => hL x (by simp [hx])), mask_orMask (hL a (by simp)) hr]
    by_cases hb : b' = b <;> by_cases h1 : r = a <;> by_cases h2 : r ∈ L <;> simp [hb, h1, h2]
    all_goals (subst h1; simp [h2, BitVec.or_assoc])

theorem mask_clearBeam (b : Nat) (u : Units) (b' r : Nat) (hr : r < 65536) :
    (clearBeam b u).mask b' r = if b' = b then 0 else u.mask b' r := by
  simp only [Units.mask, clearBeam]
  rw [readAt_dropAll]
  have : pairKey b' r / 65536 = b' := by unfold pairKey; omega
  simp [this]

/-! ### Entries of an updated sparse array -/

theorem mem_drop {α : Type} {m : Sparse α} {k : Nat} {e : Nat × α} (h : e ∈ drop m k) : e ∈ m :=
  List.mem_of_mem_filter h

theorem mem_dropAll {α : Type} {m : Sparse α} {bad : Nat → Bool} {e : Nat × α}
    (h : e ∈ dropAll m bad) : e ∈ m :=
  List.mem_of_mem_filter h

theorem mem_writeAt {α : Type} [DecidableEq α] {d v : α} {m : Sparse α} {k : Nat} {e : Nat × α}
    (h : e ∈ writeAt d m k v) : (e = (k, v) ∧ v ≠ d) ∨ e ∈ m := by
  unfold writeAt at h
  split at h
  · exact .inr (mem_drop h)
  · rcases mem_put _ _ _ h with h | h
    · exact .inl ⟨h, by assumption⟩
    · exact .inr h

end Sys2Proof.Machine
end

