-- ==== Sys2Proof/Laws/PerInstr.lean ====
section
/-! SUPPORT. The family RowMatch: every well-formed command's word matches the row of its mnemonic
in the opcode map (`30_encoding.md` R121). -/

namespace Sys2Proof.Laws

open Sys2Proof.Machine

/-- The command's word matches its row: (w & mask) = match. -/
def RowMatch.Statement (i : Instr) : Prop :=
  i.wf = true →
    ∃ row ∈ opcodeTable, row.mnemonic = mnemonicOf i ∧ encode i &&& row.mask = row.bits

theorem mkWord_append {o f x : Nat} (ho : o < 256) (hf : f < 256) (hx : x < 65536) :
    mkWord o f x = (BitVec.ofNat 8 o ++ BitVec.ofNat 8 f ++ BitVec.ofNat 16 x : BitVec 32) := by
  apply BitVec.eq_of_toNat_eq
  rw [mkWord_toNat ho hf hx, BitVec.toNat_append, BitVec.toNat_append,
    ← Nat.shiftLeft_add_eq_or_of_lt (BitVec.isLt _), ← Nat.shiftLeft_add_eq_or_of_lt (BitVec.isLt _)]
  simp only [BitVec.toNat_ofNat, Nat.shiftLeft_eq]
  omega

/-- A mask that covers no INDEX bit only sees OPC and FLAGS. -/
theorem mkWord_and_noIndex {o f x : Nat} (om fm : BitVec 8) (ho : o < 256) (hf : f < 256)
    (hx : x < 65536) :
    mkWord o f x &&& (om ++ fm ++ (0 : BitVec 16) : BitVec 32) = mkWord o f 0 &&& (om ++ fm ++ (0 : BitVec 16) : BitVec 32) := by
  rw [mkWord_append ho hf hx, mkWord_append ho hf (by decide)]
  apply BitVec.eq_of_getLsbD_eq
  intro i _
  simp only [BitVec.getLsbD_and, BitVec.getLsbD_append]
  split <;> simp

theorem dirCode_lt (d : Direction) : d.code < 256 := by cases d <;> decide

theorem flagNat_lt (b : Bool) : flagNat b < 256 := by cases b <;> decide

theorem indexed_match (o f x : Nat) (om fm : BitVec 8) (r : Word) (ho : o < 256) (hf : f < 256)
    (hx : decide (x < 65536) = true)
    (h : mkWord o f 0 &&& (om ++ fm ++ (0 : BitVec 16) : BitVec 32) = r) :
    mkWord o f x &&& (om ++ fm ++ (0 : BitVec 16) : BitVec 32) = r := by
  rw [mkWord_and_noIndex om fm ho hf (of_decide_eq_true hx), h]

namespace RowMatch

theorem nop : Statement .nop := fun _ => ⟨opcodeTable[0], by decide, rfl, by decide⟩
theorem ctxRelease (c : Nat) : Statement (.ctxRelease c) := fun h =>
  ⟨opcodeTable[1], by decide, rfl, indexed_match 0x01 0 c 0xFF 0xFF _ (by decide) (by decide) h (by decide)⟩
theorem hqCreate (d : Direction) (c : Nat) : Statement (.hqCreate d c) := fun h =>
  ⟨opcodeTable[2], by decide, rfl, indexed_match 0x10 d.code c 0xFF 0xFE _ (by decide) (dirCode_lt d) h (by cases d <;> decide)⟩
theorem hqTakeAvail (d : Direction) (c : Nat) : Statement (.hqTakeAvail d c) := fun h =>
  ⟨opcodeTable[3], by decide, rfl, indexed_match 0x11 d.code c 0xFF 0xFE _ (by decide) (dirCode_lt d) h (by cases d <;> decide)⟩
theorem hqMarkFb (d : Direction) (c : Nat) : Statement (.hqMarkFb d c) := fun h =>
  ⟨opcodeTable[4], by decide, rfl, indexed_match 0x12 d.code c 0xFF 0xFE _ (by decide) (dirCode_lt d) h (by cases d <;> decide)⟩
theorem hqFeedback (d : Direction) (c : Nat) : Statement (.hqFeedback d c) := fun h =>
  ⟨opcodeTable[5], by decide, rfl, indexed_match 0x13 d.code c 0xFF 0xFE _ (by decide) (dirCode_lt d) h (by cases d <;> decide)⟩
theorem hqTakeRetx (d : Direction) (c : Nat) : Statement (.hqTakeRetx d c) := fun h =>
  ⟨opcodeTable[6], by decide, rfl, indexed_match 0x14 d.code c 0xFF 0xFE _ (by decide) (dirCode_lt d) h (by cases d <;> decide)⟩
theorem hqResize (d : Direction) (c : Nat) : Statement (.hqResize d c) := fun h =>
  ⟨opcodeTable[7], by decide, rfl, indexed_match 0x15 d.code c 0xFF 0xFE _ (by decide) (dirCode_lt d) h (by cases d <;> decide)⟩
theorem hqQuery (d : Direction) (c : Nat) : Statement (.hqQuery d c) := fun h =>
  ⟨opcodeTable[8], by decide, rfl, indexed_match 0x16 d.code c 0xFF 0xFE _ (by decide) (dirCode_lt d) h (by cases d <;> decide)⟩
theorem hqStat (d : Direction) (c : Nat) : Statement (.hqStat d c) := fun h =>
  ⟨opcodeTable[9], by decide, rfl, indexed_match 0x17 d.code c 0xFF 0xFE _ (by decide) (dirCode_lt d) h (by cases d <;> decide)⟩
theorem ccpLayoutSet (k : Nat) : Statement (.ccpLayoutSet k) := fun h =>
  ⟨opcodeTable[10], by decide, rfl, indexed_match 0x20 0 k 0xFF 0xFF _ (by decide) (by decide) h (by decide)⟩
theorem ccpLayoutDel (k : Nat) : Statement (.ccpLayoutDel k) := fun h =>
  ⟨opcodeTable[11], by decide, rfl, indexed_match 0x21 0 k 0xFF 0xFF _ (by decide) (by decide) h (by decide)⟩
theorem ccpLayoutInfo (k : Nat) : Statement (.ccpLayoutInfo k) := fun h =>
  ⟨opcodeTable[12], by decide, rfl, indexed_match 0x22 0 k 0xFF 0xFF _ (by decide) (by decide) h (by decide)⟩
theorem ccpCceMap (k : Nat) : Statement (.ccpCceMap k) := fun h =>
  ⟨opcodeTable[13], by decide, rfl, indexed_match 0x23 0 k 0xFF 0xFF _ (by decide) (by decide) h (by decide)⟩
theorem ccpFind (m : Bool) (k : Nat) : Statement (.ccpFind m k) := fun h =>
  ⟨opcodeTable[14], by decide, rfl, indexed_match 0x24 (flagNat m) k 0xFF 0xFE _ (by decide) (flagNat_lt m) h (by cases m <;> decide)⟩
theorem ccpSearch (m : Bool) (k : Nat) : Statement (.ccpSearch m k) := fun h =>
  ⟨opcodeTable[15], by decide, rfl, indexed_match 0x25 (flagNat m) k 0xFF 0xFE _ (by decide) (flagNat_lt m) h (by cases m <;> decide)⟩
theorem ccpMark (k : Nat) : Statement (.ccpMark k) := fun h =>
  ⟨opcodeTable[16], by decide, rfl, indexed_match 0x26 0 k 0xFF 0xFF _ (by decide) (by decide) h (by decide)⟩
theorem occClear (a : Bool) : Statement (.occClear a) := fun _ =>
  ⟨opcodeTable[17], by decide, rfl, by cases a <;> decide⟩
theorem occSet : Statement .occSet := fun _ => ⟨opcodeTable[18], by decide, rfl, by decide⟩
theorem occRead : Statement .occRead := fun _ => ⟨opcodeTable[19], by decide, rfl, by decide⟩
theorem genField (f : Nat) : Statement (.genField f) := fun h =>
  ⟨opcodeTable[20], by decide, rfl, indexed_match 0x30 0 f 0xFF 0xFF _ (by decide) (by decide) h (by decide)⟩
theorem genEncode : Statement .genEncode := fun _ => ⟨opcodeTable[21], by decide, rfl, by decide⟩
theorem genClear : Statement .genClear := fun _ => ⟨opcodeTable[22], by decide, rfl, by decide⟩
theorem laInit (d : Direction) (c : Nat) : Statement (.laInit d c) := fun h =>
  ⟨opcodeTable[23], by decide, rfl, indexed_match 0x40 d.code c 0xFF 0xFE _ (by decide) (dirCode_lt d) h (by cases d <;> decide)⟩
theorem laEval (d : Direction) (c : Nat) : Statement (.laEval d c) := fun h =>
  ⟨opcodeTable[24], by decide, rfl, indexed_match 0x41 d.code c 0xFF 0xFE _ (by decide) (dirCode_lt d) h (by cases d <;> decide)⟩
theorem laRead (d : Direction) (sel : Bool) (c : Nat) : Statement (.laRead d sel c) := fun h =>
  ⟨opcodeTable[25], by decide, rfl, indexed_match 0x42 (d.code + 2 * flagNat sel) c 0xFF 0xFC _ (by decide)
    (by cases d <;> cases sel <;> decide) h (by cases d <;> cases sel <;> decide)⟩
theorem rbsFit : Statement .rbsFit := fun _ => ⟨opcodeTable[26], by decide, rfl, by decide⟩
theorem bmConfig : Statement .bmConfig := fun _ => ⟨opcodeTable[27], by decide, rfl, by decide⟩
theorem bmAlloc : Statement .bmAlloc := fun _ => ⟨opcodeTable[28], by decide, rfl, by decide⟩
theorem bmRelease : Statement .bmRelease := fun _ => ⟨opcodeTable[29], by decide, rfl, by decide⟩
theorem bmRead : Statement .bmRead := fun _ => ⟨opcodeTable[30], by decide, rfl, by decide⟩

end RowMatch

end Sys2Proof.Laws
end

