-- ==== Sys2Proof/Laws/Placer.lean ====
section
/-! SUPPORT. The control-channel placer against `Sys2Proof/Safety.lean`: the figures of a legal
layout, where the mapping can land, and what one search level answers. -/

namespace Sys2Proof.Machine

variable {n : Nat} {l : Layout}

/-! ### The groups of a layout (`42_cce_placer.md` R232) -/

theorem mem_groups (l : Layout) (g : Nat) : g ∈ Layout.groups l ↔ g < 45 ∧ l.fmask.getLsbD g = true := by
  simp [Layout.groups]

theorem groups_sorted (l : Layout) : (Layout.groups l).Pairwise (· < ·) :=
  List.Pairwise.filter _ List.pairwise_lt_range

theorem length_groups (l : Layout) : (Layout.groups l).length = groupCount l := by
  simp [Layout.groups, groupCount, List.countP_eq_length_filter]

theorem groupCount_le (l : Layout) : groupCount l ≤ 45 := by
  unfold groupCount
  exact List.countP_le_length.trans (by simp)

theorem groups_ne_nil (h : l.fmask ≠ 0) : Layout.groups l ≠ [] := by
  intro hn
  apply h
  apply BitVec.eq_of_getLsbD_eq
  intro i hi
  have : i ∉ Layout.groups l := by rw [hn]; simp
  rw [mem_groups] at this
  simp
  simpa [hi] using this

theorem getLastD_max {L : List Nat} (hs : L.Pairwise (· < ·)) (hn : L ≠ []) :
    L.getLastD 0 ∈ L ∧ ∀ g ∈ L, g ≤ L.getLastD 0 := by
  have e : L.getLastD 0 = L.getLast hn := by
    rw [List.getLastD_eq_getLast?, List.getLast?_eq_getLast_of_ne_nil hn]; rfl
  rw [e]
  refine ⟨List.getLast_mem hn, fun g hg => ?_⟩
  rw [← List.dropLast_append_getLast hn] at hs hg
  rw [List.pairwise_append] at hs
  rcases List.mem_append.1 hg with h | h
  · exact (hs.2.2 g h _ (by simp)).le
  · simp at h; exact h.le

theorem headD_min {L : List Nat} (hs : L.Pairwise (· < ·)) (hn : L ≠ []) :
    L.headD 0 ∈ L ∧ ∀ g ∈ L, L.headD 0 ≤ g := by
  cases L with
  | nil => exact absurd rfl hn
  | cons a L => simp at hs ⊢; exact fun x hx => (hs.1 x hx).le

theorem nRb_eq (l : Layout) : Layout.nRb l = 6 * groupCount l := by
  simp [Layout.nRb, length_groups]

theorem nReg_eq (l : Layout) : Layout.nReg l = 6 * groupCount l * l.dur.toNat := by
  rw [Layout.nReg, nRb_eq]

theorem nCce_eq (l : Layout) : Layout.nCce l = cceCount l := by
  unfold Layout.nCce cceCount
  have e : Layout.nReg l = 6 * (groupCount l * l.dur.toNat) := by rw [nReg_eq, Nat.mul_assoc]
  rw [e]
  simp

theorem symmask_eq (l : Layout) : Layout.symmask l = symbolMask l := by
  unfold Layout.symmask symbolMask
  simp [Nat.shiftLeft_eq]

/-! ### Legality (R231) -/

theorem layoutLegal_iff (n : Nat) (l : Layout) : layoutLegal n l = true ↔ LegalLayout n l := by
  unfold layoutLegal LegalLayout
  simp only [Bool.and_eq_true, decide_eq_true_eq, Bool.or_eq_true, Bool.not_eq_true', and_assoc]
  by_cases h0 : l.fmask = 0
  · simp [h0]
  obtain ⟨hm, hmax⟩ := getLastD_max (groups_sorted l) (groups_ne_nil h0)
  have hlast : Layout.rbLast l < n ↔
      ∀ g, g < 45 → l.fmask.getLsbD g = true → l.rbOffset.toNat + 6 * g + 5 < n := by
    unfold Layout.rbLast
    constructor
    · intro h g h1 h2
      have := hmax g ((mem_groups l g).2 ⟨h1, h2⟩)
      omega
    · intro h
      exact h _ ((mem_groups l _).1 hm).1 ((mem_groups l _).1 hm).2
  rw [hlast, nReg_eq]
  cases l.il <;> simp

theorem layoutStored_ok (h : LegalLayout n l) : LayoutOk n (layoutStored l) := by
  unfold LayoutOk LegalLayout layoutStored groupCount at *
  obtain ⟨h1, h2, h3, h4, h5, h6⟩ := h
  refine ⟨⟨h1, h2, h3, h4, ?_, h6⟩, ?_⟩
  · intro hil; simp at hil; simpa [hil] using h5 hil
  · intro hil; simp at hil; simp [hil]

/-! ### The mapping of a legal layout (R236, R237) -/

theorem dur_bundle (h : LayoutOk n l) : 1 ≤ l.dur.toNat ∧ l.dur.toNat ≤ 3 ∧
    ((l.bundle.toNat = 2 ∧ l.dur.toNat ≤ 2) ∨ (l.bundle.toNat = 3 ∧ l.dur.toNat = 3) ∨
      l.bundle.toNat = 6) := by
  obtain ⟨⟨-, h2, h3, -, h5, -⟩, h7⟩ := h
  refine ⟨h2, h3, ?_⟩
  cases hil : l.il
  · have := h7 hil
    rw [this]
    exact .inr (.inr (by decide))
  · have := (h5 hil).1
    omega

theorem bundle_eq_width_mul (h : LayoutOk n l) : l.bundle.toNat = Layout.width l * l.dur.toNat ∧
    (Layout.width l = 1 ∨ Layout.width l = 2 ∨ Layout.width l = 3 ∨ Layout.width l = 6) := by
  obtain ⟨a, b, c⟩ := dur_bundle h
  unfold Layout.width
  have : l.dur.toNat = 1 ∨ l.dur.toNat = 2 ∨ l.dur.toNat = 3 := by omega
  rcases c with ⟨c, d⟩ | ⟨c, d⟩ | c <;> rcases this with e | e | e <;> simp [c, e] <;> omega

theorem nBundle_mul (h : LayoutOk n l) : Layout.nBundle l * Layout.width l = Layout.nRb l ∧
    Layout.nBundle l * l.bundle.toNat = Layout.nReg l := by
  obtain ⟨hb, hc⟩ := bundle_eq_width_mul h
  obtain ⟨a, -, -⟩ := dur_bundle h
  have hdvd : l.bundle.toNat ∣ Layout.nReg l := by
    have : Layout.width l ∣ 6 := by rcases hc with e | e | e | e <;> rw [e] <;> decide
    obtain ⟨k, hk⟩ := this
    refine ⟨k * groupCount l, ?_⟩
    rw [nReg_eq, hb, hk]
    ring
  have m2 : Layout.nBundle l * l.bundle.toNat = Layout.nReg l := Nat.div_mul_cancel hdvd
  refine ⟨?_, m2⟩
  have : Layout.nBundle l * Layout.width l * l.dur.toNat = Layout.nRb l * l.dur.toNat := by
    rw [mul_assoc, ← hb, m2, Layout.nReg]
  exact Nat.eq_of_mul_eq_mul_right (by omega) this

theorem interleave_lt {x : Nat} (hx : x < Layout.nBundle l) : interleave l x < Layout.nBundle l := by
  unfold interleave
  split
  · exact Nat.mod_lt _ (by omega)
  · exact hx

/-! What is read of a layout that is not interleaved (R233) -/

section
variable (R : BitVec 3) (sh : BitVec 9) (m : CceMapParam)

theorem layoutRead_plain (h : l.il = false) :
    layoutRead { l with ilv := R, shift := sh } = layoutRead l := by simp [layoutRead, h]

theorem setRb_plain (h : l.il = false) (x i : Nat) :
    setRb m { l with ilv := R, shift := sh } x i = setRb m l x i := by
  cases m with
  | protocol => simp [setRb, interleave, h, Layout.width]
  | given => simp only [setRb, layoutRead_plain R sh h]; rfl

theorem candidateRbs_plain (h : l.il = false) (first n : Nat) :
    candidateRbs m { l with ilv := R, shift := sh } first n = candidateRbs m l first n := by
  have hb (x : Nat) : bundleRbs m { l with ilv := R, shift := sh } x = bundleRbs m l x := by
    simp only [bundleRbs, setRb_plain R sh m h]; rfl
  have hc (j : Nat) : cceBundles { l with ilv := R, shift := sh } j = cceBundles l j := rfl
  simp only [candidateRbs, hb, hc]
end

theorem setRb_lt (h : LayoutOk n l) (m : CceMapParam) {x i : Nat} (hx : x < Layout.nBundle l)
    (hi : i < Layout.width l) : setRb m l x i < Layout.nRb l := by
  obtain ⟨h1, -⟩ := nBundle_mul h
  cases m with
  | protocol =>
    unfold setRb
    dsimp only
    have := interleave_lt hx
    rw [← h1]
    have : (interleave l x + 1) * Layout.width l ≤ Layout.nBundle l * Layout.width l :=
      Nat.mul_le_mul_right _ (by omega)
    rw [Nat.add_mul] at this
    omega
  | given => exact Nat.mod_lt _ (by rw [← h1]; exact Nat.mul_pos (by omega) (by omega))

theorem absRb_lt (h : LayoutOk n l) {i : Nat} (hi : i < Layout.nRb l) : absRb l i < n := by
  obtain ⟨⟨-, -, -, -, -, h6⟩, -⟩ := h
  unfold absRb
  have hk : i / 6 < (Layout.groups l).length := by unfold Layout.nRb at hi; omega
  have : (Layout.groups l).getD (i / 6) 0 ∈ Layout.groups l := by
    rw [List.getD_eq_getElem?_getD, List.getElem?_eq_getElem hk]
    exact List.getElem_mem _
  have hg := (mem_groups l _).1 this
  have := h6 _ hg.1 hg.2
  omega

theorem cceBundles_lt (h : LayoutOk n l) {j x : Nat} (hj : j < Layout.nCce l)
    (hx : x ∈ cceBundles l j) : x < Layout.nBundle l := by
  obtain ⟨-, h2⟩ := nBundle_mul h
  obtain ⟨-, -, c⟩ := dur_bundle h
  have : Layout.nCce l * 6 = Layout.nReg l := by rw [nCce_eq, cceCount, nReg_eq]; ring
  simp only [cceBundles, List.mem_map, List.mem_range] at hx
  obtain ⟨t, ht, rfl⟩ := hx
  rcases c with ⟨c, d⟩ | ⟨c, d⟩ | c <;> rw [c] at h2 ht ⊢ <;> omega

/-- A candidate of a legal layout touches resource blocks of the carrier only. -/
theorem candidateRbs_lt (h : LayoutOk n l) {m : CceMapParam} {first k r : Nat}
    (hf : first + k ≤ Layout.nCce l) (hr : r ∈ candidateRbs m l first k) : r < n := by
  simp only [candidateRbs, List.mem_flatMap, List.mem_range'_1, bundleRbs, List.mem_map,
    List.mem_range] at hr
  obtain ⟨j, hj, x, hx, i, hi, rfl⟩ := hr
  exact absRb_lt h (setRb_lt h m (cceBundles_lt h (by omega) hx) hi)

/-- A candidate lies within the CCEs (R238). -/
theorem firstCce_le {n L M Y m : Nat} (hL : 0 < L) (hn : L ≤ n) : firstCce n L M Y m + L ≤ n := by
  unfold firstCce
  have h1 : (Y + m * n / (L * M)) % (n / L) < n / L := Nat.mod_lt _ (Nat.div_pos hn hL)
  have h2 : L * ((Y + m * n / (L * M)) % (n / L) + 1) ≤ L * (n / L) := Nat.mul_le_mul_left _ h1
  have h3 := Nat.mul_div_le n L
  rw [Nat.mul_add] at h2
  omega

theorem firstCce_eq (l : Layout) (L M Y m : Nat) :
    firstCce (Layout.nCce l) L M Y m = candidateFirst l L M Y m := by
  unfold firstCce candidateFirst
  rw [nCce_eq]

/-! ### Marking and searching (R239-R241, R245) -/

theorem marked_markCandidate (ok : LayoutOk n l) (hn : n ≤ 65535) {map : CceMapParam} {u : Units}
    {b first L : Nat} (hf : first + L ≤ Layout.nCce l) :
    Marked map u (markCandidate map l b first L u) b l first L := by
  refine ⟨onlyOcc_foldl_orMask .., fun b' r hr => ?_⟩
  rw [← symmask_eq]
  refine mask_foldl_orMask b _ _ (fun r hr => ?_) u b' r hr
  have := candidateRbs_lt ok hf hr
  omega

theorem candidateFree_iff {s : State} {b first L : Nat} :
    candidateFree s.cfg.cceMap l s.units b first L = true ↔ CandidateFree s b l first L := by
  unfold candidateFree CandidateFree
  rw [symmask_eq]
  simp

theorem findLevel_hit {s : State} {b lvl M Y m : Nat} (h : LevelHit s b l lvl M Y m) :
    findLevel s.cfg.cceMap l s.units b lvl M Y = (some (candidateFirst l (2 ^ lvl) M Y m, m), m + 1) := by
  obtain ⟨h1, h2, h3, h4⟩ := h
  cases hf : findLevel s.cfg.cceMap l s.units b lvl M Y with
  | mk res tested =>
    cases res with
    | none =>
      rcases findLevel_none hf with ⟨a, b⟩ | ⟨a, b, c⟩
      · rw [nCce_eq, Nat.one_shiftLeft] at a; omega
      · have := c m h2
        rw [Nat.one_shiftLeft, firstCce_eq, Bool.eq_false_iff, Ne, candidateFree_iff] at this
        exact absurd h3 this
    | some x =>
      obtain ⟨f, k⟩ := x
      obtain ⟨a1, a2, a3, a4, a5, a6⟩ := findLevel_some hf
      rw [Nat.one_shiftLeft, firstCce_eq] at a3
      rw [Nat.one_shiftLeft, candidateFree_iff] at a5
      have hkm : k = m := by
        rcases Nat.lt_trichotomy k m with h | h | h
        · exact absurd (a3 ▸ a5) (h4 k h)
        · exact h
        · have := a6 m h
          rw [Nat.one_shiftLeft, firstCce_eq, Bool.eq_false_iff, Ne, candidateFree_iff] at this
          exact absurd h3 this
      subst hkm
      rw [a3, a4]

theorem findLevel_miss {s : State} {b lvl M Y : Nat} (h : LevelMiss s b l lvl M Y) :
    findLevel s.cfg.cceMap l s.units b lvl M Y = (none, missTests l lvl M) := by
  cases hf : findLevel s.cfg.cceMap l s.units b lvl M Y with
  | mk res tested =>
    cases res with
    | none =>
      unfold missTests
      rcases findLevel_none hf with ⟨a, b⟩ | ⟨a, b, c⟩
      · rw [nCce_eq, Nat.one_shiftLeft] at a
        split
        · rw [b]
        · have : M = 0 := by omega
          rw [b, this]
      · rw [nCce_eq, Nat.one_shiftLeft] at a
        rw [if_neg (by omega), b]
    | some x =>
      obtain ⟨f, k⟩ := x
      obtain ⟨a1, a2, a3, a4, a5, a6⟩ := findLevel_some hf
      rw [Nat.one_shiftLeft, firstCce_eq] at a3
      rw [Nat.one_shiftLeft, candidateFree_iff, a3] at a5
      rw [Nat.one_shiftLeft, nCce_eq] at a1
      rcases h with h | h | h
      · omega
      · omega
      · exact absurd a5 (h k a2)

/-- The search stops at the first level with a hit, all tests counted (R244). -/
theorem searchLevels_hit (find : Nat → Option (Nat × Nat) × Nat) (tests : Nat → Nat) (pre post : List Nat)
    (v first m t N : Nat) (hpre : ∀ u ∈ pre, find u = (none, tests u)) (hv : find v = (some (first, m), t)) :
    searchLevels find (pre ++ v :: post) N = (some (v, first, m), N + (pre.map tests).sum + t) := by
  induction pre generalizing N with
  | nil => simp [searchLevels, hv]
  | cons a pre ih =>
    rw [List.cons_append, searchLevels, hpre a (by simp)]
    dsimp only
    rw [ih _ (fun u hu => hpre u (by simp [hu]))]
    simp [Nat.add_assoc]

theorem searchLevels_miss (find : Nat → Option (Nat × Nat) × Nat) (tests : Nat → Nat) (pre : List Nat)
    (N : Nat) (hpre : ∀ u ∈ pre, find u = (none, tests u)) :
    searchLevels find pre N = (none, N + (pre.map tests).sum) := by
  induction pre generalizing N with
  | nil => simp [searchLevels]
  | cons a pre ih =>
    rw [searchLevels, hpre a (by simp)]
    dsimp only
    rw [ih _ (fun u hu => hpre u (by simp [hu]))]
    simp [Nat.add_assoc]

theorem levelOrder_eq {cq : Nat} (h : cq ≤ 256) :
    levelOrder cq = (List.range 5).filter (fun v => decide ((4 * cq + 128) / 256 ≤ v)) ++
      (List.range ((4 * cq + 128) / 256)).reverse := by
  unfold levelOrder
  dsimp only
  have : (4 * cq + 128) / 256 ≤ 4 := by omega
  generalize (4 * cq + 128) / 256 = a at *
  have : a = 0 ∨ a = 1 ∨ a = 2 ∨ a = 3 ∨ a = 4 := by omega
  rcases this with rfl | rfl | rfl | rfl | rfl <;> decide

end Sys2Proof.Machine
end

