-- ==== Sys2Proof/Laws/Sizer.lean ====
section
/-! SUPPORT. The sizer's operations against `Sys2Proof/Safety.lean` (`45_rb_sizer.md` R360-R362), and
the beam allocator's scan (`46_beam_allocator.md` R382). -/

namespace Sys2Proof.Machine

/-! ### Conforming counts (R360) -/

theorem stripFactor_spec (p : Nat) (hp : 1 < p) : ∀ fuel n, 1 ≤ n → n ≤ fuel →
    ∃ a, n = p ^ a * stripFactor p fuel n ∧ ¬ p ∣ stripFactor p fuel n ∧
      1 ≤ stripFactor p fuel n ∧ stripFactor p fuel n ≤ n := by
  intro fuel
  induction fuel with
  | zero => intro n h1 h2; omega
  | succ f ih =>
    intro n h1 h2
    unfold stripFactor
    by_cases h : n % p = 0
    · rw [if_pos h]
      have hd : p * (n / p) = n := Nat.mul_div_cancel' (Nat.dvd_of_mod_eq_zero h)
      have h3 : 1 ≤ n / p := Nat.div_pos (Nat.le_of_dvd (by omega) (Nat.dvd_of_mod_eq_zero h)) (by omega)
      have h4 : n / p < n := Nat.div_lt_self (by omega) hp
      obtain ⟨a, e1, e2, e3, e4⟩ := ih (n / p) h3 (by omega)
      refine ⟨a + 1, ?_, e2, e3, by omega⟩
      conv_lhs => rw [← hd, e1]
      ring
    · rw [if_neg h]
      exact ⟨0, by simp, fun hd => h (Nat.mod_eq_zero_of_dvd hd), h1, le_refl _⟩

theorem is235_iff (n : Nat) : is235 n = true ↔ Smooth235 n := by
  unfold is235
  by_cases h : n = 0
  · subst h; simp [Smooth235]
  · have hn : 1 ≤ n := by omega
    obtain ⟨a, a1, a2, a3, a4⟩ := stripFactor_spec 2 (by decide) n n hn (le_refl _)
    obtain ⟨b, b1, b2, b3, b4⟩ := stripFactor_spec 3 (by decide) n _ a3 a4
    obtain ⟨c, c1, c2, -, -⟩ := stripFactor_spec 5 (by decide) n _ b3 (by omega)
    simp only [hn, decide_true, Bool.true_and, decide_eq_true_eq]
    generalize stripFactor 5 n (stripFactor 3 n (stripFactor 2 n n)) = z at *
    generalize stripFactor 3 n (stripFactor 2 n n) = y at *
    generalize stripFactor 2 n n = x at *
    have hz2 : ¬ 2 ∣ z := fun h => a2 (by rw [b1, c1]; exact (h.mul_left _).mul_left _)
    have hz3 : ¬ 3 ∣ z := fun h => b2 (by rw [c1]; exact h.mul_left _)
    constructor
    · rintro rfl
      exact ⟨a, b, c, by rw [a1, b1, c1]; ring⟩
    · rintro ⟨i, j, k, e⟩
      have hzn : z ∣ 2 ^ i * 3 ^ j * 5 ^ k := by
        rw [← e, a1, b1, c1]
        exact (((dvd_refl z).mul_left _).mul_left _).mul_left _
      have cop : ∀ p m, p.Prime → ¬ p ∣ z → Nat.Coprime z (p ^ m) := fun p m hp hd =>
        Nat.Coprime.pow_right _ (Nat.coprime_comm.1 ((Nat.Prime.coprime_iff_not_dvd hp).2 hd))
      exact Nat.Coprime.eq_one_of_dvd (((cop 2 i Nat.prime_two hz2).mul_right
        (cop 3 j Nat.prime_three hz3)).mul_right (cop 5 k Nat.prime_five c2)) hzn

theorem mem_conforming (tp : Bool) (lo hi n : Nat) :
    n ∈ conforming tp lo hi ↔ lo ≤ n ∧ n < hi ∧ (tp = true → Smooth235 n) := by
  unfold conforming conforms
  rw [List.mem_filter, List.mem_range'_1]
  have : (!tp || is235 n) = true ↔ (tp = true → Smooth235 n) := by cases tp <;> simp [is235_iff]
  rw [this]
  constructor
  · rintro ⟨⟨a, b⟩, c⟩; exact ⟨a, by omega, c⟩
  · rintro ⟨a, b, c⟩; exact ⟨⟨a, by omega⟩, c⟩

theorem conforming_sorted (tp : Bool) (lo hi : Nat) : (conforming tp lo hi).Pairwise (· < ·) :=
  List.Pairwise.filter _ List.pairwise_lt_range'

/-! ### One probe of the loop (R362) -/

theorem probe_none {tp : Bool} {lo hi : Nat} (h : probe tp lo hi = none) :
    ∀ n, lo < n → n < hi → ¬ (tp = true → Smooth235 n) := by
  unfold probe at h
  dsimp only at h
  split at h
  · cases h
  · rename_i h1
    rw [List.head?_eq_none_iff] at h1
    rw [List.getLast?_eq_none_iff] at h
    intro n a b c
    by_cases hm : (lo + hi) / 2 ≤ n
    · have := (mem_conforming tp (max ((lo + hi) / 2) (lo + 1)) hi n).2 ⟨by omega, b, c⟩
      rw [h1] at this
      cases this
    · have := (mem_conforming tp (lo + 1) ((lo + hi) / 2) n).2 ⟨by omega, by omega, c⟩
      rw [h] at this
      cases this

theorem probe_some {tp : Bool} {lo hi q : Nat} (h : probe tp lo hi = some q) :
    lo < q ∧ q < hi ∧ (tp = true → Smooth235 q) := by
  unfold probe at h
  dsimp only at h
  split at h
  · rename_i h1
    cases h
    have := (mem_conforming _ _ _ _).1 (List.mem_of_head? h1)
    exact ⟨by omega, this.2⟩
  · have := (mem_conforming _ _ _ _).1 (List.mem_of_getLast? h)
    exact ⟨by omega, by omega, this.2.2⟩

/-- TBS_FN is non-decreasing in n (R361). -/
theorem tbsFn_mono (p : TbsParam) (c : Word) : ∀ m n, m ≤ n → tbsFn p m c ≤ tbsFn p n c := by
  intro m n h
  cases p with
  | testFn => exact Nat.mul_le_mul_right _ h
  | given =>
    show runningMax _ m ≤ runningMax _ n
    induction h with
    | refl => exact le_refl _
    | step _ ih => exact le_trans ih (le_max_left _ _)

/-! ### The track scan (`46_beam_allocator.md` R382) -/

theorem scanTracks_first {u : Units} {nt idx tr : Nat} {ub : BitVec 16} (h : tr < nt)
    (hb : ∀ x, x < tr → u.beam x idx ≠ ub ∧ u.beam x idx ≠ 0xFFFF)
    (ht : u.beam tr idx = ub ∨ u.beam tr idx = 0xFFFF) : scanTracks u nt idx ub = some tr := by
  unfold scanTracks
  rw [List.find?_range_eq_some]
  refine ⟨by rcases ht with h | h <;> simp [h, btEmpty], by simpa using h, fun j hj => ?_⟩
  have := hb j hj
  simp [this.1]
  exact this.2

theorem scanTracks_none {u : Units} {nt idx : Nat} {ub : BitVec 16}
    (hb : ∀ x, x < nt → u.beam x idx ≠ ub ∧ u.beam x idx ≠ 0xFFFF) : scanTracks u nt idx ub = none := by
  unfold scanTracks
  rw [List.find?_eq_none]
  intro x hx
  have := hb x (by simpa using hx)
  simp [this.1]
  exact this.2

end Sys2Proof.Machine
end

