-- ==== Sys2Proof/Laws/Step.lean ====
section
/-! SUPPORT. What a step can do, said once (`20_memory.md` R97), and what a register write can do
(R95). Invariants of the step are proved by cases on these. -/

namespace Sys2Proof.Machine

/-- The state in which a turn is taken: the agenda consumed, the choice counter possibly advanced, the
fairness record kept up to date. -/
def State.turned (s : State) (a : List Turn) (n : Nat) (f : Fairness) : State :=
  { s with agenda := a, pick := n, fair := f }

section
variable (s : State) (a : List Turn) (n : Nat) (f : Fairness)
@[simp] theorem turned_cfg : (s.turned a n f).cfg = s.cfg := rfl
@[simp] theorem turned_greg : (s.turned a n f).greg = s.greg := rfl
@[simp] theorem turned_port (p : PortId) : (s.turned a n f).port p = s.port p := by cases p <;> rfl
@[simp] theorem turned_holdOwner : (s.turned a n f).holdOwner = s.holdOwner := rfl
@[simp] theorem turned_units : (s.turned a n f).units = s.units := rfl
@[simp] theorem turned_agenda : (s.turned a n f).agenda = a := rfl
@[simp] theorem turned_resp : (s.turned a n f).resp = s.resp := rfl
@[simp] theorem turned_pick : (s.turned a n f).pick = n := rfl
@[simp] theorem turned_fair : (s.turned a n f).fair = f := rfl
end

/-- The engine serves port `p`. -/
def State.serving (s : State) (p : PortId) : State := { s with cur := p }

section
variable (s : State) (q p : PortId)
@[simp] theorem serving_cfg : (s.serving q).cfg = s.cfg := rfl
@[simp] theorem serving_greg : (s.serving q).greg = s.greg := rfl
@[simp] theorem serving_port : (s.serving q).port p = s.port p := by cases p <;> rfl
@[simp] theorem serving_holdOwner : (s.serving q).holdOwner = s.holdOwner := rfl
@[simp] theorem serving_units : (s.serving q).units = s.units := rfl
@[simp] theorem serving_cur : (s.serving q).cur = q := rfl
@[simp] theorem serving_agenda : (s.serving q).agenda = s.agenda := rfl
@[simp] theorem serving_resp : (s.serving q).resp = s.resp := rfl
@[simp] theorem serving_pick : (s.serving q).pick = s.pick := rfl
@[simp] theorem serving_fair : (s.serving q).fair = s.fair := rfl
end

/-- What a step can do. An engine move for a port finds the other port not overdue (R464). -/
inductive StepKind (s t : State) : Prop
  | command (a : List Turn) (n : Nat) (p : PortId) (i : Instr)
      (hm : moveEnabled s (.command p) = true) (ho : overdue s p.other = false)
      (h : exec i ((s.turned a n (fairAfter s p)).serving p) = .next t)
  | illegal (a : List Turn) (n : Nat) (p : PortId) (hm : moveEnabled s (.command p) = true)
      (ho : overdue s p.other = false)
      (h : t = fatalState .illegalCmd ((s.turned a n (fairAfter s p)).serving p))
  | grant (a : List Turn) (n : Nat) (p : PortId) (hm : moveEnabled s (.grant p) = true)
      (ho : overdue s p.other = false)
      (h : t = { s.turned a n (fairAfter s p) with holdOwner := some p })
  | idle (a : List Turn) (h : t = s.turned a s.pick s.fair)
      (hi : ∀ m rest, s.agenda = [] ∨ s.agenda = .engine m :: rest → moveEnabled s m = false)
  | access (a : List Turn) (host : PortId) (op : BusOp)
      (h : t = busAccess (s.turned a s.pick s.fair) host op)
      (ha : s.agenda = .access host op :: a)
  | hardReset (a : List Turn) (h : t = resetBlock (s.turned a s.pick s.fair))
      (ha : s.agenda = .hardReset :: a)

variable {s t : State}

theorem moveEnabled_turned (a : List Turn) (n : Nat) (f : Fairness) (m : EngineMove) :
    moveEnabled (s.turned a n f) m = moveEnabled s m := by
  cases m <;> rename_i p <;> cases p <;> rfl

theorem overdue_turned (a : List Turn) (n : Nat) (p : PortId) :
    overdue (s.turned a n s.fair) p = overdue s p := by
  unfold overdue
  rw [moveEnabled_turned]
  rfl

theorem fairAfter_turned (a : List Turn) (n : Nat) (p : PortId) :
    fairAfter (s.turned a n s.fair) p = fairAfter s p := by
  simp only [fairAfter, turned_fair, moveEnabled_turned]

@[simp] theorem PortId.other_other (p : PortId) : p.other.other = p := by cases p <;> rfl

theorem overdue_last : overdue s s.fair.last = false := by simp [overdue]

/-- The two ports are not overdue at once. -/
theorem overdue_other {p : PortId} (h : overdue s p = true) : overdue s p.other = false := by
  have hp : p ≠ s.fair.last := fun e => by rw [e, overdue_last] at h; cases h
  rw [show p.other = s.fair.last by cases p <;> cases hl : s.fair.last <;> simp_all [PortId.other]]
  exact overdue_last

/-- The move made is enabled, and the other port is not overdue at it. -/
theorem fairMove_spec {m : EngineMove} (hm : moveEnabled s m = true) :
    moveEnabled s (fairMove s m) = true ∧ overdue s (fairMove s m).port.other = false := by
  unfold fairMove
  split
  · rename_i h
    refine ⟨?_, by simpa [EngineMove.port] using overdue_other h⟩
    simp only [overdue, Bool.and_eq_true] at h
    exact h.1.2
  · rename_i h
    exact ⟨hm, by simpa using h⟩

theorem fairMove_self {m : EngineMove} (h : overdue s m.port.other = false) : fairMove s m = m := by
  simp [fairMove, h]

theorem runMove_kind {a : List Turn} {n : Nat} {m : EngineMove} (hm : moveEnabled s m = true)
    (ho : overdue s m.port.other = false) (h : runMove m (s.turned a n s.fair) = .next t) :
    StepKind s t := by
  unfold runMove at h
  rw [fairAfter_turned] at h
  cases m with
  | command p =>
    simp only [runCommand] at h
    split at h
    · exact .command a n p _ hm ho h
    · exact .illegal a n p hm ho (fatal_eq_next.1 h)
  | grant p =>
    simp only [grantHold, Host.Outcome.next.injEq] at h
    exact .grant a n p hm ho h.symm

theorem engineMove_kind {a : List Turn} {n : Nat} {m : EngineMove} (hm : moveEnabled s m = true)
    (h : engineMove m (s.turned a n s.fair) = .next t) : StepKind s t := by
  unfold engineMove at h
  rw [moveEnabled_turned, if_pos hm] at h
  have e : fairMove (s.turned a n s.fair) m = fairMove s m := by simp only [fairMove, overdue_turned]
  rw [e] at h
  exact runMove_kind (fairMove_spec hm).1 (fairMove_spec hm).2 h

theorem mem_enabledMoves {m : EngineMove} : m ∈ enabledMoves s ↔ moveEnabled s m = true := by
  unfold enabledMoves
  rw [List.mem_filter]
  refine ⟨And.right, fun h => ⟨?_, h⟩⟩
  cases m <;> rename_i p <;> cases p <;> simp

/-- A turn of the agenda is taken. -/
theorem step_cons {u : Turn} {rest : List Turn} (ha : s.agenda = u :: rest) :
    step s = takeTurn u { s with agenda := rest } := by
  unfold step; rw [ha]

/-- With no turn to come the engine moves alone. -/
theorem step_nil (ha : s.agenda = []) : step s = engineFree s := by unfold step; rw [ha]

/-- An enabled engine turn is made, fair between the ports (R464). -/
theorem step_engine {m : EngineMove} {rest : List Turn} (ha : s.agenda = .engine m :: rest)
    (hm : moveEnabled s m = true) :
    step s = runMove (fairMove s m) (s.turned rest s.pick s.fair) := by
  have e : fairMove (s.turned rest s.pick s.fair) m = fairMove s m := by
    simp only [fairMove, overdue_turned]
  rw [step_cons ha, ← e]
  exact if_pos ((moveEnabled_turned rest s.pick s.fair m).trans hm)

theorem step_cases (h : step s = .next t) : StepKind s t := by
  unfold step at h
  split at h
  · rename_i turn rest hs
    cases turn with
    | access host op =>
      simp only [takeTurn, Host.Outcome.next.injEq] at h
      exact .access rest host op h.symm hs
    | engine m =>
      simp only [takeTurn] at h
      by_cases hm : moveEnabled s m = true
      · exact engineMove_kind (a := rest) (n := s.pick) hm h
      · have hm' : moveEnabled (s.turned rest s.pick s.fair) m = false := by
          rw [moveEnabled_turned]; simpa using hm
        refine .idle rest ?_ fun m' rest' e => ?_
        · have e : engineMove m (s.turned rest s.pick s.fair) = .next t := h
          simp only [engineMove, hm', Bool.false_eq_true, if_false, Host.Outcome.next.injEq] at e
          exact e.symm
        · rcases e with e | e <;> rw [hs] at e
          · cases e
          · cases e; simpa using hm
    | hardReset =>
      simp only [takeTurn, Host.Outcome.next.injEq] at h
      exact .hardReset rest h.symm hs
  · unfold engineFree at h
    split at h
    · rename_i hs he
      simp only [Host.Outcome.next.injEq] at h
      refine .idle s.agenda h.symm fun m _ _ => ?_
      by_contra hm
      have := mem_enabledMoves.2 (by simpa using hm : moveEnabled s m = true)
      rw [he] at this
      cases this
    · rename_i m hm
      exact engineMove_kind (a := s.agenda) (n := s.pick)
        (mem_enabledMoves.1 (by rw [hm]; exact List.mem_singleton_self _)) h
    · rename_i m ms _ hm
      refine engineMove_kind (a := s.agenda) (n := s.pick + 1) (mem_enabledMoves.1 ?_) h
      rw [hm, List.getD_eq_getElem?_getD, List.getElem?_eq_getElem
        (Nat.mod_lt _ (by simp : 0 < (m :: ms).length))]
      exact List.getElem_mem _

/-! ### Register writes -/

theorem writeHold_port (s : State) (p q : PortId) (v : Word) :
    (writeHold s p v).port q = if q = p then { s.port p with holdReq := bit v 0 } else s.port q := by
  cases p <;> cases q <;> rfl

/-- A HOLD write leaves the owner, or is the owner's release (R103). -/
theorem writeHold_holdOwner (s : State) (p : PortId) (v : Word) :
    (writeHold s p v).holdOwner = s.holdOwner ∨
    (s.holdOwner = some p ∧ (writeHold s p v).holdOwner = none) := by
  unfold writeHold
  dsimp only
  split
  · rename_i h; exact .inr ⟨h.2, rfl⟩
  · exact .inl rfl

theorem acceptCmd_port (s : State) (p q : PortId) (w : Word) :
    (acceptCmd s p w).port q =
      if q = p then { s.port p with pend := some w, done := false, pseq := (s.port p).pseq + 1 }
      else s.port q := by
  cases p <;> cases q <;> rfl

@[simp] theorem answer_port (s : State) (host q : PortId) (r : BusResp) :
    (s.answer host r).port q = s.port q := by cases q <;> rfl

/-- What a register write can do to the state. -/
inductive WriteKind (s t : State) : Prop
  | nothing (h : t = s)
  | reset (h : t = resetBlock s)
  | errClear (h : t = { s with greg := Machine.errClear s.greg })
  | irq (st en : BitVec 3) (h : t = { s with greg := { s.greg with irqStatus := st, irqEnable := en } })
  | overrun (p : PortId) (b : Bool) (h : t = s.setPort p { s.port p with overrun := b })
  | accept (p : PortId) (w : Word) (hb : (s.port p).busy = false) (h : t = acceptCmd s p w)
  | hold (p : PortId) (v : Word) (hb : (s.port p).busy = false) (h : t = writeHold s p v)
  | arg (p : PortId) (i : Fin 8) (v : Word) (hb : (s.port p).busy = false)
      (h : t = s.setPort p { s.port p with args := (s.port p).args.set i v })

theorem ifIdle_cases (s : State) (p : PortId) (t : State) :
    (ifIdle s p t = t ∧ (s.port p).busy = false) ∨
    ifIdle s p t = s.setPort p { s.port p with overrun := true } := by
  unfold ifIdle
  cases (s.port p).busy <;> simp

theorem writeReg_cases (s : State) (off : Nat) (v : Word) : WriteKind s (writeReg s off v) := by
  unfold writeReg
  split
  · rename_i r _
    cases r with
    | ctrl =>
      unfold writeGlobal; dsimp only; split
      · exact .reset rfl
      · exact .nothing rfl
    | errClear =>
      unfold writeGlobal; dsimp only; split
      · exact .errClear rfl
      · exact .nothing rfl
    | irqStatus => exact .irq _ s.greg.irqEnable rfl
    | irqEnable => exact .irq s.greg.irqStatus _ rfl
    | id => exact .nothing rfl
    | version => exact .nothing rfl
    | cap0 => exact .nothing rfl
    | cap1 => exact .nothing rfl
    | cap2 => exact .nothing rfl
    | cap3 => exact .nothing rfl
    | gstatus => exact .nothing rfl
    | errCode => exact .nothing rfl
    | errInfo => exact .nothing rfl
    | errCount => exact .nothing rfl
  · rename_i p r _
    cases r with
    | cmd =>
      rcases ifIdle_cases s p (acceptCmd s p v) with ⟨h, hb⟩ | h
      · exact .accept p v hb h
      · exact .overrun p true h
    | pstatus =>
      unfold writePort; dsimp only; split
      · exact .overrun p false rfl
      · exact .nothing rfl
    | hold =>
      rcases ifIdle_cases s p (writeHold s p v) with ⟨h, hb⟩ | h
      · exact .hold p v hb h
      · exact .overrun p true h
    | arg i =>
      rcases ifIdle_cases s p (s.setPort p { s.port p with args := (s.port p).args.set i v }) with ⟨h, hb⟩ | h
      · exact .arg p i v hb h
      · exact .overrun p true h
    | pseq => exact .nothing rfl
    | res i => exact .nothing rfl
  · exact .nothing rfl

theorem busAccess_cases (s : State) (host : PortId) (op : BusOp) :
    ∃ t r, WriteKind s t ∧ busAccess s host op = t.answer host r := by
  cases op with
  | read w off =>
    unfold busAccess
    dsimp only
    split
    · exact ⟨s, _, .nothing rfl, rfl⟩
    · exact ⟨s, _, .nothing rfl, rfl⟩
  | write w off v =>
    unfold busAccess
    dsimp only
    split
    · exact ⟨_, _, writeReg_cases s _ v, rfl⟩
    · exact ⟨s, _, .nothing rfl, rfl⟩

end Sys2Proof.Machine
end

