-- ==== Sys2Proof/Laws/Units.lean ====
section
/-! SUPPORT. What one step can do to the unit arrays and the parameters. -/

namespace Sys2Proof.Machine

/-- The unit arrays after a step: as they were, reset, or changed by one command; the parameters
never change. -/
theorem step_units {s t : State} (h : step s = .next t) :
    (t.units = s.units ∧ t.cfg = s.cfg) ∨ (t.units = Units.reset ∧ t.cfg = s.cfg) ∨
    ∃ s' i rc, s'.units = s.units ∧ s'.cfg = s.cfg ∧ t.cfg = s.cfg ∧ UnitStep s' i rc t.units := by
  cases step_cases h with
  | command a n p i hm ho h =>
    rcases exec_shape h with ⟨code, hf, rfl⟩ | ⟨rc, res, u, hf, rfl, hu⟩
    · exact .inl (by simp)
    · exact .inr (.inr ⟨(s.turned a n (fairAfter s p)).serving p, i, rc, rfl, rfl, by simp,
        by rw [complete_units]; exact hu⟩)
  | illegal a n p hm ho h => subst h; exact .inl (by simp)
  | grant a n p hm ho h => subst h; exact .inl (by simp)
  | idle a h _ => subst h; exact .inl (by simp)
  | hardReset a h _ => subst h; exact .inr (.inl ⟨rfl, rfl⟩)
  | access a host op h _ =>
    obtain ⟨u, r, hu, e⟩ := busAccess_cases (s.turned a s.pick s.fair) host op
    rw [e] at h
    subst h
    cases hu with
    | reset h => subst h; exact .inr (.inl ⟨rfl, rfl⟩)
    | nothing h => subst h; exact .inl (by simp [State.answer])
    | errClear h => subst h; exact .inl (by simp [State.answer])
    | irq st en h => subst h; exact .inl (by simp [State.answer])
    | overrun p b h => subst h; exact .inl (by simp [State.answer])
    | accept p w hb h => subst h; exact .inl (by simp [State.answer, acceptCmd])
    | hold p v hb h => subst h; exact .inl (by simp [State.answer, writeHold])
    | arg p i v hb h => subst h; exact .inl (by simp [State.answer])

end Sys2Proof.Machine
end

