-- ==== Sys2Proof/Machine/HostProgram.lean ====
section
/-! DEFINITION. Host software as register accesses: the assembler of `30_encoding.md` R133 (the ARG
writes of a command in ascending order, then its CMD write) and the pseudo-instructions of R134. The
polling loops are given by the status they wait for. -/

namespace Sys2Proof.Machine

/-- A 32-bit write by the host agent of port `p`. -/
def hostWrite (p : PortId) (off : Nat) (v : Word) : Turn :=
  .access p (.write .word (BitVec.ofNat 12 off) v)

/-- A 32-bit read by the host agent of port `p`. -/
def hostRead (p : PortId) (off : Nat) : Turn := .access p (.read .word (BitVec.ofNat 12 off))

/-- How many argument registers, from ARG0 on, a command lists in R126. -/
def argCount : Instr → Nat
  | .nop | .ctxRelease _ => 0
  | .hqTakeAvail _ _ | .hqTakeRetx _ _ | .hqStat _ _ => 0
  | .hqCreate _ _ | .hqFeedback _ _ | .hqResize _ _ | .hqQuery _ _ => 1
  | .hqMarkFb _ _ => 2
  | .ccpLayoutDel _ | .ccpLayoutInfo _ => 0
  | .ccpCceMap _ => 1
  | .ccpFind _ _ | .ccpMark _ => 3
  | .ccpLayoutSet _ | .ccpSearch _ _ => 4
  | .occClear _ => 1
  | .occSet => 3
  | .occRead => 2
  | .genClear => 0
  | .genField _ | .genEncode => 2
  | .laRead _ _ _ => 0
  | .laInit _ _ => 8
  | .laEval _ _ => 3
  | .rbsFit => 4
  | .bmConfig | .bmRead => 2
  | .bmAlloc => 3
  | .bmRelease => 4

/-- A command on port `p` as the assembler writes it (R133): every listed ARG register whole, in
ascending order (an omitted value is 0), then CMD. The `wait` after it is `waitOver`. -/
def issue (p : PortId) (i : Instr) (args : List Word) : List Turn :=
  (List.range (argCount i)).map (fun j => hostWrite p (portBase p + 0x10 + 4 * j) (args.getD j 0)) ++
    [hostWrite p (portBase p) (encode i)]

/-- The status that ends `wait` (R134): BUSY = 0 and DONE = 1. -/
def waitOver (pstatus : Word) : Bool := !bit pstatus 0 && bit pstatus 1

/-- The status that ends `hold` (R134): HOLD_GRANTED = 1. -/
def holdOver (pstatus : Word) : Bool := bit pstatus 3

/-- One poll of `wait` or `hold` (R134). -/
def pollStatus (p : PortId) : Turn := hostRead p (portBase p + 0x04)

/-- The request of `hold` (R134). -/
def holdRequest (p : PortId) : Turn := hostWrite p (portBase p + 0x08) 1

/-- `release` (R134). -/
def holdRelease (p : PortId) : Turn := hostWrite p (portBase p + 0x08) 0

/-- `errclr` (R134). -/
def errclr (p : PortId) : Turn := hostWrite p 0x02C 1

/-- `irqack v` (R134). -/
def irqack (p : PortId) (v : Word) : Turn := hostWrite p 0x030 v

/-- `softreset` (R134). -/
def softreset (p : PortId) : Turn := hostWrite p 0x018 1

/-- `hq.ack c, dir, id=` (R134): `hq.fb` with ACK = 1. -/
def hqAck (p : PortId) (d : Direction) (c id : Nat) : List Turn :=
  issue p (.hqFeedback d c) [BitVec.ofNat 32 (id ||| 1 <<< 8)]

/-- `hq.nack c, dir, id=` (R134): `hq.fb` with ACK = 0. -/
def hqNack (p : PortId) (d : Direction) (c id : Nat) : List Turn :=
  issue p (.hqFeedback d c) [BitVec.ofNat 32 id]

/-- `ccp.place k, ...` (R134): `ccp.search.m`. -/
def ccpPlace (p : PortId) (k : Nat) (args : List Word) : List Turn := issue p (.ccpSearch true k) args

/-- `occ.newslot` (R134): `occ.clear.all`. -/
def occNewslot (p : PortId) : List Turn := issue p (.occClear true) []

end Sys2Proof.Machine
end

