-- ==== Sys2Proof/Tests/Slice0.lean ====
section
/-! SUPPORT. The model's own tests: expected values are those of the spec's examples and of
`95_test_vectors.md` (each test names its row), or are written out from its rules. After them, for every
obligation with hypotheses, a witness: concrete states and operands that meet them, clause by clause. -/

open Sys2Proof Sys2Proof.Machine

/-! ### Small states -/

/-- Argument registers with the listed values, the rest 0. -/
def testArgs (args : List Nat) : Vector Word 8 := Vector.ofFn fun i => BitVec.ofNat 32 (args.getD i 0)

/-- EX1 after reset, but with these unit arrays, and port 0 serving word `w` with these arguments. -/
def testState (w : Nat) (args : List Nat) (u : Units) : State :=
  { State.reset with
    port0 := { Port.reset with pend := some (BitVec.ofNat 32 w), args := testArgs args }
    units := u }

/-- The result code and result registers of the served port after an answer. -/
def resultOf (a : Answer) : Option (RCode × List Nat) :=
  match a with
  | .next t => some ((t.port t.cur).rcode, (t.port t.cur).res.toList.map BitVec.toNat)
  | .fault _ => none
  | .refused _ => none

/-- The unit arrays after an answer. -/
def unitsAfter (a : Answer) : Option Units :=
  match a with
  | .next t => some t.units
  | .fault _ => none
  | .refused _ => none

/-- The next state of an answer; the state given where there is none. -/
def nextOf (s : State) (a : Answer) : State :=
  match a with
  | .next t => t
  | .fault _ => s
  | .refused _ => s

/-- The pool of context 0, downlink, after row HQM-6. -/
def poolSix : Pool := { cap := 8, av := [2, 3, 4, 6, 7], fb := [0, 1, 5], rt := [], due := [(0, 77), (5, 100)] }

/-- The pool after row HQM-8. -/
def poolEight : Pool := { cap := 8, av := [2, 3, 4, 6, 7], fb := [0, 5], rt := [1], due := [(0, 77), (5, 100)] }

def unitsPool (P : Pool) : Units := { Units.reset with hq := [(0, P)] }

/-- Layout 0 of section 4: 16 CCEs, one symbol, not interleaved. -/
def layoutZero : Layout :=
  { dur := 1, start := 0, il := false, bundle := 6, ilv := 0, shift := 0, rbOffset := 0, fmask := 0xFFFF }

/-- Layout 1 of section 4: interleaved over two symbols. -/
def layoutOne : Layout :=
  { dur := 2, start := 1, il := true, bundle := 6, ilv := 2, shift := 1, rbOffset := 20, fmask := 0x7 }

def unitsLay : Units := { Units.reset with lay := [(0, layoutZero), (1, layoutOne)] }

/-- One resource block of CCE 4 on beam 0 is taken. -/
def unitsBusy : Units := { unitsLay with occ := [(24, 1)] }

/-- The link-adaptation record of row LAS-1. -/
def recordOne : LaRec :=
  { mcs := 10, mn := 0, mx := 27, rate := 0, last := 0, win := 10, thrLo := 6554, thrHi := 19661,
    txSnap := 0, retxSnap := 0 }

def unitsRec (R : LaRec) : Units := { Units.reset with la := [(0, R)] }

/-- The beam configuration of row BMA-2, with beam 7 in track 0 at index 5 (row BMA-3). -/
def unitsBeam : Units :=
  { Units.reset with bma := some { bd := 4, sz := 10, nt := 2 }, bt := [(5, 7)] }

/-- The staging of row GEN-1 on port 0. -/
def unitsGen : Units :=
  { Units.reset with
    gen0 := [(0, ⟨1, 1, true⟩), (1, ⟨0x5A, 9, true⟩), (2, ⟨3, 4, true⟩), (3, ⟨0, 1, true⟩),
      (4, ⟨9, 5, true⟩), (5, ⟨1, 1, true⟩), (6, ⟨0, 2, true⟩), (7, ⟨5, 4, true⟩), (8, ⟨1, 2, true⟩),
      (9, ⟨1, 2, true⟩), (10, ⟨2, 3, true⟩), (11, ⟨4, 3, true⟩)] }

/-- The staging of row GEN-3 on port 0: FDRA is all ones. -/
def unitsVariant : Units :=
  { Units.reset with
    gen0 := [(1, ⟨0x1FF, 9, true⟩), (2, ⟨2, 4, true⟩), (3, ⟨1, 1, true⟩), (4, ⟨4, 5, true⟩),
      (13, ⟨1, 2, true⟩), (16, ⟨0, 16, true⟩), (18, ⟨0x2A, 6, true⟩), (19, ⟨0, 1, true⟩),
      (20, ⟨5, 6, true⟩), (21, ⟨3, 4, true⟩), (22, ⟨0, 10, true⟩)] }

/-! ### Well-formedness and decoding (`30_encoding.md`) -/

/-- INDEX has 16 bits (R120). -/
theorem test_wf_index_too_large : (Instr.hqCreate .dl 65536).wf = false := by decide
theorem test_wf_index_largest : (Instr.hqCreate .dl 65535).wf = true := by decide
/-- A command of an absent unit is not one this configuration has (R124). -/
theorem test_wf_rbs_absent : Instr.rbsFit.wfIn { ex1 with hasRbs := false } = false := by decide
theorem test_wf_bma_absent : Instr.bmRead.wfIn { ex1 with hasBma := false } = false := by decide
theorem test_wf_ex1 : ex1.wf = true := by decide
theorem test_wf_cfg_numTracks : ({ ex1 with numTracks := 256 } : Config).wf = false := by decide

/-- Words written out from R120 and the rows of R121: OPC, FLAGS, INDEX. -/
theorem test_decode_system : decodeWord 0x00000000 = some .nop ∧
    decodeWord 0x0100FFFF = some (.ctxRelease 65535) := by decide
theorem test_decode_hqm : decodeWord 0x10000000 = some (.hqCreate .dl 0) ∧
    decodeWord 0x11010001 = some (.hqTakeAvail .ul 1) ∧ decodeWord 0x12000002 = some (.hqMarkFb .dl 2) ∧
    decodeWord 0x13010003 = some (.hqFeedback .ul 3) ∧ decodeWord 0x14000004 = some (.hqTakeRetx .dl 4) ∧
    decodeWord 0x15010005 = some (.hqResize .ul 5) ∧ decodeWord 0x16000006 = some (.hqQuery .dl 6) ∧
    decodeWord 0x1701000F = some (.hqStat .ul 15) := by decide
theorem test_decode_ccp : decodeWord 0x20000001 = some (.ccpLayoutSet 1) ∧
    decodeWord 0x21000002 = some (.ccpLayoutDel 2) ∧ decodeWord 0x22000003 = some (.ccpLayoutInfo 3) ∧
    decodeWord 0x23000004 = some (.ccpCceMap 4) ∧ decodeWord 0x24010005 = some (.ccpFind true 5) ∧
    decodeWord 0x25000006 = some (.ccpSearch false 6) ∧ decodeWord 0x26000007 = some (.ccpMark 7) := by decide
theorem test_decode_occ : decodeWord 0x28000000 = some (.occClear false) ∧
    decodeWord 0x28010000 = some (.occClear true) ∧ decodeWord 0x29000000 = some .occSet ∧
    decodeWord 0x2A000000 = some .occRead := by decide
theorem test_decode_gen : decodeWord 0x3000003F = some (.genField 63) ∧
    decodeWord 0x31000000 = some .genEncode ∧ decodeWord 0x32000000 = some .genClear := by decide
theorem test_decode_las : decodeWord 0x40010005 = some (.laInit .ul 5) ∧
    decodeWord 0x41000000 = some (.laEval .dl 0) ∧ decodeWord 0x42000000 = some (.laRead .dl false 0) ∧
    decodeWord 0x42030009 = some (.laRead .ul true 9) := by decide
theorem test_decode_rbs_bma : decodeWord 0x50000000 = some .rbsFit ∧ decodeWord 0x60000000 = some .bmConfig ∧
    decodeWord 0x61000000 = some .bmAlloc ∧ decodeWord 0x62000000 = some .bmRelease ∧
    decodeWord 0x63000000 = some .bmRead := by decide
/-- The illegal words of rows SYS-4, SYS-5 and SYS-6. -/
theorem test_decode_illegal : [0x02000000#32, 0x11020000#32, 0x00000001#32, 0x01010000#32, 0x28000001#32,
    0x29010000#32, 0x31000001#32, 0x42040000#32, 0x27000000#32, 0x33000000#32, 0x7F000000#32,
    0xFF000000#32].all (fun w => decide (decodeWord w = none)) = true := by decide
theorem test_encode_laRead : encode (.laRead .dl true 0) = 0x42020000 := by decide
theorem test_decodeTableWord : decodeTableWord 32 0x13010001 = some (.hqFeedback .ul 1) := by decide

/-! ### Sparse arrays and the default tables -/

theorem test_sparse_write_default_lists_nothing : writeAt 0 [(3, (5 : BitVec 14))] 3 0 = [] := by decide
theorem test_sparse_write_keeps_order :
    writeAt 0 [(3, (5 : BitVec 14)), (9, 1)] 7 2 = [(3, 5), (7, 2), (9, 1)] := by decide
/-- Row GEN-11 and GEN-12: the pairs without a default layout (R293). -/
theorem test_genLayout_undefined : genLayout ex1 .dlB .ded = none ∧ genLayout ex1 .ulA .paging = none ∧
    genLayout ex1 .ulB .temp = none := by decide
theorem test_genLayout_paging : genLayout ex1 .dlA .paging = some [14, 15, 1, 2, 3, 4, 13, 16] := by decide

/-! ### Reset, the register window and the engine (`95_test_vectors.md` section 9) -/

/-- Run turns from a state; the responses to reads, last first. -/
def runTurns : List Turn → State → List (Option (PortId × BusResp)) → State × List (Option (PortId × BusResp))
  | [], s, acc => (s, acc)
  | t :: rest, s, acc =>
    let u := nextOf s (takeTurn t s)
    runTurns rest u (match t with | .access _ (.read _ _) => u.resp :: acc | _ => acc)

/-- The data of the reads, in order. -/
def readsOf (ts : List Turn) : List (Option Nat) :=
  ((runTurns ts State.reset []).2.map fun r =>
    match r with | some (_, .data v) => some v.toNat | _ => none).reverse

theorem test_sys1_capabilities : readsOf ([0x000, 0x004, 0x008, 0x00C, 0x010, 0x014].map (hostRead .p0)) =
    [some 0x4850514D, some 1, some 0x0020000F, some 0x04030007, some 0x00400113, some 0x0E404003] := by
  decide
theorem test_sys3_nop : readsOf [hostWrite .p0 0x100 0, hostRead .p0 0x104, hostRead .p0 0x10C,
    hostRead .p0 0x01C, .engine (.command .p0), hostRead .p0 0x104, hostRead .p0 0x030] =
    [some 1, some 1, some 4, some 2, some 1] := by decide
theorem test_sys4_illegal : readsOf [hostWrite .p0 0x100 0x02000000, .engine (.command .p0),
    hostRead .p0 0x104, hostRead .p0 0x01C, hostRead .p0 0x020, hostRead .p0 0x024, hostRead .p0 0x028,
    hostRead .p0 0x030] =
    [some 0x8002, some 1, some 0x280, some 0x02000000, some 1, some 5] := by decide
theorem test_sys10_overrun : readsOf [hostWrite .p0 0x110 0x11111111, hostWrite .p0 0x100 0,
    hostWrite .p0 0x110 0x22222222, hostWrite .p0 0x100 0x10000000, hostWrite .p0 0x108 1,
    hostRead .p0 0x104, hostRead .p0 0x110, hostRead .p0 0x10C, .engine (.command .p0), hostRead .p0 0x104,
    hostWrite .p0 0x104 4, hostRead .p0 0x104] =
    [some 5, some 0x11111111, some 1, some 6, some 2] := by decide
theorem test_sys11_bus_error : readsOf [hostRead .p0 0x101, hostWrite .p0 0x102 1, hostRead .p0 0x203,
    hostRead .p0 0x10C] = [none, none, some 0] := by decide
theorem test_sys15_hold : readsOf [hostWrite .p0 0x108 1, .engine (.grant .p0), hostRead .p0 0x104,
    hostRead .p0 0x01C, hostWrite .p1 0x200 0x00000000, .engine (.command .p1), hostRead .p1 0x204,
    hostWrite .p0 0x108 0, .engine (.command .p1), hostRead .p1 0x204] =
    [some 8, some 0x10, some 1, some 2] := by decide
/-- Row SYS-9: the interrupt output. -/
theorem test_sys9_irq : ((runTurns [hostWrite .p0 0x034 4, hostWrite .p0 0x100 0x02000000,
    .engine (.command .p0)] State.reset []).1.irq) = true := by decide
/-- Soft reset (row SYS-14, in short). -/
theorem test_soft_reset : readsOf [hostWrite .p1 0x210 0xABCD, hostWrite .p1 0x208 1, .engine (.grant .p1),
    hostWrite .p0 0x018 1, hostRead .p0 0x01C, hostRead .p1 0x208, hostRead .p1 0x210] =
    [some 0, some 0, some 0] := by decide
/-- The first step after a word is placed runs it (log 17). -/
theorem test_withFetchWord : resultOf (step (State.reset.withFetchWord 32 0x10000010)) =
    some (.badIndex, [0, 0, 0, 0]) := by decide
/-- The assembler's writes for row HQM-5 (R133). -/
theorem test_issue_markfb : issue .p0 (.hqMarkFb .dl 0) [5, 100] =
    [hostWrite .p0 0x110 5, hostWrite .p0 0x114 100, hostWrite .p0 0x100 0x12000000] := by decide

/-! ### Commands, one step each -/

theorem test_nop : resultOf (exec .nop (testState 0 [] Units.reset)) = some (.ok, [0, 0, 0, 0]) := by decide
/-- Row SYS-13. -/
theorem test_ctxRelease : unitsAfter (exec (.ctxRelease 0) (testState 0x01000000 []
    { Units.reset with hq := [(0, poolSix), (1, poolSix), (2, poolSix)], la := [(1, recordOne)] })) =
    some { Units.reset with hq := [(2, poolSix)] } := by decide
theorem test_ctxRelease_index : resultOf (exec (.ctxRelease 16) (testState 0x01000010 [] Units.reset)) =
    some (.badIndex, [0, 0, 0, 0]) := by decide
/-- Rows HQM-1, HQM-24. -/
theorem test_hqCreate : unitsAfter (exec (.hqCreate .dl 0) (testState 0x10000000 [8] Units.reset)) =
    some (unitsPool { cap := 8, av := [0, 1, 2, 3, 4, 5, 6, 7], fb := [], rt := [], due := [] }) := by decide
theorem test_hqCreate_zero : resultOf (exec (.hqCreate .dl 1) (testState 0x10000001 [0] Units.reset)) =
    some (.badCapacity, [0, 0, 0, 0]) := by decide
/-- Taking from the pool of row HQM-6 (R183). -/
theorem test_hqTakeAvail : unitsAfter (exec (.hqTakeAvail .dl 0) (testState 0x11000000 [] (unitsPool poolSix))) =
    some (unitsPool { poolSix with av := [3, 4, 6, 7], fb := [0, 1, 5, 2] }) := by decide
theorem test_hqTakeAvail_exhausted : resultOf (exec (.hqTakeAvail .dl 0)
    (testState 0x11000000 [] (unitsPool { cap := 1, av := [], fb := [0], rt := [], due := [] }))) =
    some (.exhausted, [0xFFFFFFFF, 0, 0, 0]) := by decide
/-- An id from the middle of AV (as row HQM-5), and row HQM-10. -/
theorem test_hqMarkFb : unitsAfter (exec (.hqMarkFb .dl 0) (testState 0x12000000 [4, 9] (unitsPool poolSix))) =
    some (unitsPool
      { poolSix with av := [2, 3, 6, 7], fb := [0, 1, 5, 4], due := [(0, 77), (4, 9), (5, 100)] }) := by decide
theorem test_hqMarkFb_rt : resultOf (exec (.hqMarkFb .dl 0) (testState 0x12000000 [1, 5] (unitsPool poolEight))) =
    some (.badState, [0, 0, 0, 0]) := by decide
/-- Rows HQM-8, HQM-13. -/
theorem test_hqFeedback_nack : unitsAfter (exec (.hqFeedback .dl 0) (testState 0x13000000 [1] (unitsPool poolSix))) =
    some (unitsPool poolEight) := by decide
theorem test_hqFeedback_ack : unitsAfter (exec (.hqFeedback .dl 0)
    (testState 0x13000000 [0x105] (unitsPool poolEight))) =
    some (unitsPool { cap := 8, av := [2, 3, 4, 6, 7, 5], fb := [0], rt := [1], due := [(0, 77)] }) := by decide
/-- Rows HQM-14, HQM-15. -/
theorem test_hqTakeRetx : unitsAfter (exec (.hqTakeRetx .dl 0) (testState 0x14000000 [] (unitsPool poolEight))) =
    some (unitsPool { poolEight with fb := [0, 5, 1], rt := [] }) := by decide
theorem test_hqTakeRetx_empty : resultOf (exec (.hqTakeRetx .dl 0) (testState 0x14000000 [] (unitsPool poolSix))) =
    some (.empty, [0xFFFFFFFF, 0, 0, 0]) := by decide
/-- Rows HQM-17, HQM-20. -/
theorem test_hqResize_shrink : resultOf (exec (.hqResize .dl 0) (testState 0x15000000 [7] (unitsPool poolSix))) =
    some (.invalidResize, [0, 0, 0, 0]) := by decide
theorem test_hqResize_grow : unitsAfter (exec (.hqResize .dl 0) (testState 0x15000000 [10] (unitsPool poolSix))) =
    some (unitsPool { poolSix with cap := 10, av := [2, 3, 4, 6, 7, 8, 9] }) := by decide
/-- Row HQM-7. -/
theorem test_hqQuery : resultOf (exec (.hqQuery .dl 0) (testState 0x16000000 [0] (unitsPool poolSix))) =
    some (.ok, [0x01FF0101, 0x4D, 0, 0]) := by decide
theorem test_hqQuery_badId : resultOf (exec (.hqQuery .dl 0) (testState 0x16000000 [8] (unitsPool poolSix))) =
    some (.badId, [0, 0, 0, 0]) := by decide
/-- Row HQM-2. -/
theorem test_hqStat : resultOf (exec (.hqStat .dl 0) (testState 0x17000000 []
    (unitsPool { cap := 8, av := [0, 1, 2, 3, 4, 5, 6, 7], fb := [], rt := [], due := [] }))) =
    some (.ok, [0x08000008, 0x00FFFF00, 0x00FFFF07, 0]) := by decide
/-- Row HQM-22: the uplink pool is another one. -/
theorem test_hqStat_ul : resultOf (exec (.hqStat .ul 0) (testState 0x17010000 [] (unitsPool poolSix))) =
    some (.notConfigured, [0, 0, 0, 0]) := by decide
/-- Rows CCP-3, CCP-14. -/
theorem test_ccpLayoutSet : unitsAfter (exec (.ccpLayoutSet 1) (testState 0x20000001 [7, 0, 0x00012D12, 20]
    Units.reset)) = some { Units.reset with lay := [(1, layoutOne)] } := by decide
theorem test_ccpLayoutSet_bad : resultOf (exec (.ccpLayoutSet 2) (testState 0x20000002 [3, 0, 17665, 0]
    Units.reset)) = some (.badLayout, [0, 0, 0, 0]) := by decide
/-- Row CCP-19. -/
theorem test_ccpLayoutDel : unitsAfter (exec (.ccpLayoutDel 1) (testState 0x21000001 [] unitsLay)) =
    some { Units.reset with lay := [(0, layoutZero)] } := by decide
/-- Rows CCP-2, CCP-4. -/
theorem test_ccpLayoutInfo : resultOf (exec (.ccpLayoutInfo 0) (testState 0x22000000 [] unitsLay)) =
    some (.ok, [0x10, 0x005F0000, 1, 0x00600060]) := by decide
theorem test_ccpLayoutInfo_interleaved : resultOf (exec (.ccpLayoutInfo 1) (testState 0x22000001 [] unitsLay)) =
    some (.ok, [6, 0x00250014, 6, 0x00240012]) := by decide
/-- Rows CCP-6, CCP-9. -/
theorem test_ccpCceMap : resultOf (exec (.ccpCceMap 1) (testState 0x23000001 [1] unitsLay)) =
    some (.ok, [0x20, 0xFFFFFFFF, 0xFFFFFFFF, 0x00060103]) := by decide
theorem test_ccpCceMap_plain : resultOf (exec (.ccpCceMap 0) (testState 0x23000000 [15] unitsLay)) =
    some (.ok, [0x5A, 0xFFFFFFFF, 0xFFFFFFFF, 0x00010106]) := by decide
/-- Rows CCP-22, CCP-24. -/
theorem test_ccpFind : resultOf (exec (.ccpFind true 0) (testState 0x24010000 [0, 34, 5] unitsLay)) =
    some (.ok, [4, 2, 0, 0x101]) := by decide
theorem test_ccpFind_collision : resultOf (exec (.ccpFind false 0) (testState 0x24000000 [0, 34, 5] unitsBusy)) =
    some (.ok, [12, 2, 1, 2]) := by decide
/-- Rows CCP-36, CCP-38 (beam 0 not yet marked as there: only CCE 0..3 are needed). -/
theorem test_ccpSearch : resultOf (exec (.ccpSearch false 0) (testState 0x25000000 [2, 69905, 0, 128] unitsLay)) =
    some (.ok, [0, 2, 0, 1]) := by decide
theorem test_ccpSearch_badCq : resultOf (exec (.ccpSearch false 0) (testState 0x25000000 [0, 0, 0, 300] unitsLay)) =
    some (.badArg, [0, 0, 0, 0]) := by decide
/-- The level orders R241 gives for CQ 0, 128, 255 and 256. -/
theorem test_levelOrder : levelOrder 0 = [0, 1, 2, 3, 4] ∧ levelOrder 128 = [2, 3, 4, 1, 0] ∧
    levelOrder 255 = [4, 3, 2, 1, 0] ∧ levelOrder 256 = [4, 3, 2, 1, 0] := by decide
/-- Rows CCP-42, CCP-43. -/
theorem test_ccpMark_unaligned : resultOf (exec (.ccpMark 0) (testState 0x26000000 [3, 2, 2] unitsLay)) =
    some (.badArg, [0, 0, 0, 0]) := by decide
theorem test_ccpMark : (unitsAfter (exec (.ccpMark 1) (testState 0x26000001 [3, 0, 1] unitsLay))).map (·.occ) =
    some [(3 * 65536 + 32, 6), (3 * 65536 + 33, 6), (3 * 65536 + 34, 6)] := by decide
/-- One beam cleared, the others kept (R246). -/
theorem test_occClear : unitsAfter (exec (.occClear false) (testState 0x28000000 [0]
    { Units.reset with occ := [(24, 1), (65536 + 24, 3)] })) =
    some { Units.reset with occ := [(65536 + 24, 3)] } := by decide
theorem test_occClear_all : unitsAfter (exec (.occClear true) (testState 0x28010000 [9]
    { Units.reset with occ := [(24, 1), (65536 + 24, 3)] })) = some Units.reset := by decide
/-- A set ORs (R247); row CCP-48. -/
theorem test_occSet : unitsAfter (exec .occSet (testState 0x29000000 [0, 0x20018, 6]
    { Units.reset with occ := [(24, 1)] })) = some { Units.reset with occ := [(24, 7), (25, 6)] } := by decide
theorem test_occSet_range : resultOf (exec .occSet (testState 0x29000000 [0, 393486, 1] Units.reset)) =
    some (.badArg, [0, 0, 0, 0]) := by decide
/-- Rows CCP-45, CCP-47. -/
theorem test_occRead : resultOf (exec .occRead (testState 0x2A000000 [0, 24] unitsBusy)) =
    some (.ok, [1, 0, 0, 0]) := by decide
theorem test_occRead_range : resultOf (exec .occRead (testState 0x2A000000 [0, 275] unitsBusy)) =
    some (.badArg, [0, 0, 0, 0]) := by decide
/-- Rows GEN-19, GEN-20. -/
theorem test_genField_wide : resultOf (exec (.genField 1) (testState 0x30000001 [1, 33] Units.reset)) =
    some (.badArg, [0, 0, 0, 0]) := by decide
theorem test_genField : unitsAfter (exec (.genField 63) (testState 0x3000003F [0xFFFFFFFF, 32] Units.reset)) =
    some { Units.reset with gen0 := [(63, ⟨0xFFFFFFFF, 32, true⟩)] } := by decide
/-- Rows GEN-1, GEN-3. -/
theorem test_genEncode : resultOf (exec .genEncode (testState 0x31000000 [0x40, 39] unitsGen)) =
    some (.ok, [0x464C5550, 0x4B, 0x27, 0x2500]) := by decide
theorem test_genEncode_variant : resultOf (exec .genEncode (testState 0x31000000 [0x10, 39] unitsVariant)) =
    some (.ok, [0xEA0A6000, 0x7F, 0x27, 0x2401]) := by decide
theorem test_genClear : unitsAfter (exec .genClear (testState 0x32000000 [] { unitsGen with gen1 := [(1, ⟨1, 1, true⟩)] })) =
    some { Units.reset with gen1 := [(1, ⟨1, 1, true⟩)] } := by decide
/-- Rows LAS-1, LAS-21. -/
theorem test_laInit : unitsAfter (exec (.laInit .dl 0) (testState 0x40000000 [1769482, 6554, 19661, 0] Units.reset)) =
    some (unitsRec recordOne) := by decide
theorem test_laInit_bad : resultOf (exec (.laInit .dl 7) (testState 0x40000007 [1771013] Units.reset)) =
    some (.badArg, [0, 0, 0, 0]) := by decide
/-- Rows LAS-2, LAS-3. -/
theorem test_laEval_early : resultOf (exec (.laEval .dl 0) (testState 0x41000000 [9, 20, 0] (unitsRec recordOne))) =
    some (.ok, [10, 0, 0, 0]) := by decide
theorem test_laEval : resultOf (exec (.laEval .dl 0) (testState 0x41000000 [10, 20, 0] (unitsRec recordOne))) =
    some (.ok, [11, 0, 3, 20]) := by decide
/-- Rows LAS-4, LAS-5. -/
theorem test_laRead : resultOf (exec (.laRead .dl false 0) (testState 0x42000000 []
    (unitsRec { recordOne with mcs := 11, last := 10, txSnap := 20 }))) =
    some (.ok, [1769483, 0, 655370, 6554]) := by decide
theorem test_laRead_page1 : resultOf (exec (.laRead .dl true 0) (testState 0x42020000 []
    (unitsRec { recordOne with mcs := 11, last := 10, txSnap := 20 }))) = some (.ok, [19661, 20, 0, 0]) := by decide
/-- R360: 7 is not 2-3-5-smooth, so with TP the least conforming count from 7 on is 8. -/
theorem test_rbsFit_tp : resultOf (exec .rbsFit (testState 0x50000000 [8, 0x000A0007, 1, 1] Units.reset)) =
    some (.ok, [8, 8, 1, 2]) := by decide
theorem test_rbsFit_notFit : resultOf (exec .rbsFit (testState 0x50000000 [11, 0x000A0001, 1, 0] Units.reset)) =
    some (.notFit, [10, 10, 0, 1]) := by decide
/-- Rows BMA-2, BMA-20. -/
theorem test_bmConfig : unitsAfter (exec .bmConfig (testState 0x60000000 [655364, 2]
    { Units.reset with bt := [(5, 7)] })) =
    some { Units.reset with bma := some { bd := 4, sz := 10, nt := 2 } } := by decide
theorem test_bmConfig_large : resultOf (exec .bmConfig (testState 0x60000000 [4259844, 2] Units.reset)) =
    some (.badArg, [0, 0, 0, 0]) := by decide
/-- Rows BMA-5, BMA-6. -/
theorem test_bmAlloc_reuse : resultOf (exec .bmAlloc (testState 0x61000000 [1, 7, 20] unitsBeam)) =
    some (.ok, [0, 0, 5, 0]) := by decide
theorem test_bmAlloc_assign : unitsAfter (exec .bmAlloc (testState 0x61000000 [65537, 9, 20] unitsBeam)) =
    some { unitsBeam with bt := [(5, 7), (65536 + 5, 9)] } := by decide
/-- Rows BMA-9, BMA-10. -/
theorem test_bmRelease_stale : resultOf (exec .bmRelease (testState 0x62000000 [196609, 9, 20, 256] unitsBeam)) =
    some (.ok, [0, 0, 5, 0]) := by decide
theorem test_bmRelease : unitsAfter (exec .bmRelease (testState 0x62000000 [196609, 7, 20, 256] unitsBeam)) =
    some { unitsBeam with bt := [] } := by decide
/-- Rows BMA-4, BMA-18. -/
theorem test_bmRead : resultOf (exec .bmRead (testState 0x63000000 [0, 5] unitsBeam)) =
    some (.ok, [7, 0, 0, 0]) := by decide
theorem test_bmRead_range : resultOf (exec .bmRead (testState 0x63000000 [0, 10] unitsBeam)) =
    some (.badArg, [0, 0, 0, 0]) := by decide

/-! ### Witnesses: the hypotheses of the obligations can be met -/

/-- A state whose next turn is `t`. -/
def turnState (t : Turn) (s : State) : State := { s with agenda := [t] }

theorem witness_DecodeEncodeAgree : (Instr.hqMarkFb .ul 65535).wfIn ex1 = true ∧
    decode ex1 0x1201FFFF = some (.hqMarkFb .ul 65535) := by decide

/-- A matching word of a present unit, one of an absent unit, and a word that matches no row. -/
theorem witness_DecodeFollowsTheOpcodeMap :
    opcodeTable[2] ∈ opcodeTable ∧ (0x1001FFFF#32 &&& opcodeTable[2].mask = opcodeTable[2].bits) ∧
    (0x63000000#32 &&& opcodeTable[30].mask = opcodeTable[30].bits) ∧
    (opcodeTable[30].mnemonic ∈ ["BM_CONFIG", "BM_ALLOC", "BM_RELEASE", "BM_READ"] ∧
      ({ ex1 with hasBma := false } : Config).hasBma = false) ∧
    (0x50000000#32 &&& opcodeTable[26].mask = opcodeTable[26].bits) ∧
    (opcodeTable[26].mnemonic = "RBS_FIT" ∧ ({ ex1 with hasRbs := false } : Config).hasRbs = false) ∧
    ∀ row ∈ opcodeTable, 0x02000000#32 &&& row.mask ≠ row.bits := by decide

theorem witness_IllegalWordAborts :
    let s := turnState (.engine (.command .p0)) (testState 0x02000000 [] Units.reset)
    s.agenda = .engine (.command .p0) :: [] ∧ (s.port .p0).pend = some 0x02000000 ∧
      (s.holdOwner = none ∨ s.holdOwner = some .p0) ∧ overdue s PortId.p0.other = false ∧
      decode s.cfg 0x02000000 = none := by decide

/-- Both ports have a NOP pending, and port 1 has waited as long as the round allows. -/
def overdueState : State :=
  { testState 0 [] Units.reset with
    port1 := { Port.reset with pend := some 0 }
    fair := { last := .p0, streak := Config.patience 0, round := 0 } }
theorem overdueState_overdue (a : List Turn) :
    overdue { overdueState with agenda := a } .p1 = true := by
  simp only [overdue, Bool.and_eq_true, decide_eq_true_eq]
  exact ⟨⟨by decide, rfl⟩, le_refl _⟩
/-- The engine was to serve port 0, but port 1 is overdue and served instead (R464). -/
theorem test_overdue : fairMove overdueState (.command .p0) = .command .p1 :=
  if_pos (overdueState_overdue [])

/-- The engine's turn, its turn while the other port is overdue, the engine alone with one enabled move (the hold owned), and a placed word. -/
theorem witness_StepRunsTheDecodedCommand :
    (let s := turnState (.engine (.command .p0)) (testState 0x13000000 [] Units.reset)
     s.agenda = .engine (.command .p0) :: [] ∧ (s.port .p0).pend = some 0x13000000 ∧
      (s.holdOwner = none ∨ s.holdOwner = some .p0) ∧ overdue s PortId.p0.other = false ∧
      decode s.cfg 0x13000000 = some (.hqFeedback .dl 0)) ∧
    (let s := turnState (.engine (.command .p0)) overdueState
     s.agenda = .engine (.command .p0) :: [] ∧ moveEnabled s (.command .p0) = true ∧
      overdue s (EngineMove.command .p0).port.other = true ∧
      (s.port (EngineMove.command .p0).port.other).pend = some 0 ∧ decode s.cfg 0 = some .nop) ∧
    (let s : State := { testState 0 [] Units.reset with holdOwner := some .p0 }
     s.agenda = [] ∧ (s.port .p0).pend = some 0 ∧ (s.holdOwner = none ∨ s.holdOwner = some .p0) ∧
      (∀ m, moveEnabled s m = true → m = .command .p0) ∧ decode s.cfg 0 = some .nop) ∧
    decode State.reset.cfg (BitVec.ofNat 32 (0x63000000 % 2 ^ 32)) = some .bmRead := by
  refine ⟨by decide, ⟨rfl, rfl, overdueState_overdue _, rfl, by decide⟩,
    ⟨by decide, by decide, by decide, ?_, by decide⟩, by decide⟩
  rintro (p | p) <;> cases p <;> decide

/-- An engine with two enabled moves, and one with none. -/
theorem witness_EngineTakesAnEnabledMove :
    (testState 0 [] Units.reset).agenda = [] ∧
    moveEnabled (testState 0 [] Units.reset) (.command .p0) = true ∧
    State.reset.agenda = [] ∧ enabledMoves State.reset = [] := by decide

theorem witness_HoldGrantReleaseAndExclusion :
    (let s := turnState (.engine (.grant .p1)) { State.reset with port1 := { Port.reset with holdReq := true } }
     s.agenda = .engine (.grant .p1) :: [] ∧ s.holdOwner = none ∧ (s.port .p1).holdReq = true ∧
      overdue s PortId.p1.other = false) ∧
    (let s := turnState (.access .p0 (.write .word (BitVec.ofNat 12 (portBase .p0 + 0x08)) 0))
      { State.reset with port0 := { Port.reset with holdReq := true }, holdOwner := some .p0 }
     s.agenda = .access .p0 (.write .word (BitVec.ofNat 12 (portBase .p0 + 0x08)) 0) :: [] ∧
      (s.port .p0).pend = none ∧ s.holdOwner = some .p0) ∧
    (let s : State := { testState 0 [] Units.reset with holdOwner := some .p0 }
     s.holdOwner = some .p0 ∧ PortId.p1 ≠ .p0 ∧ s.agenda = [] ∧
      step s = .next (nextOf s (step s)) ∧ (nextOf s (step s)).port0.done = true) := by
  refine ⟨by decide, by decide, by decide, by decide, by decide, rfl, by decide⟩

theorem witness_SoftAndHardwareReset :
    (turnState (.access .p1 (.write .word 0x018 1)) (testState 0 [] unitsLay)).agenda =
      .access .p1 (.write .word 0x018 1) :: [] ∧
    (turnState .hardReset (testState 0 [] unitsLay)).agenda = .hardReset :: [] := by decide

theorem witness_ResetMeetsTheInvariants : ex1.wf = true := by decide

/-- A byte access, an unaligned one, the first and last offsets of each range, and a read-only register. -/
theorem witness_WindowAccesses :
    (AccessWidth.byte ≠ .word ∧ (turnState (.access .p0 (.read .byte 0x100)) State.reset).agenda =
      .access .p0 (.read .byte 0x100) :: []) ∧
    ((0x102#12).toNat % 4 ≠ 0 ∧ (turnState (.access .p0 (.write .word 0x102 1)) State.reset).agenda =
      .access .p0 (.write .word 0x102 1) :: []) ∧
    ((0xFFC#12).toNat % 4 = 0 ∧ (turnState (.access .p0 (.read .word 0xFFC)) State.reset).agenda =
      .access .p0 (.read .word 0xFFC) :: []) ∧
    (0x038 ≤ 0x038 ∧ 0x038 < 0x100 ∧ 0x140 ≤ 0x1FF ∧ 0x1FF < 0x200 ∧ 0x240 ≤ 0xFFF ∧ 0xFFF < 0x1000) ∧
    ((0x13C#12).toNat % 4 = 0 ∧ (portBase .p0 + 0x30 ≤ (0x13C#12).toNat ∧ (0x13C#12).toNat < portBase .p0 + 0x40) ∧
      (turnState (.access .p0 (.write .word 0x13C 5)) State.reset).agenda =
        .access .p0 (.write .word 0x13C 5) :: []) ∧
    ((0x014#12).toNat % 4 = 0 ∧ (0x014#12).toNat < 0x018 ∧
      (turnState (.access .p0 (.write .word 0x014 5)) State.reset).agenda =
        .access .p0 (.write .word 0x014 5) :: []) := by decide

theorem witness_RegisterReads : State.reset.cfg.wf = true := by decide

theorem witness_CommandAcceptance :
    let s := turnState (.access .p1 (.write .word (BitVec.ofNat 12 (portBase .p1)) 7)) State.reset
    s.agenda = .access .p1 (.write .word (BitVec.ofNat 12 (portBase .p1)) 7) :: [] ∧
      (s.port .p1).pend = none := by decide

/-- A CMD write dropped while BUSY: the command stays pending. -/
theorem witness_CommandAcceptance_pending :
    let s := turnState (.access .p0 (.write .word (BitVec.ofNat 12 (portBase .p0)) 7))
      (testState 0 [] Units.reset)
    (∃ t, step s = .next t ∧ (t.port .p0).pend.isSome = true) ∧ (s.port .p0).pend.isSome = true :=
  ⟨⟨_, rfl, by decide⟩, by decide⟩

theorem witness_ResetValues : ex1.wf = true := by decide

/-- The last ARG register, idle and BUSY. -/
theorem witness_ArgumentWritesAndDrops :
    (let s := turnState (.access .p1 (.write .word (BitVec.ofNat 12 (portBase .p1 + 0x10 + 4 * (7 : Fin 8))) 9))
      State.reset
     s.agenda = .access .p1 (.write .word (BitVec.ofNat 12 (portBase .p1 + 0x10 + 4 * (7 : Fin 8))) 9) :: [] ∧
      (s.port .p1).pend = none) ∧
    (let s := turnState (.access .p0 (.write .word (BitVec.ofNat 12 (portBase .p0 + 0x08)) 1))
      (testState 0 [] Units.reset)
     s.agenda = .access .p0 (.write .word (BitVec.ofNat 12 (portBase .p0 + 0x08)) 1) :: [] ∧
      (s.port .p0).pend.isSome = true) := by decide

theorem witness_StatusWrites :
    (turnState (.access .p0 (.write .word 0x02C 1)) State.reset).agenda = .access .p0 (.write .word 0x02C 1) :: [] ∧
    (turnState (.access .p0 (.write .word 0x030 7)) State.reset).agenda = .access .p0 (.write .word 0x030 7) :: [] ∧
    (turnState (.access .p0 (.write .word 0x034 7)) State.reset).agenda = .access .p0 (.write .word 0x034 7) :: [] ∧
    (turnState (.access .p0 (.write .word (BitVec.ofNat 12 (portBase .p1 + 4)) 4)) State.reset).agenda =
      .access .p0 (.write .word (BitVec.ofNat 12 (portBase .p1 + 4)) 4) :: [] := by decide

/-- A command that completes, one with a soft result and one with a fatal one. -/
theorem witness_CommandFrame : exec (.hqStat .dl 0) (testState 0x17000000 [] (unitsPool poolSix)) =
    .next (nextOf State.reset (exec (.hqStat .dl 0) (testState 0x17000000 [] (unitsPool poolSix)))) := rfl
theorem witness_ResultClasses :
    (let s := testState 0x14000000 [] (unitsPool poolSix)
     exec (.hqTakeRetx .dl 0) s = .next (nextOf s (exec (.hqTakeRetx .dl 0) s)) ∧
      ((nextOf s (exec (.hqTakeRetx .dl 0) s)).port s.cur).rcode.toByte.toNat < 0x80 ∧
      ((nextOf s (exec (.hqTakeRetx .dl 0) s)).port s.cur).rcode.toByte ≠ 0) ∧
    (let s := testState 0x10000010 [] Units.reset
     exec (.hqCreate .dl 16) s = .next (nextOf s (exec (.hqCreate .dl 16) s)) ∧
      0x80 ≤ ((nextOf s (exec (.hqCreate .dl 16) s)).port s.cur).rcode.toByte.toNat) := by
  refine ⟨⟨rfl, by decide, by decide⟩, rfl, by decide⟩
theorem witness_OnlyDocumentedCodes : exec .nop (testState 0 [] Units.reset) =
    .next (nextOf State.reset (exec .nop (testState 0 [] Units.reset))) := rfl

theorem poolWf_six : PoolWf 32 poolSix := ⟨by decide, by decide, by decide, by decide, by decide⟩
theorem poolWf_eight : PoolWf 32 poolEight := ⟨by decide, by decide, by decide, by decide, by decide⟩

/-- A state that satisfies the invariant, and a step from it that changes what the invariant is about. -/
theorem witness_StepKeepsPools :
    let s := testState 0x13000000 [1] (unitsPool poolSix)
    PoolsOk s ∧ step s = .next (nextOf s (step s)) ∧ (nextOf s (step s)).units = unitsPool poolEight := by
  refine ⟨?_, rfl, by decide⟩
  intro e he
  rw [List.mem_singleton.1 he]
  exact poolWf_six
theorem witness_StepKeepsArraysCanonical :
    let s := testState 0x29000000 [0, 0x20018, 6] unitsBusy
    ArraysCanonical s.units ∧ step s = .next (nextOf s (step s)) ∧
      (nextOf s (step s)).units.occ = [(24, 7), (25, 6)] := by
  refine ⟨by unfold ArraysCanonical; decide, rfl, by decide⟩
theorem witness_StepKeepsTheErrorLatch :
    let s := testState 0x02000000 [] Units.reset
    LatchOk s.greg ∧ step s = .next (nextOf s (step s)) ∧ (nextOf s (step s)).greg.fatal = true := by
  refine ⟨⟨fun _ => by decide, fun h => absurd h (by decide)⟩, rfl, by decide⟩
theorem laRecOk_one : LaRecOk recordOne := by unfold LaRecOk; decide
theorem witness_StepKeepsLinkRecords :
    let s := testState 0x41000000 [10, 20, 0] (unitsRec recordOne)
    RecsOk s ∧ step s = .next (nextOf s (step s)) ∧ (nextOf s (step s)).units ≠ s.units := by
  refine ⟨?_, rfl, by decide⟩
  intro e he
  rw [List.mem_singleton.1 he]
  exact laRecOk_one
theorem layoutOk_zero : LayoutOk 275 layoutZero := by unfold LayoutOk LegalLayout; decide
theorem layoutOk_one : LayoutOk 275 layoutOne := by unfold LayoutOk LegalLayout; decide
/-- Two layouts and a beam configuration; the step is row BMA-6, which lists a second beam-table entry. -/
theorem witness_StepKeepsRecords :
    let s := testState 0x61000000 [65537, 9, 20] { unitsBeam with lay := unitsLay.lay }
    RecordsOk s ∧ step s = .next (nextOf s (step s)) ∧ (nextOf s (step s)).units.bt = [(5, 7), (65536 + 5, 9)] := by
  refine ⟨⟨by decide, by decide, by decide, ?_, by decide, ?_, ?_, ?_, by decide⟩, rfl, by decide⟩
  · intro e he
    rcases List.mem_cons.1 he with rfl | he
    · exact ⟨by decide, layoutOk_zero⟩
    · rw [List.mem_singleton.1 he]; exact ⟨by decide, layoutOk_one⟩
  · intro e he; exact absurd he List.not_mem_nil
  · intro e he; exact absurd he List.not_mem_nil
  · intro b hb
    obtain rfl := Option.some.inj hb
    unfold BmaOk
    decide
theorem witness_StepKeepsPortsAndHold :
    let s := turnState (.engine (.grant .p1)) { State.reset with port1 := { Port.reset with holdReq := true } }
    PortsOk s ∧ step s = .next (nextOf s (step s)) ∧ (nextOf s (step s)).holdOwner = some .p1 := by
  refine ⟨⟨fun p => by cases p <;> decide, fun p => by cases p <;> decide⟩, rfl, by decide⟩

/-! #### System and HQM -/

theorem witness_NopAndCtxReleaseResults :
    State.reset.cfg.numCtx ≤ 16 ∧ 15 < State.reset.cfg.numCtx := by decide
/-- Context 15 and 16; capacity 0, 33, 1 and 32. -/
theorem witness_HqCreateResult :
    let s := fun n => testState 0x10000000 [n] Units.reset
    (s 8).cfg.numCtx ≤ 16 ∧ 15 < (s 8).cfg.numCtx ∧ (s 0).opCap = 0 ∧ (s 33).cfg.nmax < (s 33).opCap ∧
      (1 ≤ (s 1).opCap ∧ (s 1).opCap ≤ (s 1).cfg.nmax) ∧ (1 ≤ (s 32).opCap ∧ (s 32).opCap ≤ (s 32).cfg.nmax) := by
  decide
theorem witness_HqTakeAvailResult :
    let s := testState 0x11000000 [] (unitsPool poolSix)
    let e := testState 0x11000000 [] (unitsPool { cap := 1, av := [], fb := [0], rt := [], due := [] })
    s.cfg.numCtx ≤ 16 ∧ (15 < s.cfg.numCtx ∧ s.units.pool 15 .ul = none) ∧ 0 < s.cfg.numCtx ∧
      (s.units.pool 0 .dl = some poolSix ∧ poolSix.av = 2 :: [3, 4, 6, 7]) ∧
      e.units.pool 0 .dl = some { cap := 1, av := [], fb := [0], rt := [], due := [] } := by decide
/-- Ids 8 (too large), 1 (in RT), 7 (in AV), 0 (in FB) of the pool of row HQM-8. -/
theorem witness_HqMarkFbResult :
    let s := fun n => testState 0x12000000 [n, 5] (unitsPool poolEight)
    (s 8).cfg.numCtx ≤ 16 ∧ (s 8).units.pool 15 .ul = none ∧ 0 < (s 8).cfg.numCtx ∧
      (s 8).units.pool 0 .dl = some poolEight ∧ PoolWf (s 8).cfg.nmax poolEight ∧
      poolEight.cap ≤ (s 8).opId ∧ (s 1).opId ∈ poolEight.rt ∧ (s 7).opId ∈ poolEight.av ∧
      (s 0).opId ∈ poolEight.fb :=
  ⟨by decide, by decide, by decide, by decide, poolWf_eight, by decide, by decide, by decide, by decide⟩
theorem witness_HqFeedbackResult :
    let s := fun n => testState 0x13000000 [n] (unitsPool poolEight)
    (s 8).cfg.numCtx ≤ 16 ∧ (s 8).units.pool 15 .ul = none ∧ 0 < (s 8).cfg.numCtx ∧
      (s 8).units.pool 0 .dl = some poolEight ∧ PoolWf (s 8).cfg.nmax poolEight ∧
      poolEight.cap ≤ (s 8).opId ∧ (s 1).opId ∈ poolEight.rt ∧ (s 7).opId ∈ poolEight.av ∧
      ((s 0x105).opId ∈ poolEight.fb ∧ (s 0x105).opAck = true) ∧
      ((s 5).opId ∈ poolEight.fb ∧ (s 5).opAck = false) :=
  ⟨by decide, by decide, by decide, by decide, poolWf_eight, by decide, by decide, by decide, by decide, by decide⟩
theorem witness_HqTakeRetxResult :
    let s := fun P => testState 0x14000000 [] (unitsPool P)
    (s poolSix).cfg.numCtx ≤ 16 ∧ (s poolSix).units.pool 15 .ul = none ∧ 0 < (s poolSix).cfg.numCtx ∧
      ((s poolEight).units.pool 0 .dl = some poolEight ∧ poolEight.rt = 1 :: []) ∧
      ((s poolSix).units.pool 0 .dl = some poolSix ∧ poolSix.rt = []) := by decide
/-- New capacities 7, 33, 8 and 32 for the pool of capacity 8. -/
theorem witness_HqResizeResult :
    let s := fun n => testState 0x15000000 [n] (unitsPool poolSix)
    (s 7).cfg.numCtx ≤ 16 ∧ (s 7).units.pool 15 .ul = none ∧ 0 < (s 7).cfg.numCtx ∧
      (s 7).units.pool 0 .dl = some poolSix ∧ (s 7).opCap < poolSix.cap ∧
      (poolSix.cap ≤ (s 33).opCap ∧ (s 33).cfg.nmax < (s 33).opCap) ∧
      (poolSix.cap ≤ (s 8).opCap ∧ (s 8).opCap ≤ (s 8).cfg.nmax) ∧
      (poolSix.cap ≤ (s 32).opCap ∧ (s 32).opCap ≤ (s 32).cfg.nmax) := by decide
/-- The first id of AV, a middle one of FB, and the only one of RT. -/
theorem witness_HqQueryResult :
    let s := fun n => testState 0x16000000 [n] (unitsPool poolEight)
    (s 8).cfg.numCtx ≤ 16 ∧ (s 8).units.pool 15 .ul = none ∧ 0 < (s 8).cfg.numCtx ∧
      (s 8).units.pool 0 .dl = some poolEight ∧ (s 8).cfg.wf = true ∧ PoolWf (s 8).cfg.nmax poolEight ∧
      poolEight.cap ≤ (s 8).opId ∧ poolEight.av[0]? = some (s 2).opId ∧
      poolEight.fb[1]? = some (s 5).opId ∧ poolEight.rt[0]? = some (s 1).opId :=
  ⟨by decide, by decide, by decide, by decide, by decide, poolWf_eight, by decide, by decide, by decide, by decide⟩
theorem witness_HqStatResult :
    let s := testState 0x17000000 [] (unitsPool poolEight)
    s.cfg.numCtx ≤ 16 ∧ s.units.pool 15 .ul = none ∧ 0 < s.cfg.numCtx ∧
      s.units.pool 0 .dl = some poolEight ∧ s.cfg.wf = true ∧ PoolWf s.cfg.nmax poolEight :=
  ⟨by decide, by decide, by decide, by decide, by decide, poolWf_eight⟩

/-- Capacity 1, id 0: the state before each command, with ID = 0 and ACK = 1 in ARG0 throughout. -/
def recovery (n : Nat) : State :=
  testState 0x13000000 [0x100] (unitsPool
    (match n with
    | 0 => { cap := 1, av := [0], fb := [], rt := [], due := [] }
    | 1 => { cap := 1, av := [], fb := [0], rt := [], due := [] }
    | 2 => { cap := 1, av := [], fb := [0], rt := [], due := [] }
    | _ => { cap := 1, av := [0], fb := [], rt := [], due := [] }))

theorem witness_ExhaustionAndRecovery :
    0 < (recovery 0).cfg.numCtx ∧ 1 ≤ 1 ∧ 1 ≤ (recovery 0).cfg.nmax ∧ 0 < 1 ∧
    (∀ n, (recovery n).cfg = (recovery 0).cfg) ∧
    (∃ P, (recovery 0).units.pool 0 .dl = some P ∧ P.cap = 1 ∧ P.av = List.range 1 ∧ P.fb = [] ∧ P.rt = [] ∧
      P.due = []) ∧
    (∀ n t, n ≤ 1 → exec (.hqTakeAvail .dl 0) (recovery n) = .next t → (recovery (n + 1)).units = t.units) ∧
    (recovery 2).opId = 0 ∧ (recovery 2).opAck = true ∧
    (∀ t, exec (.hqFeedback .dl 0) (recovery 2) = .next t → (recovery 3).units = t.units) := by
  refine ⟨by decide, by decide, by decide, by decide, fun n => rfl, ⟨_, rfl, by decide⟩, ?_, by decide, by decide, ?_⟩
  · intro n t hn h
    have hn : n = 0 ∨ n = 1 := by omega
    rcases hn with rfl | rfl
    · obtain rfl := Host.Outcome.next.inj h; decide
    · obtain rfl := Host.Outcome.next.inj h; decide
  · intro t h
    obtain rfl := Host.Outcome.next.inj h
    decide

/-! #### The placer -/

theorem not_legal_empty (l : Layout) (h : l.fmask = 0) : ¬ LegalLayout 275 l := fun hl => hl.1 h

/-- Slots 7 and 8; an empty mask; a legal interleaved layout. -/
theorem witness_CcpLayoutSetAndDelResults :
    let s := testState 0x20000001 [7, 0, 0x00012D12, 20] Units.reset
    let b := testState 0x20000002 [0, 0, 1, 0] Units.reset
    s.cfg.numLayouts ≤ 8 ∧ 7 < s.cfg.numLayouts ∧ ¬ LegalLayout b.cfg.numRb b.opLayout ∧
      LegalLayout s.cfg.numRb s.opLayout :=
  ⟨by decide, by decide, not_legal_empty _ (by decide), by unfold LegalLayout; decide⟩

theorem witness_CcpLayoutInfoResult :
    let s := testState 0x22000001 [] unitsLay
    s.cfg.numLayouts ≤ 8 ∧ (7 < s.cfg.numLayouts ∧ look s.units.lay 7 = none) ∧
      look s.units.lay 1 = some layoutOne ∧ s.cfg.wf = true ∧ LayoutOk s.cfg.numRb layoutOne ∧
      layoutOne.fmask.getLsbD 0 = true ∧ layoutOne.fmask.getLsbD 2 = true ∧
      ∀ g, layoutOne.fmask.getLsbD g = true → 0 ≤ g ∧ g ≤ 2 := by
  refine ⟨by decide, by decide, by decide, by decide, layoutOk_one, by decide, by decide, fun g hg => ⟨Nat.zero_le _, ?_⟩⟩
  have h45 : g < 45 := BitVec.lt_of_getLsbD hg
  have key : ∀ g, g < 45 → layoutOne.fmask.getLsbD g = true → g ≤ 2 := by decide
  exact key g h45 hg

/-- CCE 5 is the last of layout 1, CCE 6 is too large. -/
theorem witness_CcpCceMapResult :
    let s := fun n => testState 0x23000001 [n] unitsLay
    (s 0).cfg.numLayouts ≤ 8 ∧ look (s 0).units.lay 7 = none ∧ 1 < (s 0).cfg.numLayouts ∧
      look (s 0).units.lay 1 = some layoutOne ∧ (s 0).cfg.wf = true ∧ LayoutOk (s 0).cfg.numRb layoutOne ∧
      cceCount layoutOne ≤ (s 6).opCce ∧ (s 5).opCce < cceCount layoutOne :=
  ⟨by decide, by decide, by decide, by decide, by decide, layoutOk_one, by decide, by decide⟩

theorem witness_DefaultCceMapping : LayoutOk 275 layoutOne ∧ [0, 1, 2].Pairwise (· < ·) ∧
    (∀ g, g ∈ [0, 1, 2] ↔ layoutOne.fmask.getLsbD g = true) ∧
    5 < 6 * groupCount layoutOne * layoutOne.dur.toNat / layoutOne.bundle.toNat := by
  refine ⟨layoutOk_one, by decide, fun g => ?_, by decide⟩
  by_cases hg : g < 45
  · have key : ∀ g, g < 45 → (g ∈ [0, 1, 2] ↔ layoutOne.fmask.getLsbD g = true) := by decide
    exact key g hg
  · constructor
    · intro h; simp at h; omega
    · intro h; exact absurd (BitVec.lt_of_getLsbD h) hg

/-- Disjoint CCE ranges 0..3 and 4..5 of layout 1. -/
theorem witness_CcesPartitionTheResourceSet : LayoutOk 275 layoutOne ∧ 0 + 4 ≤ 4 ∧ 4 + 2 ≤ cceCount layoutOne :=
  ⟨layoutOk_one, by decide, by decide⟩

theorem levelHit_two : LevelHit (testState 0x24000000 [0, 34, 5] unitsLay) 0 layoutZero 2 2 5 0 :=
  ⟨by decide, by decide, by unfold CandidateFree; decide, by intro k hk; omega⟩

/-- At level 4 the one candidate of layout 0 is taken. -/
theorem levelMiss_four (w : Nat) (args : List Nat) : LevelMiss (testState w args unitsBusy) 0 layoutZero 4 1 0 := by
  refine .inr (.inr fun k hk hf => ?_)
  obtain rfl : k = 0 := by omega
  have h24 : 24 ∈ candidateRbs .protocol layoutZero (candidateFirst layoutZero (2 ^ 4) 1 0 0) (2 ^ 4) := by decide
  exact absurd (hf 24 h24) (by show ¬ (unitsBusy.mask 0 24 &&& symbolMask layoutZero = 0); decide)

/-- Beam 4, level 5 and M = 9 are too large; a hit at level 2 with M = 8 allowed; M = 0 is a miss. -/
theorem witness_CcpFindResult :
    let s := fun a => testState 0x24000000 a unitsLay
    (s []).cfg.numLayouts ≤ 8 ∧ look (s []).units.lay 7 = none ∧ 0 < (s []).cfg.numLayouts ∧
      look (s []).units.lay 0 = some layoutZero ∧ (s []).cfg.wf = true ∧ LayoutOk (s []).cfg.numRb layoutZero ∧
      (s [4, 34, 5]).cfg.numBeams ≤ (s [4, 34, 5]).opBeam ∧ 4 < (s [0, 21, 0]).opLvl ∧ 8 < (s [0, 144, 0]).opM ∧
      ((s [0, 34, 5]).opBeam < (s [0, 34, 5]).cfg.numBeams ∧ (s [0, 34, 5]).opLvl ≤ 4 ∧ (s [0, 34, 5]).opM ≤ 8 ∧
        LevelHit (s [0, 34, 5]) (s [0, 34, 5]).opBeam layoutZero (s [0, 34, 5]).opLvl (s [0, 34, 5]).opM
          (s [0, 34, 5]).opY 0) ∧
      (let e := testState 0x24000000 [0, 0x14, 0] unitsBusy
       e.opBeam < e.cfg.numBeams ∧ e.opLvl ≤ 4 ∧ e.opM ≤ 8 ∧
        LevelMiss e e.opBeam layoutZero e.opLvl e.opM e.opY) :=
  ⟨by decide, by decide, by decide, by decide, by decide, layoutOk_zero, by decide, by decide, by decide,
    ⟨by decide, by decide, by decide, levelHit_two⟩, by decide, by decide, by decide, levelMiss_four _ _⟩

/-- CQ = 256 starts at level 4, where the candidate is taken; level 3 is found. With M = 0 everywhere
nothing is found. -/
theorem witness_CcpSearchResult :
    let s := fun a => testState 0x25000000 a unitsBusy
    (s []).cfg.numLayouts ≤ 8 ∧ look (s []).units.lay 7 = none ∧ 0 < (s []).cfg.numLayouts ∧
      look (s []).units.lay 0 = some layoutZero ∧ (s []).cfg.wf = true ∧ LayoutOk (s []).cfg.numRb layoutZero ∧
      (s [4, 0, 0, 0]).cfg.numBeams ≤ (s [4, 0, 0, 0]).opBeam ∧
      (0 < 5 ∧ 8 < (s [0, 9, 0, 0]).opMLevel 0) ∧ 256 < (s [0, 0, 0, 257]).opCq ∧
      (let f := s [0, 0x12000, 1, 256]
       f.opBeam < f.cfg.numBeams ∧ (∀ v, v < 5 → f.opMLevel v ≤ 8) ∧ f.opCq ≤ 256 ∧
        ((List.range 5).filter (fun v => (4 * f.opCq + 128) / 256 ≤ v) ++
          (List.range ((4 * f.opCq + 128) / 256)).reverse) = [4] ++ 3 :: [2, 1, 0] ∧
        LevelMiss f f.opBeam layoutZero 4 (f.opMLevel 4) f.opY ∧
        LevelHit f f.opBeam layoutZero 3 (f.opMLevel 3) f.opY 0) ∧
      (let e := s [0, 0, 0, 0]
       e.opBeam < e.cfg.numBeams ∧ (∀ v, v < 5 → e.opMLevel v ≤ 8) ∧ e.opCq ≤ 256 ∧
        ∀ v, v < 5 → LevelMiss e e.opBeam layoutZero v (e.opMLevel v) e.opY) := by
  refine ⟨by decide, by decide, by decide, by decide, by decide, layoutOk_zero, by decide, by decide, by decide,
    ⟨by decide, by decide, by decide, by decide, ?_, by decide, by decide, by unfold CandidateFree; decide,
      by intro k hk; omega⟩, by decide, by decide, by decide, ?_⟩
  · refine .inr (.inr fun k hk hf => ?_)
    have hk : k < 1 := hk
    obtain rfl : k = 0 := by omega
    exact absurd (hf 24 (by decide)) (by show ¬ (unitsBusy.mask 0 24 &&& symbolMask layoutZero = 0); decide)
  · intro v hv
    exact .inl ((by decide : ∀ v, v < 5 → (testState 0x25000000 [0, 0, 0, 0] unitsBusy).opMLevel v = 0) v hv)

/-- First CCE 12 at level 2 is the last that fits 16 CCEs; 2 is no multiple, 16 does not fit. -/
theorem witness_CcpMarkResult :
    let s := fun a => testState 0x26000000 a unitsLay
    (s []).cfg.numLayouts ≤ 8 ∧ look (s []).units.lay 7 = none ∧ 0 < (s []).cfg.numLayouts ∧
      look (s []).units.lay 0 = some layoutZero ∧ (s []).cfg.wf = true ∧ LayoutOk (s []).cfg.numRb layoutZero ∧
      (s [4, 2, 0]).cfg.numBeams ≤ (s [4, 2, 0]).opBeam ∧ 4 < (s [3, 5, 0]).opLvl ∧
      (s [3, 2, 2]).opFirst % 2 ^ (s [3, 2, 2]).opLvl ≠ 0 ∧
      cceCount layoutZero < (s [3, 2, 16]).opFirst + 2 ^ (s [3, 2, 16]).opLvl ∧
      ((s [3, 2, 12]).opBeam < (s [3, 2, 12]).cfg.numBeams ∧ (s [3, 2, 12]).opLvl ≤ 4 ∧
        (s [3, 2, 12]).opFirst % 2 ^ (s [3, 2, 12]).opLvl = 0 ∧
        (s [3, 2, 12]).opFirst + 2 ^ (s [3, 2, 12]).opLvl ≤ cceCount layoutZero) :=
  ⟨by decide, by decide, by decide, by decide, by decide, layoutOk_zero, by decide, by decide, by decide,
    by decide, by decide⟩

/-- Beams 3 and 4; ranges ending at resource block 275 and 276; resource blocks 274 and 275. -/
theorem witness_OccupancyCommandResults :
    let s := fun a => testState 0x29000000 a unitsBusy
    (s []).cfg.wf = true ∧ (s [4]).cfg.numBeams ≤ (s [4]).opBeam ∧ (s [3]).opBeam < (s [3]).cfg.numBeams ∧
      (s [3, 0x20112, 1]).cfg.numRb < (s [3, 0x20112, 1]).opRb + (s [3, 0x20112, 1]).opRbCount ∧
      (s [3, 0x10112, 1]).opRb + (s [3, 0x10112, 1]).opRbCount ≤ (s [3, 0x10112, 1]).cfg.numRb ∧
      (s [3, 275]).cfg.numRb ≤ (s [3, 275]).opRb ∧ (s [3, 274]).opRb < (s [3, 274]).cfg.numRb := by decide

/-- The mark of symbol 0 on resource block 24 is there; a bus access and a CCP_FIND follow, and another
CCP_FIND answers OK. -/
theorem witness_OccupancyMonotonicity :
    let s := testState 0x24000000 [0, 34, 5] unitsBusy
    let u := nextOf s (exec (.ccpFind false 0) s)
    24 < 65536 ∧ NoClearRun 0 s u ∧ (s.units.mask 0 24).getLsbD 0 = true ∧
      look u.units.lay 0 = some layoutZero ∧ LayoutOk u.cfg.numRb layoutZero ∧ u.opBeam = 0 ∧
      exec (.ccpFind true 0) u = .next (nextOf u (exec (.ccpFind true 0) u)) ∧
      ((nextOf u (exec (.ccpFind true 0) u)).port u.cur).rcode = .ok ∧
      (symbolMask layoutZero).getLsbD 0 = true := by
  refine ⟨by decide, ?_, by decide, by decide, layoutOk_zero, by decide, rfl, by decide, by decide⟩
  exact .command (.ccpFind false 0) (.outside .start rfl) rfl (by decide) (by decide)

/-! #### The grant encoder -/

theorem witness_GenStagingResults :
    let s := fun n => testState 0x30000000 [1, n] Units.reset
    64 ≤ 64 ∧ 63 < 64 ∧ 32 < (s 33).opWidth.toNat ∧ (s 32).opWidth.toNat ≤ 32 := by decide

/-- MODE 5; an undefined pair; A = 65; a walk with a field missing; A = 36 and 37 for 37 bits; the
variant walk. -/
theorem witness_GenEncodeResult :
    let s := fun a => testState 0x31000000 a unitsGen
    (s [0x50, 39]).opMode = none ∧ (s [0x41, 39]).opMode = some .ded ∧
      genLayout ex1 (s [0x41, 39]).opFmt .ded = none ∧ (s [0x40, 65]).opMode = some .ded ∧
      genLayout ex1 (s [0x40, 65]).opFmt .ded = some [0, 1, 2, 3, 4, 5, 6, 7, 8, 9, 10, 11] ∧
      64 < (s [0x40, 65]).opAlign ∧ (s [0x40, 36]).opAlign ≤ 64 ∧
      Walked ex1.genVariant [0, 1, 2, 3, 4, 5, 6, 7, 8, 9, 10, 11]
        (VariantTaken (s [0x40, 36]).opFmt .ded ((s [0x40, 36]).units.slot .p0 fdraId))
        [0, 1, 2, 3, 4, 5, 6, 7, 8, 9, 10, 11] false ∧
      (∀ f ∈ [0, 1, 2, 3, 4, 5, 6, 7, 8, 9, 10, 11], ((s [0x40, 36]).units.slot .p0 f).wr = true) ∧
      (s [0x40, 36]).opAlign < widthSum ((s [0x40, 36]).units.slot .p0) [0, 1, 2, 3, 4, 5, 6, 7, 8, 9, 10, 11] ∧
      widthSum ((s [0x40, 37]).units.slot .p0) [0, 1, 2, 3, 4, 5, 6, 7, 8, 9, 10, 11] ≤ (s [0x40, 37]).opAlign ∧
      (let e := testState 0x31000000 [0x40, 39] Units.reset
       (0 ∈ [0, 1, 2, 3, 4, 5, 6, 7, 8, 9, 10, 11] ∧ (e.units.slot .p0 0).wr = false) ∧ e.opAlign ≤ 64) ∧
      (let v := testState 0x31000000 [0x10, 39] unitsVariant
       v.opMode = some .ra ∧ genLayout ex1 v.opFmt .ra = some [1, 2, 3, 4, 13, 16] ∧
        Walked ex1.genVariant [1, 2, 3, 4, 13, 16] (VariantTaken v.opFmt .ra (v.units.slot .p0 fdraId))
          [1, 18, 19, 20, 21, 22] true ∧
        (∀ f ∈ [1, 18, 19, 20, 21, 22], (v.units.slot .p0 f).wr = true) ∧
        widthSum (v.units.slot .p0) [1, 18, 19, 20, 21, 22] ≤ v.opAlign) := by
  refine ⟨by decide, by decide, by decide, by decide, by decide, by decide, by decide,
    .inr ⟨rfl, .inl (fun h => by rcases h.2.1 with h | h <;> cases h), rfl⟩, by decide, by decide, by decide,
    by decide, by decide, by decide, .inl ⟨rfl, ?_, [], [2, 3, 4, 13, 16], rfl, by decide, rfl⟩, by decide, by decide⟩
  unfold VariantTaken
  decide

theorem witness_GrantRoundTrip :
    let s := testState 0x31000000 [0x10, 39] unitsVariant
    s.opMode = some .ra ∧ genLayout s.cfg s.opFmt .ra = some [1, 2, 3, 4, 13, 16] ∧
      exec .genEncode s = .next (nextOf s (exec .genEncode s)) ∧
      ((nextOf s (exec .genEncode s)).port s.cur).rcode = .ok :=
  ⟨by decide, by decide, rfl, by decide⟩

/-! #### Link adaptation -/

/-- MIN above MCS0; a threshold above 65536; legal operands at the bound 65536 with WIN = 0. -/
theorem witness_LaInitResult :
    let s := fun a => testState 0x40000000 a Units.reset
    (s []).cfg.numCtx ≤ 16 ∧ 15 < (s []).cfg.numCtx ∧ (s [0x1B0605]).opMcs0.toNat < (s [0x1B0605]).opMin.toNat ∧
      65536 < (s [0, 65537]).opThrLo.toNat ∧
      (let e := s [0x1B000A, 65536, 65536, 0, 0, 0, 0, 65536]
       e.opMin.toNat ≤ e.opMcs0.toNat ∧ e.opMcs0.toNat ≤ e.opMax.toNat ∧ e.opThrLo.toNat ≤ 65536 ∧
        e.opThrHi.toNat ≤ 65536 ∧ e.opRate0.toNat ≤ 65536 ∧ e.opWin.toNat = 0) := by decide

/-- Time 9 is inside the window of 10, time 10 is not. -/
theorem witness_LaEvalResult :
    let s := fun n => testState 0x41000000 [n, 20, 0] (unitsRec recordOne)
    (s 9).cfg.numCtx ≤ 16 ∧ (15 < (s 9).cfg.numCtx ∧ (s 9).units.laRec 15 .ul = none) ∧
      (s 9).units.laRec 0 .dl = some recordOne ∧
      ((s 9).opNow.toNat + 1024 - recordOne.last.toNat) % 1024 < recordOne.win.toNat ∧
      recordOne.win.toNat ≤ ((s 10).opNow.toNat + 1024 - recordOne.last.toNat) % 1024 := by decide

theorem witness_LaReadResult :
    let s := testState 0x42000000 [] (unitsRec recordOne)
    s.cfg.numCtx ≤ 16 ∧ (15 < s.cfg.numCtx ∧ s.units.laRec 15 .ul = none) ∧
      s.units.laRec 0 .dl = some recordOne := by decide

/-- The record of row LAS-1 with both thresholds 0. -/
def recordDown : LaRec := { recordOne with thrLo := 0, thrHi := 0 }

/-- The records of one evaluation with every transmission a retransmission. -/
def downRecords (n : Nat) : LaRec := if n = 0 then recordDown else evalRecord recordDown 10 8 8

theorem witness_DownwardResponse :
    let S := fun n => testState 0x41000000 [10, 8, 8] (unitsRec (downRecords n))
    (∀ n, n ≤ 1 → 0 < (S n).cfg.numCtx ∧ (S n).units.laRec 0 .dl = some (downRecords n)) ∧
    (∀ n, n < 1 → ∃ t, exec (.laEval .dl 0) (S n) = .next t ∧
      t.units.laRec 0 .dl = some (downRecords (n + 1)) ∧
      ((t.port (S n).cur).res.get 2).toNat % 2 = 1 ∧ 4 ≤ ((S n).opTx - (downRecords n).txSnap).toNat ∧
      (downRecords n).thrHi.toNat + 10 ≤ min 65536
        (((S n).opRetx - (downRecords n).retxSnap).toNat * 65536 / ((S n).opTx - (downRecords n).txSnap).toNat)) ∧
    (downRecords 0).thrLo.toNat ≤ (downRecords 0).thrHi.toNat ∧ LaRecOk (downRecords 0) ∧
    (downRecords 0).thrHi.toNat + 1 ≤ 1 ∧ (downRecords 0).thrHi.toNat < (downRecords 1).rate.toNat := by
  refine ⟨fun n _ => ⟨by show 0 < ex1.numCtx; decide, rfl⟩, fun n hn => ?_, by decide, ?_, by decide, by decide⟩
  · obtain rfl : n = 0 := by omega
    exact ⟨_, rfl, by decide, by decide, by decide, by decide⟩
  · unfold LaRecOk
    decide

/-- Two and three transmissions in the window. -/
theorem witness_SparseSchedulingBias :
    (let s := testState 0x41000000 [10, 2, 0] (unitsRec recordOne)
     0 < s.cfg.numCtx ∧ s.units.laRec 0 .dl = some recordOne ∧
      exec (.laEval .dl 0) s = .next (nextOf s (exec (.laEval .dl 0) s)) ∧
      (((nextOf s (exec (.laEval .dl 0) s)).port s.cur).res.get 2).toNat % 2 = 1 ∧
      (nextOf s (exec (.laEval .dl 0) s)).units.laRec 0 .dl = some (evalRecord recordOne 10 2 0) ∧
      LaRecOk recordOne ∧ (s.opTx - recordOne.txSnap).toNat < 3) ∧
    ((testState 0x41000000 [10, 3, 0] (unitsRec recordOne)).opTx - recordOne.txSnap).toNat ≤ 3 :=
  ⟨⟨by decide, by decide, rfl, by decide, by decide, laRecOk_one, by decide⟩, by decide⟩

/-! #### The sizer and the beam allocator -/

theorem smooth_eight : Smooth235 8 := ⟨3, 0, 0, by decide⟩
theorem not_smooth_seven : ¬ Smooth235 7 := fun h => absurd ((is235_iff 7).2 h) (by decide)

/-- MINRB = 0; only 7 in the range with TP = 1; 8 not enough; 8 enough and the least. -/
theorem witness_RbsFitResult :
    let s := fun a => testState 0x50000000 a Units.reset
    ¬ (1 ≤ (s [1, 0x000A0000, 1, 0]).opMinRb ∧ (s [1, 0x000A0000, 1, 0]).opMinRb ≤ (s [1, 0x000A0000, 1, 0]).opMaxRb ∧
      (s [1, 0x000A0000, 1, 0]).opMaxRb ≤ (s [1, 0x000A0000, 1, 0]).cfg.numRb) ∧
    (let e := s [1, 0x00070007, 1, 1]
     1 ≤ e.opMinRb ∧ e.opMinRb ≤ e.opMaxRb ∧ e.opMaxRb ≤ e.cfg.numRb ∧
      ∀ n, ¬ Conforming e.opTp e.opMinRb e.opMaxRb n) ∧
    (let f := s [9, 0x00080007, 1, 1]
     Conforming f.opTp f.opMinRb f.opMaxRb 8 ∧ (∀ m, Conforming f.opTp f.opMinRb f.opMaxRb m → m ≤ 8) ∧
      tbsFn f.cfg.tbs 8 f.opCpar < f.opTarget) ∧
    (let g := s [7, 0x00080007, 1, 1]
     Conforming g.opTp g.opMinRb g.opMaxRb 8 ∧ g.opTarget ≤ tbsFn g.cfg.tbs 8 g.opCpar ∧
      ∀ m, Conforming g.opTp g.opMinRb g.opMaxRb m → g.opTarget ≤ tbsFn g.cfg.tbs m g.opCpar → 8 ≤ m) := by
  refine ⟨by decide, ⟨by decide, by decide, by decide, fun n h => ?_⟩,
    ⟨⟨by decide, by decide, fun _ => smooth_eight⟩, fun m h => h.2.1, by decide⟩,
    ⟨by decide, by decide, fun _ => smooth_eight⟩, by decide, fun m h _ => ?_⟩
  · have h7 : n = 7 := Nat.le_antisymm h.2.1 h.1
    exact not_smooth_seven (h7 ▸ h.2.2 (by decide))
  · have h1 : 7 ≤ m := h.1
    rcases Nat.lt_or_ge m 8 with h8 | h8
    · have h7 : m = 7 := by omega
      exact absurd (h7 ▸ h.2.2 (by decide)) not_smooth_seven
    · exact h8

/-- AS = 64 and 65, NT = 4; an unconfigured allocator; track 1 and index 9 are the last. -/
theorem witness_BmConfigAndReadResults :
    let s := fun a => testState 0x60000000 a Units.reset
    let r := fun a => testState 0x63000000 a unitsBeam
    (s [0x410001, 4]).cfg.allocMax < (s [0x410001, 4]).opAs.toNat ∧
      (1 ≤ (s [0x400001, 4]).opBd.toNat ∧ 1 ≤ (s [0x400001, 4]).opAs.toNat ∧
        (s [0x400001, 4]).opAs.toNat ≤ (s [0x400001, 4]).cfg.allocMax ∧ 1 ≤ (s [0x400001, 4]).opNt.toNat ∧
        (s [0x400001, 4]).opNt.toNat ≤ (s [0x400001, 4]).cfg.numTracks) ∧
      (s []).units.bma = none ∧ (r []).units.bma = some { bd := 4, sz := 10, nt := 2 } ∧
      (2 ≤ (r [2, 0]).opReadTrack ∨ 10 ≤ (r [2, 0]).opIdx) ∧ ((r [1, 9]).opReadTrack < 2 ∧ (r [1, 9]).opIdx < 10) := by
  decide

/-- SLOT = SPF; beam 7 is held by track 0; track 0 is empty at index 0; both tracks taken. -/
theorem witness_BmAllocResult :
    let s := fun a => testState 0x61000000 a unitsBeam
    let cfgTwo : BmaCfg := { bd := 4, sz := 10, nt := 2 }
    (testState 0x61000000 [] Units.reset).units.bma = none ∧ (s []).units.bma = some cfgTwo ∧
      BmaOk (s []).cfg cfgTwo ∧ (s [1310721, 3, 20]).opSpf ≤ (s [1310721, 3, 20]).opSlot ∧
      ((s [196609, 7, 20]).opSlot < (s [196609, 7, 20]).opSpf ∧ (s [196609, 7, 20]).opUbeam ≠ 0xFFFF ∧
        (s [196609, 7, 20]).units.beam 0 5 = (s [196609, 7, 20]).opUbeam) ∧
      ((s [0, 3, 20]).opSlot < (s [0, 3, 20]).opSpf ∧ (s [0, 3, 20]).units.beam 0 0 = 0xFFFF) ∧
      (let f := testState 0x61000000 [131073, 11, 20] { unitsBeam with bt := [(5, 7), (65536 + 5, 9)] }
       f.opSlot < f.opSpf ∧ f.opUbeam ≠ 0xFFFF ∧
        ∀ u, u < 2 → f.units.beam u 5 ≠ f.opUbeam ∧ f.units.beam u 5 ≠ 0xFFFF) :=
  ⟨by decide, by decide, by unfold BmaOk; decide, by decide, by decide, by decide, by decide⟩

/-- Track 2 is too large; the entry holds 7 with WASNEW = 1; a stale release; WASNEW = 0. -/
theorem witness_BmReleaseResult :
    let s := fun a => testState 0x62000000 a unitsBeam
    let cfgTwo : BmaCfg := { bd := 4, sz := 10, nt := 2 }
    (testState 0x62000000 [] Units.reset).units.bma = none ∧ (s []).units.bma = some cfgTwo ∧
      BmaOk (s []).cfg cfgTwo ∧ 2 ≤ (s [1, 3, 20, 258]).opRelTrack ∧
      ((s [196609, 7, 20, 256]).opSlot < (s [196609, 7, 20, 256]).opSpf ∧
        (s [196609, 7, 20, 256]).opUbeam ≠ 0xFFFF ∧ (s [196609, 7, 20, 256]).opRelTrack < 2 ∧
        (s [196609, 7, 20, 256]).opWasNew = true ∧
        (s [196609, 7, 20, 256]).units.beam 0 5 = (s [196609, 7, 20, 256]).opUbeam) ∧
      (s [196609, 9, 20, 256]).units.beam 0 5 ≠ (s [196609, 9, 20, 256]).opUbeam ∧
      (s [1, 7, 20, 0]).opWasNew = false :=
  ⟨by decide, by decide, by unfold BmaOk; decide, by decide, by decide, by decide, by decide⟩

/-- A layout that is not interleaved, under a CCE_MAP about which nothing is known. -/
theorem witness_PlainLayoutsHideRAndShift :
    let s : State := { testState 0x23000000 [15] unitsLay with cfg := { ex1 with cceMap := .given } }
    Instr.ccpCceMap 0 ∈ [Instr.ccpLayoutInfo 0, .ccpCceMap 0, .ccpFind true 0, .ccpSearch true 0, .ccpMark 0] ∧
      look s.units.lay 0 = some layoutZero ∧ layoutZero.il = false ∧
      ∃ t, exec (.ccpCceMap 0) s = .next t ∧ (t.port s.cur).rcode = .ok :=
  ⟨by decide, by decide, by decide, _, rfl, rfl⟩

/-! A run that goes on for ever: port 0 gets a NOP, the engine runs it, the platform resets the block. -/

def runC : State := turnState (hostWrite .p0 0x100 0)
  { State.reset with resp := some (.p0, .done), fair := { last := .p0, streak := 0, round := 1 } }
def runA : State := nextOf runC (step runC)
def runB : State := turnState .hardReset (nextOf runA (step runA))
def fairRun (n : Nat) : State := if n % 3 = 0 then runA else if n % 3 = 1 then runB else runC

theorem witness_EveryEligibleCommandCompletes :
    (∀ n, ∃ t a, step (fairRun n) = .next t ∧ fairRun (n + 1) = { t with agenda := a }) ∧
    ∀ n, ∃ m, n ≤ m ∧ moveEnabled (fairRun m) (.command .p0) = true ∧ (fairRun m).agenda = [] := by
  constructor
  · intro n
    have h : n % 3 = 0 ∧ (n + 1) % 3 = 1 ∨ n % 3 = 1 ∧ (n + 1) % 3 = 2 ∨ n % 3 = 2 ∧ (n + 1) % 3 = 0 := by
      omega
    rcases h with ⟨h, h'⟩ | ⟨h, h'⟩ | ⟨h, h'⟩ <;> simp only [fairRun, h, h']
    · exact ⟨_, [.hardReset], rfl, rfl⟩
    · exact ⟨_, [hostWrite .p0 0x100 0], rfl, by decide⟩
    · exact ⟨_, [], rfl, by decide⟩
  · exact fun n => ⟨3 * n, by omega, by simp only [fairRun, Nat.mul_mod_right]; decide⟩
end

section
/-! What one completed command can put into each unit array, said once per array, and how an
invariant of the unit arrays follows from it for every step. -/

namespace Sys2Proof.Machine

/-! ### The arrays that staging-table and occupancy updates leave alone -/

section
variable (u : Units) (p q : PortId) (g : Sparse GenSlot)
@[simp] theorem setGen_hq : (u.setGen p g).hq = u.hq := by cases p <;> rfl
@[simp] theorem setGen_occ : (u.setGen p g).occ = u.occ := by cases p <;> rfl
@[simp] theorem setGen_lay : (u.setGen p g).lay = u.lay := by cases p <;> rfl
@[simp] theorem setGen_la : (u.setGen p g).la = u.la := by cases p <;> rfl
@[simp] theorem setGen_bma : (u.setGen p g).bma = u.bma := by cases p <;> rfl
@[simp] theorem setGen_bt : (u.setGen p g).bt = u.bt := by cases p <;> rfl

theorem gen_setGen : (u.setGen p g).gen q = if q = p then g else u.gen q := by
  cases p <;> cases q <;> rfl
end

section
variable {u v : Units}
theorem OnlyOcc.hq (h : OnlyOcc u v) : v.hq = u.hq := by unfold OnlyOcc at h; rw [h]
theorem OnlyOcc.lay (h : OnlyOcc u v) : v.lay = u.lay := by unfold OnlyOcc at h; rw [h]
theorem OnlyOcc.gen (h : OnlyOcc u v) (p : PortId) : v.gen p = u.gen p := by
  unfold OnlyOcc at h; rw [h]; cases p <;> rfl
theorem OnlyOcc.la (h : OnlyOcc u v) : v.la = u.la := by unfold OnlyOcc at h; rw [h]
theorem OnlyOcc.bma (h : OnlyOcc u v) : v.bma = u.bma := by unfold OnlyOcc at h; rw [h]
theorem OnlyOcc.bt (h : OnlyOcc u v) : v.bt = u.bt := by unfold OnlyOcc at h; rw [h]
end

section
variable (map : CceMapParam) (l : Layout) (b first n : Nat) (u : Units)

theorem onlyOcc_markCandidate : OnlyOcc u (markCandidate map l b first n u) :=
  onlyOcc_foldl_orMask ..

@[simp] theorem markCandidate_hq : (markCandidate map l b first n u).hq = u.hq :=
  (onlyOcc_markCandidate ..).hq
@[simp] theorem markCandidate_lay : (markCandidate map l b first n u).lay = u.lay :=
  (onlyOcc_markCandidate ..).lay
@[simp] theorem markCandidate_gen (p : PortId) : (markCandidate map l b first n u).gen p = u.gen p :=
  (onlyOcc_markCandidate ..).gen p
@[simp] theorem markCandidate_la : (markCandidate map l b first n u).la = u.la :=
  (onlyOcc_markCandidate ..).la
@[simp] theorem markCandidate_bma : (markCandidate map l b first n u).bma = u.bma :=
  (onlyOcc_markCandidate ..).bma
@[simp] theorem markCandidate_bt : (markCandidate map l b first n u).bt = u.bt :=
  (onlyOcc_markCandidate ..).bt
end

section
variable (b r n : Nat) (m : BitVec 14) (u : Units)

theorem onlyOcc_orRange : OnlyOcc u (orRange b r n m u) := onlyOcc_foldl_orMask ..

@[simp] theorem orRange_hq : (orRange b r n m u).hq = u.hq := (onlyOcc_orRange ..).hq
@[simp] theorem orRange_lay : (orRange b r n m u).lay = u.lay := (onlyOcc_orRange ..).lay
@[simp] theorem orRange_gen (p : PortId) : (orRange b r n m u).gen p = u.gen p := (onlyOcc_orRange ..).gen p
@[simp] theorem orRange_la : (orRange b r n m u).la = u.la := (onlyOcc_orRange ..).la
@[simp] theorem orRange_bma : (orRange b r n m u).bma = u.bma := (onlyOcc_orRange ..).bma
@[simp] theorem orRange_bt : (orRange b r n m u).bt = u.bt := (onlyOcc_orRange ..).bt
end

variable {s t : State} {i : Instr} {rc : RCode} {u : Units}

/-! ### New entries, array by array -/

/-- The pools a command can store at an index that held `old` (R182 to R187). -/
inductive PoolStep (nmax : Nat) (old : Option Pool) : Pool → Prop
  | fresh {n : Nat} (h1 : 1 ≤ n) (hn : n ≤ nmax) : PoolStep nmax old (Pool.fresh n)
  | take {P : Pool} {k : Nat} (hp : old = some P) (hk : k ∈ P.av) : PoolStep nmax old (P.take k)
  | grant {P : Pool} {k : Nat} (w : Word) (hp : old = some P) (hk : k ∈ P.av) :
      PoolStep nmax old ((P.grant k).setDue k w)
  | setDue {P : Pool} {k : Nat} (w : Word) (hp : old = some P) (hk : k ∈ P.fb) :
      PoolStep nmax old (P.setDue k w)
  | ack {P : Pool} {k : Nat} (hp : old = some P) (hk : k ∈ P.fb) : PoolStep nmax old (P.ack k)
  | nack {P : Pool} {k : Nat} (hp : old = some P) (hk : k ∈ P.fb) : PoolStep nmax old (P.nack k)
  | retake {P : Pool} {k : Nat} (hp : old = some P) (hk : k ∈ P.rt) : PoolStep nmax old (P.retake k)
  | grow {P : Pool} {n : Nat} (hp : old = some P) (h1 : P.cap ≤ n) (hn : n ≤ nmax) :
      PoolStep nmax old (P.grow n)

theorem mem_setPool_hq {c : Nat} {d : Direction} {P : Pool} {e : Nat × Pool}
    (hc : c < s.cfg.numCtx) (hP : PoolStep s.cfg.nmax (s.units.pool c d) P)
    (he : e ∈ (s.units.setPool c d P).hq) :
    e ∈ s.units.hq ∨ ∃ c d P, c < s.cfg.numCtx ∧ PoolStep s.cfg.nmax (s.units.pool c d) P ∧
      e = (ctxKey c d, P) := by
  rcases mem_put _ _ _ he with rfl | he
  · exact .inr ⟨c, d, P, hc, hP, rfl⟩
  · exact .inl he

/-- Every pool after a completed command was there before, or was stored by a `PoolStep` at an index
in range. -/
theorem UnitStep.mem_hq (h : UnitStep s i rc u) {e : Nat × Pool} (he : e ∈ u.hq) :
    e ∈ s.units.hq ∨ ∃ c d P, c < s.cfg.numCtx ∧ PoolStep s.cfg.nmax (s.units.pool c d) P ∧
      e = (ctxKey c d, P) := by
  cases h with
  | ctxRelease hc => exact .inl (mem_drop (mem_drop he))
  | hqCreate hc h1 hn => exact mem_setPool_hq hc (.fresh h1 hn) he
  | hqTakeAvail hc hp hq => exact mem_setPool_hq hc (.take hp (by simp [hq])) he
  | hqMarkAv hc hp hid hq => exact mem_setPool_hq hc (.grant _ hp hq) he
  | hqMarkFb hc hp hid hq => exact mem_setPool_hq hc (.setDue _ hp hq) he
  | hqAck hc hp hid hq => exact mem_setPool_hq hc (.ack hp hq) he
  | hqNack hc hp hid hq => exact mem_setPool_hq hc (.nack hp hq) he
  | hqTakeRetx hc hp hq => exact mem_setPool_hq hc (.retake hp (by simp [hq])) he
  | hqResize hc hp h1 hn => exact mem_setPool_hq hc (.grow hp h1 hn) he
  | _ => exact .inl (by simpa [Units.setLaRec, Units.setBeam, clearBeam] using he)

/-- The link-adaptation records a command can store at an index that held `old` (R331, R332). -/
inductive RecStep (s : State) (old : Option LaRec) : LaRec → Prop
  | init (h1 : s.opMin.toNat ≤ s.opMcs0.toNat) (h2 : s.opMcs0.toNat ≤ s.opMax.toNat)
      (h3 : s.opThrLo.toNat ≤ rateOne) (h4 : s.opThrHi.toNat ≤ rateOne)
      (h5 : s.opRate0.toNat ≤ rateOne) : RecStep s old s.opRecord
  | eval {R : LaRec} (hr : old = some R) : RecStep s old (evalRecord R s.opNow s.opTx s.opRetx)

theorem mem_setLaRec_la {c : Nat} {d : Direction} {R : LaRec} {e : Nat × LaRec}
    (hc : c < s.cfg.numCtx) (hR : RecStep s (s.units.laRec c d) R)
    (he : e ∈ (s.units.setLaRec c d R).la) :
    e ∈ s.units.la ∨ ∃ c d R, c < s.cfg.numCtx ∧ RecStep s (s.units.laRec c d) R ∧
      e = (ctxKey c d, R) := by
  rcases mem_put _ _ _ he with rfl | he
  · exact .inr ⟨c, d, R, hc, hR, rfl⟩
  · exact .inl he

theorem UnitStep.mem_la (h : UnitStep s i rc u) {e : Nat × LaRec} (he : e ∈ u.la) :
    e ∈ s.units.la ∨ ∃ c d R, c < s.cfg.numCtx ∧ RecStep s (s.units.laRec c d) R ∧
      e = (ctxKey c d, R) := by
  cases h with
  | ctxRelease hc => exact .inl (mem_drop (mem_drop he))
  | laInit hc h1 h2 h3 h4 h5 => exact mem_setLaRec_la hc (.init h1 h2 h3 h4 h5) he
  | laEval hc hr _ => exact mem_setLaRec_la hc (.eval hr) he
  | _ => exact .inl (by simpa [Units.setPool, Units.setBeam, clearBeam] using he)

theorem UnitStep.mem_lay (h : UnitStep s i rc u) {e : Nat × Layout} (he : e ∈ u.lay) :
    e ∈ s.units.lay ∨ e.1 < s.cfg.numLayouts ∧ LayoutOk s.cfg.numRb e.2 := by
  cases h with
  | layoutSet hk hl =>
    rcases mem_put _ _ _ he with rfl | he
    · exact .inr ⟨hk, layoutStored_ok ((layoutLegal_iff _ _).1 hl)⟩
    · exact .inl he
  | layoutDel hk => exact .inl (mem_drop he)
  | _ => exact .inl (by simpa [Units.setPool, Units.setLaRec, Units.setBeam, clearBeam] using he)

theorem mem_foldl_orMask_occ {b : Nat} {m : BitVec 14} {L : List Nat} {u : Units}
    {e : Nat × BitVec 14} (he : e ∈ (L.foldl (fun v r => v.orMask b r m) u).occ) :
    e ∈ u.occ ∨ ∃ r ∈ L, e.1 = pairKey b r := by
  induction L generalizing u with
  | nil => exact .inl he
  | cons a L ih =>
    rcases ih he with he | ⟨r, hr, hk⟩
    · rcases mem_writeAt he with ⟨rfl, -⟩ | he
      · exact .inr ⟨a, List.mem_cons_self .., rfl⟩
      · exact .inl he
    · exact .inr ⟨r, List.mem_cons_of_mem _ hr, hk⟩

/-- A mark touches the named beam, and of it only resource blocks of the carrier (R237). -/
theorem mem_markCandidate_occ {map : CceMapParam} {l : Layout} {b first n : Nat} {v : Units}
    {numBeams numRb : Nat} (hl : LayoutOk numRb l) (hb : b < numBeams)
    (hf : first + n ≤ Layout.nCce l) {e : Nat × BitVec 14}
    (he : e ∈ (markCandidate map l b first n v).occ) :
    e ∈ v.occ ∨ ∃ b r, b < numBeams ∧ r < numRb ∧ e.1 = pairKey b r := by
  rcases mem_foldl_orMask_occ he with he | ⟨r, hr, hk⟩
  · exact .inl he
  · exact .inr ⟨b, r, hb, candidateRbs_lt hl hf hr, hk⟩

/-- Every listed mask after a completed command was listed before, or belongs to a beam and a resource
block in range; the layouts stored have to be legal (R237, R247). -/
theorem UnitStep.mem_occ (h : UnitStep s i rc u)
    (hlay : ∀ e ∈ s.units.lay, LayoutOk s.cfg.numRb e.2) {e : Nat × BitVec 14} (he : e ∈ u.occ) :
    e ∈ s.units.occ ∨ ∃ b r, b < s.cfg.numBeams ∧ r < s.cfg.numRb ∧ e.1 = pairKey b r := by
  have hpow (v : Nat) : 0 < 1 <<< v := by rw [Nat.one_shiftLeft]; exact Nat.two_pow_pos v
  have legal {k : Nat} {l : Layout} (hl : look s.units.lay k = some l) : LayoutOk s.cfg.numRb l :=
    hlay _ (mem_of_look _ hl)
  cases h with
  | findMark _ hl hb _ hn _ =>
    exact mem_markCandidate_occ (legal hl) hb (firstCce_le (hpow _) hn) he
  | searchMark _ hl hb _ hn _ =>
    exact mem_markCandidate_occ (legal hl) hb (firstCce_le (hpow _) hn) he
  | ccpMark _ hl hb _ _ hn => exact mem_markCandidate_occ (legal hl) hb hn he
  | occClearAll => cases he
  | occClearBeam _ => exact .inl (List.mem_of_mem_filter he)
  | occSet hb hr =>
    rcases mem_foldl_orMask_occ he with he | ⟨r, hmem, hk⟩
    · exact .inl he
    · have := List.mem_range'_1.1 hmem
      exact .inr ⟨s.opBeam, r, hb, by omega, hk⟩
  | _ => exact .inl (by simpa [Units.setPool, Units.setLaRec, Units.setBeam] using he)

/-- Clearing a staging table lists nothing new. -/
theorem mem_gen_setGen_nil {v : Units} {p q : PortId} {e : Nat × GenSlot}
    (he : e ∈ (v.setGen p []).gen q) : e ∈ v.gen q := by
  rw [gen_setGen] at he
  split at he
  · cases he
  · exact he

/-- Only GEN_FIELD stores a staging slot, and it stores a written one (R295). -/
theorem UnitStep.mem_gen (h : UnitStep s i rc u) {p : PortId} {e : Nat × GenSlot} (he : e ∈ u.gen p) :
    e ∈ s.units.gen p ∨ e.1 < 64 ∧ e.2.wid.toNat ≤ 32 ∧ e.2.wr = true := by
  cases h with
  | genField hf hw =>
    rw [gen_setGen] at he
    split at he
    · rename_i hp
      rcases mem_writeAt he with ⟨rfl, -⟩ | he
      · exact .inr ⟨hf, hw, rfl⟩
      · exact .inl (hp ▸ he)
    · exact .inl he
  | genEncode => exact .inl (mem_gen_setGen_nil he)
  | genClear => exact .inl (mem_gen_setGen_nil he)
  | findMark => exact .inl (by simpa using he)
  | searchMark => exact .inl (by simpa using he)
  | ccpMark => exact .inl (by simpa using he)
  | occSet => exact .inl (by simpa using he)
  | _ => cases p <;> exact .inl he

/-- Only BM_CONFIG changes the beam configuration (R381). -/
theorem UnitStep.bma_eq (h : UnitStep s i rc u) {b : BmaCfg} (hb : u.bma = some b) :
    s.units.bma = some b ∨ BmaOk s.cfg b := by
  cases h with
  | bmConfig h1 h2 h3 h4 h5 =>
    cases hb
    have pos {w : Nat} {x : BitVec w} (hx : x ≠ 0) : 1 ≤ x.toNat :=
      Nat.pos_of_ne_zero fun e => hx (BitVec.eq_of_toNat_eq (by simpa using e))
    exact .inr ⟨pos h1, pos h2, h3, pos h4, h5⟩
  | _ => exact .inl (by simpa [Units.setPool, Units.setLaRec, Units.setBeam, clearBeam] using hb)

theorem mem_setBeam_bt {v : Units} {k idx : Nat} {x : BitVec 16} {e : Nat × BitVec 16}
    {numTracks allocMax : Nat} (hk : k < numTracks) (hi : idx < allocMax)
    (he : e ∈ (v.setBeam k idx x).bt) :
    e ∈ v.bt ∨ ∃ k idx, k < numTracks ∧ idx < allocMax ∧ e.1 = pairKey k idx := by
  rcases mem_writeAt he with ⟨rfl, -⟩ | he
  · exact .inr ⟨k, idx, hk, hi, rfl⟩
  · exact .inl he

/-- The index of R382 is below the configured size, hence below ALLOC_MAX. -/
theorem beamIndex_lt {cfg : Config} {b : BmaCfg} (hb : BmaOk cfg b) (frame slot spf : Nat) :
    beamIndex b frame slot spf < cfg.allocMax :=
  lt_of_lt_of_le (Nat.mod_lt _ hb.2.1) hb.2.2.1

theorem UnitStep.mem_bt (h : UnitStep s i rc u) (hbma : ∀ b, s.units.bma = some b → BmaOk s.cfg b)
    {e : Nat × BitVec 16} (he : e ∈ u.bt) :
    e ∈ s.units.bt ∨ ∃ k idx, k < s.cfg.numTracks ∧ idx < s.cfg.allocMax ∧ e.1 = pairKey k idx := by
  have track {b : BmaCfg} {k : Nat} (hb : s.units.bma = some b) (hk : k < b.nt.toNat) :
      k < s.cfg.numTracks := lt_of_lt_of_le hk (hbma b hb).2.2.2.2
  cases h with
  | bmConfig => cases he
  | bmAlloc hb ht _ _ => exact mem_setBeam_bt (track hb ht) (beamIndex_lt (hbma _ hb) ..) he
  | bmRelease hb ht _ _ => exact mem_setBeam_bt (track hb ht) (beamIndex_lt (hbma _ hb) ..) he
  | _ => exact .inl (by simpa [Units.setPool, Units.setLaRec, clearBeam] using he)

/-! ### From the unit arrays to every step -/

/-- An invariant of the parameters and the unit arrays alone is kept by every step when a reset
establishes it and every completed command keeps it. -/
theorem step_keeps_of_unitStep {I : State → Prop}
    (reset : ∀ {s t : State}, t.cfg = s.cfg → t.units = Units.reset → I s → I t)
    (command : ∀ {s t : State} {i : Instr} {rc : RCode},
      t.cfg = s.cfg → UnitStep s i rc t.units → I s → I t)
    (hs : I s) (h : step s = .next t) : I t := by
  have congr {s t : State} (hc : t.cfg = s.cfg) (hu : t.units = s.units) (hs : I s) : I t :=
    command (i := .nop) (rc := .ok) hc (hu ▸ .same) hs
  rcases step_units h with ⟨hu, hc⟩ | ⟨hu, hc⟩ | ⟨s', i, rc, hu', hc', hc, hu⟩
  · exact congr hc hu hs
  · exact reset hc hu hs
  · exact command (hc.trans hc'.symm) hu (congr hc' hu' hs)

end Sys2Proof.Machine
end

section
/-! The pool invariant of `10_state.md` R52: every pool operation moves one id between two queues, or
appends new ids, so the queues stay a partition of the ids (O21). -/

namespace Sys2Proof.Machine

variable {nmax : Nat} {P : Pool} {k : Nat}

/-! ### Moving an id -/

/-- Taking an element out of one list and appending it to another keeps all elements. -/
theorem perm_erase_append {a : List Nat} (b : List Nat) (hk : k ∈ a) :
    (removeId a k ++ appendId b k).Perm (a ++ b) := by
  calc (removeId a k ++ appendId b k).Perm (k :: (removeId a k ++ b)) := by
        unfold appendId
        rw [← List.append_assoc]
        exact List.perm_append_singleton ..
    List.Perm _ (a ++ b) := (List.perm_cons_erase hk).symm.append_right b

/-- A due slot left after dropping that of `k` belongs to an id that stays in FB without `k`. -/
theorem mem_removeId_of_mem_drop {due : Sparse Word} {fb : List Nat} (hdue : ∀ e ∈ due, e.1 ∈ fb)
    {e : Nat × Word} (he : e ∈ drop due k) : e.1 ∈ removeId fb k := by
  obtain ⟨he, hne⟩ := List.mem_filter.1 he
  exact (List.mem_erase_of_ne (by simpa using hne)).2 (hdue e he)

/-! ### Every pool operation keeps R52 -/

theorem PoolWf.fresh {n : Nat} (h1 : 1 ≤ n) (hn : n ≤ nmax) : PoolWf nmax (Pool.fresh n) where
  capPos := h1
  capMax := hn
  parts := by simp [Pool.fresh]
  dueFb := by simp [Pool.fresh]
  dueForm := rfl

section
variable (h : PoolWf nmax P)
include h

theorem PoolWf.take (hk : k ∈ P.av) : PoolWf nmax (P.take k) where
  capPos := h.capPos
  capMax := h.capMax
  parts := ((perm_erase_append P.fb hk).append_right P.rt).trans h.parts
  dueFb := fun e he => List.mem_append_left _ (h.dueFb e (mem_drop he))
  dueForm := rising_drop _ _ h.dueForm

theorem PoolWf.grant (hk : k ∈ P.av) : PoolWf nmax (P.grant k) where
  capPos := h.capPos
  capMax := h.capMax
  parts := ((perm_erase_append P.fb hk).append_right P.rt).trans h.parts
  dueFb := fun e he => List.mem_append_left _ (h.dueFb e he)
  dueForm := h.dueForm

theorem PoolWf.setDue (w : Word) (hk : k ∈ P.fb) : PoolWf nmax (P.setDue k w) where
  capPos := h.capPos
  capMax := h.capMax
  parts := h.parts
  dueFb := fun e he => by
    rcases mem_put _ _ _ he with rfl | he
    · exact hk
    · exact h.dueFb e he
  dueForm := rising_put _ _ _ h.dueForm

theorem PoolWf.ack (hk : k ∈ P.fb) : PoolWf nmax (P.ack k) where
  capPos := h.capPos
  capMax := h.capMax
  parts := by
    have move : (appendId P.av k ++ removeId P.fb k).Perm (P.av ++ P.fb) :=
      List.perm_append_comm.trans ((perm_erase_append P.av hk).trans List.perm_append_comm)
    exact (move.append_right P.rt).trans h.parts
  dueFb := fun e he => mem_removeId_of_mem_drop h.dueFb he
  dueForm := rising_drop _ _ h.dueForm

theorem PoolWf.nack (hk : k ∈ P.fb) : PoolWf nmax (P.nack k) where
  capPos := h.capPos
  capMax := h.capMax
  parts := by
    have move := (perm_erase_append P.rt hk).append_left P.av
    have parts := h.parts
    rw [List.append_assoc] at parts
    simpa [Pool.nack] using move.trans parts
  dueFb := fun e he => mem_removeId_of_mem_drop h.dueFb he
  dueForm := rising_drop _ _ h.dueForm

theorem PoolWf.retake (hk : k ∈ P.rt) : PoolWf nmax (P.retake k) where
  capPos := h.capPos
  capMax := h.capMax
  parts := by
    have move : (appendId P.fb k ++ removeId P.rt k).Perm (P.fb ++ P.rt) :=
      List.perm_append_comm.trans ((perm_erase_append P.fb hk).trans List.perm_append_comm)
    have parts := h.parts
    rw [List.append_assoc] at parts
    simpa [Pool.retake] using (move.append_left P.av).trans parts
  dueFb := fun e he => List.mem_append_left _ (h.dueFb e (mem_drop he))
  dueForm := rising_drop _ _ h.dueForm

theorem PoolWf.grow {n : Nat} (h1 : P.cap ≤ n) (hn : n ≤ nmax) : PoolWf nmax (P.grow n) where
  capPos := h.capPos.trans h1
  capMax := hn
  parts := by
    set new := List.range' P.cap (n - P.cap)
    have hrange : List.range P.cap ++ new = List.range n := by
      have := List.range'_append_1 (s := 0) (m := P.cap) (n := n - P.cap)
      rwa [Nat.zero_add, Nat.add_sub_cancel' h1, ← List.range_eq_range', ← List.range_eq_range'] at this
    calc ((P.av ++ new) ++ P.fb ++ P.rt).Perm ((P.av ++ P.fb ++ P.rt) ++ new) := by
          simpa using (List.perm_append_comm (l₁ := new) (l₂ := P.fb ++ P.rt)).append_left P.av
      List.Perm _ (List.range P.cap ++ new) := h.parts.append_right new
      _ = List.range n := hrange
  dueFb := fun e he => h.dueFb e (List.mem_of_mem_filter he)
  dueForm := rising_filter _ _ h.dueForm

end

/-- What a command stores satisfies R52 when the pool it read did. -/
theorem PoolStep.wf {old : Option Pool} (h : PoolStep nmax old P)
    (hold : ∀ Q, old = some Q → PoolWf nmax Q) : PoolWf nmax P := by
  cases h with
  | fresh h1 hn => exact .fresh h1 hn
  | take hp hk => exact (hold _ hp).take hk
  | grant w hp hk => exact ((hold _ hp).grant hk).setDue w (by simp [Pool.grant, appendId])
  | setDue w hp hk => exact (hold _ hp).setDue w hk
  | ack hp hk => exact (hold _ hp).ack hk
  | nack hp hk => exact (hold _ hp).nack hk
  | retake hp hk => exact (hold _ hp).retake hk
  | grow hp h1 hn => exact (hold _ hp).grow h1 hn

variable {s t : State}

theorem poolsOk_of_reset (hu : t.units = Units.reset) : PoolsOk t := by
  simp [PoolsOk, hu, Units.reset]

theorem poolsOk_of_unitStep {i : Instr} {rc : RCode} (hc : t.cfg = s.cfg)
    (hu : UnitStep s i rc t.units) (hs : PoolsOk s) : PoolsOk t := by
  intro e he
  rw [hc]
  rcases hu.mem_hq he with he | ⟨c, d, P, -, hP, rfl⟩
  · exact hs e he
  · exact hP.wf fun Q hQ => hs _ (mem_of_look _ hQ)

/-- Settles O21: each command stores a pool that some `PoolStep` makes from a pool satisfying R52. -/
theorem stepKeepsPools : Obligations.StepKeepsPools := fun _ _ hs h =>
  step_keeps_of_unitStep (fun _ hu _ => poolsOk_of_reset hu) poolsOk_of_unitStep hs h

end Sys2Proof.Machine
end

section
/-! Ranges of the unit arrays (`10_state.md` R51 to R59, `20_memory.md` R111): records legal and indexes
within the configured arrays (O25), link-adaptation records in range (O24). -/

namespace Sys2Proof.Machine

variable {s t : State} {i : Instr} {rc : RCode}

/-- The parameter ranges of R6. -/
theorem Config.wf_ranges {c : Config} (h : c.wf = true) :
    (1 ≤ c.numCtx ∧ c.numCtx ≤ 65536) ∧ (1 ≤ c.nmax ∧ c.nmax ≤ 255) ∧
    (1 ≤ c.numLayouts ∧ c.numLayouts ≤ 65536) ∧ (1 ≤ c.numBeams ∧ c.numBeams ≤ 256) ∧
    (1 ≤ c.numRb ∧ c.numRb ≤ 65535) ∧ (1 ≤ c.numTracks ∧ c.numTracks ≤ 255) ∧
    (1 ≤ c.allocMax ∧ c.allocMax ≤ 65535) := by
  simp only [Config.wf, Bool.and_eq_true, decide_eq_true_eq] at h
  tauto

/-! ### Every record legal, every index in range -/

theorem ctxKey_lt {c n : Nat} (d : Direction) (hc : c < n) : ctxKey c d < 2 * n := by
  cases d <;> simp [ctxKey, Direction.code] <;> omega

theorem pairKey_div {a b : Nat} (hb : b < 65536) : pairKey a b / 65536 = a := by
  unfold pairKey; omega

theorem pairKey_mod {a b : Nat} (hb : b < 65536) : pairKey a b % 65536 = b := by
  unfold pairKey; omega

theorem slotOk_of_written {g : GenSlot} (hw : g.wid.toNat ≤ 32) (hr : g.wr = true) : SlotOk g :=
  ⟨hw, fun h => by rw [hr] at h; cases h⟩

theorem UnitStep.gen_ok {u : Units} (hu : UnitStep s i rc u) {p : PortId}
    (hs : ∀ e ∈ s.units.gen p, e.1 < 64 ∧ SlotOk e.2) : ∀ e ∈ u.gen p, e.1 < 64 ∧ SlotOk e.2 := by
  intro e he
  rcases hu.mem_gen he with he | ⟨hf, hw, hr⟩
  · exact hs e he
  · exact ⟨hf, slotOk_of_written hw hr⟩

theorem recordsOk_of_reset (hwf : t.cfg.wf = true) (hu : t.units = Units.reset) : RecordsOk t := by
  constructor <;> simp [hu, hwf, Units.reset]

theorem recordsOk_of_unitStep (hc : t.cfg = s.cfg) (hu : UnitStep s i rc t.units)
    (hs : RecordsOk s) : RecordsOk t := by
  obtain ⟨-, -, -, -, ⟨-, hrb⟩, -, ⟨-, halloc⟩⟩ := Config.wf_ranges hs.cfg
  constructor
  case cfg => exact hc ▸ hs.cfg
  case hq =>
    rw [hc]
    intro e he
    rcases hu.mem_hq he with he | ⟨c, d, P, hc, -, rfl⟩
    · exact hs.hq e he
    · exact ctxKey_lt d hc
  case la =>
    rw [hc]
    intro e he
    rcases hu.mem_la he with he | ⟨c, d, R, hc, -, rfl⟩
    · exact hs.la e he
    · exact ctxKey_lt d hc
  case lay =>
    rw [hc]
    intro e he
    rcases hu.mem_lay he with he | h
    · exact hs.lay e he
    · exact h
  case occ =>
    rw [hc]
    intro e he
    rcases hu.mem_occ (fun e he => (hs.lay e he).2) he with he | ⟨b, r, hb, hr, hk⟩
    · exact hs.occ e he
    · have hr' : r < 65536 := by omega
      rw [hk, pairKey_div hr', pairKey_mod hr']
      exact ⟨hb, hr⟩
  case gen0 => exact hu.gen_ok (p := .p0) hs.gen0
  case gen1 => exact hu.gen_ok (p := .p1) hs.gen1
  case bma =>
    rw [hc]
    intro b hb
    rcases hu.bma_eq hb with hb | h
    · exact hs.bma b hb
    · exact h
  case bt =>
    rw [hc]
    intro e he
    rcases hu.mem_bt hs.bma he with he | ⟨k, idx, hk, hi, hkey⟩
    · exact hs.bt e he
    · have hi' : idx < 65536 := by omega
      rw [hkey, pairKey_div hi', pairKey_mod hi']
      exact ⟨hk, hi⟩

/-- Settles O25: a new entry of each array is in range by what its command checked, given that the
layouts and the beam configuration it reads are in range. -/
theorem stepKeepsRecords : Obligations.StepKeepsRecords := fun _ _ hs h =>
  step_keeps_of_unitStep (fun hc hu hs => recordsOk_of_reset (hc ▸ hs.cfg) hu)
    recordsOk_of_unitStep hs h

/-! ### Link-adaptation records -/

/-- The fraction is clamped to 1.0, so the filter keeps the rate within 1.0 (R332). -/
theorem nextRate_le {R : LaRec} (h : R.rate.toNat ≤ rateOne) (tx retx : Word) :
    nextRate R tx retx ≤ rateOne := by
  have hfrac : windowFraction R tx retx ≤ rateOne := by
    unfold windowFraction fraction
    split
    · exact Nat.zero_le _
    · exact Nat.min_le_left ..
  unfold nextRate filtered
  omega

/-- The index moves by one step and saturates at the configured bounds (R332). -/
theorem nextMcs_range {R : LaRec} (h1 : R.mn.toNat ≤ R.mcs.toNat) (h2 : R.mcs.toNat ≤ R.mx.toNat)
    (action : Nat) : R.mn.toNat ≤ nextMcs R action ∧ nextMcs R action ≤ R.mx.toNat := by
  unfold nextMcs
  split <;> omega

theorem laRecOk_evalRecord {R : LaRec} (h : LaRecOk R) (now : BitVec 10) (tx retx : Word) :
    LaRecOk (evalRecord R now tx retx) := by
  obtain ⟨h1, h2, hrate, hwin, hlo, hhi⟩ := h
  obtain ⟨hmn, hmx⟩ := nextMcs_range h1 h2 (evalAction R tx retx)
  have hmcs : (evalRecord R now tx retx).mcs.toNat = nextMcs R (evalAction R tx retx) :=
    Nat.mod_eq_of_lt (lt_of_le_of_lt hmx R.mx.isLt)
  have hnew : nextRate R tx retx ≤ rateOne := nextRate_le hrate tx retx
  have hrate' : (evalRecord R now tx retx).rate.toNat = nextRate R tx retx :=
    Nat.mod_eq_of_lt (lt_of_le_of_lt hnew (by decide))
  exact ⟨hmcs ▸ hmn, hmcs ▸ hmx, hrate' ▸ hnew, hwin, hlo, hhi⟩

/-- WIN = 0 selects the default window, so a stored window is at least 1 (R331). -/
theorem opRecord_win_pos (s : State) : 1 ≤ s.opRecord.win.toNat := by
  change 1 ≤ (if s.opWin = 0 then 10 else s.opWin : BitVec 10).toNat
  split
  · decide
  · rename_i h
    exact Nat.pos_of_ne_zero fun e => h (BitVec.eq_of_toNat_eq e)

/-- What a command stores is in range when the record it read was. -/
theorem RecStep.ok {old : Option LaRec} {R : LaRec} (h : RecStep s old R)
    (hold : ∀ Q, old = some Q → LaRecOk Q) : LaRecOk R := by
  cases h with
  | init h1 h2 h3 h4 h5 => exact ⟨h1, h2, h5, opRecord_win_pos s, h3, h4⟩
  | eval hr => exact laRecOk_evalRecord (hold _ hr) ..

theorem recsOk_of_reset (hu : t.units = Units.reset) : RecsOk t := by
  simp [RecsOk, hu, Units.reset]

theorem recsOk_of_unitStep (hu : UnitStep s i rc t.units) (hs : RecsOk s) : RecsOk t := by
  intro e he
  rcases hu.mem_la he with he | ⟨c, d, R, -, hR, rfl⟩
  · exact hs e he
  · exact hR.ok fun Q hQ => hs _ (mem_of_look _ hQ)

/-- Settles O24: LA_INIT checks the ranges it stores, and LA_EVAL saturates. -/
theorem stepKeepsLinkRecords : Obligations.StepKeepsLinkRecords := fun _ _ hs h =>
  step_keeps_of_unitStep (fun _ hu _ => recsOk_of_reset hu) (fun _ hu => recsOk_of_unitStep hu) hs h

end Sys2Proof.Machine
end

section
/-! Invariants of the registers: the error latch (`10_state.md` R35 to R38) and the ports with the hold
owner (R44, `20_memory.md` R102, R103), kept by every step (O23, O26). -/

namespace Sys2Proof.Machine

variable {s t : State}

/-! ### The error latch -/

theorem latchOk_reset : LatchOk Globals.reset := by simp [LatchOk, Globals.reset]

theorem latchOk_errClear (g : Globals) : LatchOk (errClear g) := by simp [LatchOk, errClear]

/-- The latch does not involve the interrupt registers. -/
theorem latchOk_irq {g : Globals} (st en : BitVec 3) (h : LatchOk g) :
    LatchOk { g with irqStatus := st, irqEnable := en } := h

theorem countUp_ne_zero (c : Word) : countUp c ≠ 0 := by
  intro e
  have := congrArg BitVec.toNat e
  simp only [countUp, BitVec.toNat_ofNat, BitVec.ofNat_eq_ofNat] at this
  omega

/-- ERR_CODE holds the result code in its low byte and fits 17 bits (R36). -/
theorem errCodeWord_range {code : RCode} (hf : code.isFatal = true) (w : Word) (p : PortId) :
    0x80 ≤ (errCodeWord code w p).toNat % 256 ∧ (errCodeWord code w p).toNat < 2 ^ 17 := by
  have hcode : 0x80 ≤ code.toByte.toNat := of_decide_eq_true hf
  have hbyte := code.toByte.isLt
  have hword := w.isLt
  have hport : p.toNat ≤ 1 := by cases p <;> decide
  rw [errCodeWord_toNat]
  omega

theorem latchOk_latch {code : RCode} (hf : code.isFatal = true) (w : Word) (p : PortId)
    {g : Globals} (h : LatchOk g) : LatchOk (latch code w p g) := by
  refine ⟨fun e => by simp [latch] at e, fun _ => ?_⟩
  cases hg : g.fatal with
  | false =>
    obtain ⟨hlow, hhigh⟩ := errCodeWord_range hf w p
    simpa [latch, hg] using ⟨hlow, hhigh, countUp_ne_zero _⟩
  | true =>
    obtain ⟨hlow, hhigh, -⟩ := h.2 hg
    simpa [latch, hg] using ⟨hlow, hhigh, countUp_ne_zero _⟩

theorem latchOk_fatalState {code : RCode} (hf : code.isFatal = true) (h : LatchOk s.greg) :
    LatchOk (fatalState code s).greg := by
  rw [fatalState_greg]
  exact latchOk_latch hf _ _ (latchOk_irq _ _ h)

theorem latchOk_complete {rc : RCode} {res : Vector Word 4} {u : Units} (h : LatchOk s.greg) :
    LatchOk (complete rc res u s).greg := by
  rw [complete_greg]
  exact latchOk_irq _ _ h

theorem latchOk_write (hw : WriteKind s t) (h : LatchOk s.greg) : LatchOk t.greg := by
  cases hw with
  | nothing e => exact e ▸ h
  | reset e => subst e; exact latchOk_reset
  | errClear e => subst e; exact latchOk_errClear _
  | irq st en e => subst e; exact latchOk_irq st en h
  | overrun p b e => subst e; simpa using h
  | accept p w _ e => subst e; simpa [acceptCmd] using h
  | hold p v _ e => subst e; simpa [writeHold] using h
  | arg p i v _ e => subst e; simpa using h

/-- Settles O23: only a fatal result sets the latch, and it latches a fatal code and counts; only an
error clear or a reset takes it back, to 0. -/
theorem stepKeepsTheErrorLatch : Obligations.StepKeepsTheErrorLatch := by
  intro s t hs h
  cases step_cases h with
  | command a n p i _ _ h =>
    rcases exec_shape h with ⟨code, hf, rfl⟩ | ⟨rc, res, u, -, rfl, -⟩
    · exact latchOk_fatalState hf hs
    · exact latchOk_complete hs
  | illegal a n p _ _ e => subst e; exact latchOk_fatalState (by decide) hs
  | grant a n p _ _ e => subst e; exact hs
  | idle a e _ => subst e; exact hs
  | hardReset a e _ => subst e; exact latchOk_reset
  | access a host op e _ =>
    obtain ⟨u, r, hw, e'⟩ := busAccess_cases (s.turned a s.pick s.fair) host op
    subst e
    rw [e']
    have latched : LatchOk u.greg := latchOk_write hw hs
    exact latched

/-! ### The ports and the hold owner -/

/-- A change of port `p` that leaves its request bit and does not make it BUSY and DONE at once. -/
theorem PortsOk.change_port (hs : PortsOk s) (p : PortId) (hother : ∀ q, q ≠ p → t.port q = s.port q)
    (howner : t.holdOwner = s.holdOwner) (hreq : (t.port p).holdReq = (s.port p).holdReq)
    (hp : ¬ ((t.port p).pend.isSome = true ∧ (t.port p).done = true)) : PortsOk t := by
  constructor
  · intro q
    by_cases hq : q = p
    · exact hq ▸ hp
    · rw [hother q hq]; exact hs.1 q
  · intro q hq
    have hold : (s.port q).holdReq = true := hs.2 q (howner ▸ hq)
    by_cases hqp : q = p
    · subst hqp; rwa [hreq]
    · rwa [hother q hqp]

theorem PortsOk.same (hs : PortsOk s) (hport : ∀ q, t.port q = s.port q)
    (howner : t.holdOwner = s.holdOwner) : PortsOk t :=
  hs.change_port .p0 (fun q _ => hport q) howner (by rw [hport]) (by rw [hport]; exact hs.1 _)

theorem portsOk_of_reset (hport : ∀ q, t.port q = Port.reset) (howner : t.holdOwner = none) :
    PortsOk t := by
  constructor
  · intro q; simp [hport, Port.reset]
  · intro q hq; rw [howner] at hq; cases hq

/-- A command leaves its port idle. -/
theorem portsOk_complete (rc : RCode) (res : Vector Word 4) (u : Units) (hs : PortsOk s) :
    PortsOk (complete rc res u s) := by
  have kept := keptOutside_complete s rc res u
  exact hs.change_port s.cur kept.other kept.holdOwner (by rw [complete_port]) (by simp)

theorem portsOk_fatalState (code : RCode) (hs : PortsOk s) : PortsOk (fatalState code s) := by
  have kept := keptOutside_fatalState s code
  exact hs.change_port s.cur kept.other kept.holdOwner (by rw [fatalState_port]) (by simp)

/-- The hold is granted to a port that requests it (R102). -/
theorem portsOk_grant {p : PortId} (hp : (s.port p).holdReq = true) (hs : PortsOk s) :
    PortsOk { s with holdOwner := some p } := by
  refine ⟨fun q => by simpa using hs.1 q, fun q hq => ?_⟩
  cases hq
  simpa using hp

/-- The owner that takes its request back releases the hold (R103). -/
theorem portsOk_writeHold (p : PortId) (v : Word) (hs : PortsOk s) : PortsOk (writeHold s p v) := by
  constructor
  · intro q
    rw [writeHold_port]
    split
    · exact hs.1 p
    · exact hs.1 q
  · intro q hq
    have howner : (writeHold s p v).holdOwner =
        if bit v 0 = false ∧ s.holdOwner = some p then none else s.holdOwner := rfl
    rw [howner] at hq
    split at hq
    · cases hq
    · rename_i hkeep
      rw [writeHold_port]
      split
      · rename_i hqp
        subst hqp
        exact (Bool.eq_false_or_eq_true (bit v 0)).resolve_right fun hbit => hkeep ⟨hbit, hq⟩
      · exact hs.2 q hq

theorem portsOk_write (hw : WriteKind s t) (hs : PortsOk s) : PortsOk t := by
  cases hw with
  | nothing e => exact e ▸ hs
  | reset e => subst e; exact portsOk_of_reset (by simp) rfl
  | errClear e => subst e; exact hs.same (by simp) rfl
  | irq st en e => subst e; exact hs.same (by simp) rfl
  | overrun p b e =>
    subst e
    exact hs.change_port p (fun q hq => s.setPort_port_other p q _ hq) (by simp) (by simp)
      (by simpa using hs.1 p)
  | accept p w _ e =>
    subst e
    exact hs.change_port p (fun q hq => by rw [acceptCmd_port, if_neg hq]) (by simp [acceptCmd])
      (by simp [acceptCmd_port]) (by simp [acceptCmd_port])
  | hold p v _ e => subst e; exact portsOk_writeHold p v hs
  | arg p i v _ e =>
    subst e
    exact hs.change_port p (fun q hq => s.setPort_port_other p q _ hq) (by simp) (by simp)
      (by simpa using hs.1 p)

/-- Settles O26: a command is accepted with DONE 0 and completes with BUSY 0; a grant goes to a
requester, and a release by the owner ends its hold. -/
theorem stepKeepsPortsAndHold : Obligations.StepKeepsPortsAndHold := by
  intro s t hs h
  have turned (a : List Turn) (n : Nat) (f : Fairness) : PortsOk (s.turned a n f) :=
    hs.same (by simp) rfl
  have serving (a : List Turn) (n : Nat) (f : Fairness) (p : PortId) :
      PortsOk ((s.turned a n f).serving p) := hs.same (by simp) rfl
  cases step_cases h with
  | command a n p i _ _ h =>
    rcases exec_shape h with ⟨code, -, rfl⟩ | ⟨rc, res, u, -, rfl, -⟩
    · exact portsOk_fatalState _ (serving ..)
    · exact portsOk_complete _ _ _ (serving ..)
  | illegal a n p _ _ e => subst e; exact portsOk_fatalState _ (serving ..)
  | grant a n p hm _ e =>
    subst e
    have hreq : (s.port p).holdReq = true := (Bool.and_eq_true_iff.1 hm).1
    exact portsOk_grant (by simpa using hreq) (turned ..)
  | idle a e _ => subst e; exact turned ..
  | hardReset a e _ => subst e; exact portsOk_of_reset (by simp) rfl
  | access a host op e _ =>
    obtain ⟨u, r, hw, e'⟩ := busAccess_cases (s.turned a s.pick s.fair) host op
    subst e
    rw [e']
    exact (portsOk_write hw (turned ..)).same (by simp) rfl

end Sys2Proof.Machine
end

section
/-! What every register reads (`10_state.md` R31 to R48), and the reset values (R62): O13, O9, O11. -/

namespace Sys2Proof.Machine

variable (s : State) (p : PortId)

/-! ### Numbers put together from bit fields -/

/-- A field placed above the bits of `a` adds to it. -/
theorem or_shiftLeft_eq_add {a b k : Nat} (h : a < 2 ^ k) : a ||| b <<< k = a + b * 2 ^ k := by
  rw [Nat.or_comm, ← Nat.shiftLeft_add_eq_or_of_lt h, Nat.shiftLeft_eq, Nat.add_comm]

theorem flagNat_eq_toNat (b : Bool) : flagNat b = b.toNat := by cases b <;> rfl

theorem flagNat_le (b : Bool) : flagNat b ≤ 1 := by cases b <;> decide

theorem ownerCode_le (o : Option PortId) : ownerCode o ≤ 2 := by
  cases o with
  | none => decide
  | some p => cases p <;> decide

theorem ownerCode_eq (o : Option PortId) :
    ownerCode o = if o = some .p0 then 1 else if o = some .p1 then 2 else 0 := by
  cases o with
  | none => rfl
  | some p => cases p <;> rfl

/-! ### The address map of one port (R42, R91) -/

theorem regAt_cmd : regAt (portBase p) = .port p .cmd := by cases p <;> rfl
theorem regAt_pstatus : regAt (portBase p + 0x04) = .port p .pstatus := by cases p <;> rfl
theorem regAt_hold : regAt (portBase p + 0x08) = .port p .hold := by cases p <;> rfl
theorem regAt_pseq : regAt (portBase p + 0x0C) = .port p .pseq := by cases p <;> rfl
theorem regAt_arg : ∀ i : Fin 8, regAt (portBase p + 0x10 + 4 * i) = .port p (.arg i) := by
  cases p <;> decide
theorem regAt_res : ∀ i : Fin 4, regAt (portBase p + 0x30 + 4 * i) = .port p (.res i) := by
  cases p <;> decide

/-- The sixteen aligned offsets from B(p) are registers of port `p`. -/
theorem regAt_port {k : Nat} (hk : k < 16) : ∃ r, regAt (portBase p + 4 * k) = .port p r := by
  by_cases harg : 4 ≤ k ∧ k < 12
  · have h := regAt_arg p ⟨k - 4, by omega⟩
    exact ⟨_, by rw [← h]; congr 1; simp only; omega⟩
  by_cases hres : 12 ≤ k
  · have h := regAt_res p ⟨k - 12, by omega⟩
    exact ⟨_, by rw [← h]; congr 1; simp only; omega⟩
  · have hk' : k = 0 ∨ k = 1 ∨ k = 2 ∨ k = 3 := by omega
    rcases hk' with rfl | rfl | rfl | rfl
    · exact ⟨_, regAt_cmd p⟩
    · exact ⟨_, regAt_pstatus p⟩
    · exact ⟨_, regAt_hold p⟩
    · exact ⟨_, regAt_pseq p⟩

theorem readReg_of_regAt {off : Nat} {r : PortReg} (h : regAt off = .port p r) :
    readReg s off = readPort s p r := by
  unfold readReg; rw [h]

/-! ### The capability registers (R33) -/

section
variable {c : Config} (h : c.wf = true)
include h

theorem cap0_toNat : (cap0 c).toNat = (c.numCtx - 1) + c.nmax * 2 ^ 16 := by
  obtain ⟨hctx, hnmax, -⟩ := Config.wf_ranges h
  rw [cap0, or_shiftLeft_eq_add (by omega), BitVec.toNat_ofNat]
  omega

theorem cap1_toNat : (cap1 c).toNat = (c.numLayouts - 1) + (c.numBeams - 1) * 2 ^ 16 +
    (if c.hasBma then c.numTracks else 0) * 2 ^ 24 := by
  obtain ⟨-, -, hlay, hbeam, -, htrack, -⟩ := Config.wf_ranges h
  rw [cap1, or_shiftLeft_eq_add (a := c.numLayouts - 1) (by omega), or_shiftLeft_eq_add (by omega),
    BitVec.toNat_ofNat]
  split <;> omega

theorem cap2_toNat : (cap2 c).toNat = c.numRb + (if c.hasBma then c.allocMax else 0) * 2 ^ 16 := by
  obtain ⟨-, -, -, -, hrb, -, halloc⟩ := Config.wf_ranges h
  rw [cap2, or_shiftLeft_eq_add (by omega), BitVec.toNat_ofNat]
  split <;> omega

end

theorem cap3_toNat (c : Config) : (cap3 c).toNat = (if c.hasRbs then 1 else 0) +
    (if c.hasBma then 2 else 0) + 64 * 2 ^ 8 + 64 * 2 ^ 16 + 14 * 2 ^ 24 := by
  unfold cap3
  cases c.hasRbs <;> cases c.hasBma <;> rfl

/-! ### The status registers (R35, R40, R44) -/

theorem gstatus_toNat : s.gstatus.toNat = s.greg.fatal.toNat + 2 * s.greg.multiFatal.toNat +
    (if (s.port .p0).pend.isSome ∨ (s.port .p1).pend.isSome then 4 else 0) +
    16 * (if s.holdOwner = some .p0 then 1 else if s.holdOwner = some .p1 then 2 else 0) := by
  have hbusy : (if (s.port .p0).pend.isSome ∨ (s.port .p1).pend.isSome then 4 else 0) =
      4 * flagNat (s.port0.busy || s.port1.busy) := by
    have either : ∀ a b : Bool, (if a = true ∨ b = true then 4 else 0) = 4 * flagNat (a || b) := by
      decide
    exact either ..
  rw [hbusy, ← ownerCode_eq, ← flagNat_eq_toNat, ← flagNat_eq_toNat]
  have hf := flagNat_le s.greg.fatal
  have hm := flagNat_le s.greg.multiFatal
  have hb := flagNat_le (s.port0.busy || s.port1.busy)
  have ho := ownerCode_le s.holdOwner
  rw [State.gstatus, or_shiftLeft_eq_add (k := 1) (by omega), or_shiftLeft_eq_add (k := 2) (by omega),
    or_shiftLeft_eq_add (k := 4) (by omega), BitVec.toNat_ofNat]
  omega

theorem pstatus_toNat (v : Port) (granted : Bool) : (v.pstatus granted).toNat =
    v.pend.isSome.toNat + 2 * v.done.toNat + 4 * v.overrun.toNat + 8 * granted.toNat +
      256 * v.rcode.toByte.toNat := by
  simp only [← flagNat_eq_toNat]
  have hb := flagNat_le v.busy
  have hd := flagNat_le v.done
  have ho := flagNat_le v.overrun
  have hg := flagNat_le granted
  have hr := v.rcode.toByte.isLt
  rw [Port.pstatus, or_shiftLeft_eq_add (k := 1) (by omega), or_shiftLeft_eq_add (k := 2) (by omega),
    or_shiftLeft_eq_add (k := 3) (by omega), or_shiftLeft_eq_add (k := 8) (by omega),
    BitVec.toNat_ofNat]
  unfold Port.busy at *
  omega

/-- The interrupt output is 1 exactly when a status bit is set and enabled (R40). -/
theorem irq_iff : s.irq = true ↔
    ∃ j, j < 3 ∧ s.greg.irqStatus.getLsbD j = true ∧ s.greg.irqEnable.getLsbD j = true := by
  rw [State.irq, decide_eq_true_iff]
  constructor
  · intro hne
    by_contra hnone
    refine hne (BitVec.eq_of_getLsbD_eq fun j hj => ?_)
    simpa using fun h1 => Bool.eq_false_iff.2 fun h2 => hnone ⟨j, hj, h1, h2⟩
  · rintro ⟨j, -, h1, h2⟩ e
    have := congrArg (BitVec.getLsbD · j) e
    simp [h1, h2] at this

/-! ### Every register -/

/-- CAP0 to CAP3 at their offsets (R33), parameters in range. -/
theorem readReg_caps (h : s.cfg.wf = true) :
    (readReg s 0x008).toNat = (s.cfg.numCtx - 1) + s.cfg.nmax * 2 ^ 16 ∧
    (readReg s 0x00C).toNat = (s.cfg.numLayouts - 1) + (s.cfg.numBeams - 1) * 2 ^ 16 +
      (if s.cfg.hasBma then s.cfg.numTracks else 0) * 2 ^ 24 ∧
    (readReg s 0x010).toNat = s.cfg.numRb + (if s.cfg.hasBma then s.cfg.allocMax else 0) * 2 ^ 16 ∧
    (readReg s 0x014).toNat = (if s.cfg.hasRbs then 1 else 0) + (if s.cfg.hasBma then 2 else 0) +
      64 * 2 ^ 8 + 64 * 2 ^ 16 + 14 * 2 ^ 24 :=
  ⟨cap0_toNat h, cap1_toNat h, cap2_toNat h, cap3_toNat s.cfg⟩

theorem readReg_pstatus : (readReg s (portBase p + 0x04)).toNat =
    (s.port p).pend.isSome.toNat + 2 * (s.port p).done.toNat + 4 * (s.port p).overrun.toNat +
      (if s.holdOwner = some p then 8 else 0) + 256 * (s.port p).rcode.toByte.toNat := by
  have hgrant : (if s.holdOwner = some p then 8 else 0) =
      8 * (decide (s.holdOwner = some p)).toNat := by
    by_cases h : s.holdOwner = some p <;> simp [h]
  rw [readReg_of_regAt s p (regAt_pstatus p), hgrant]
  exact pstatus_toNat ..

theorem readReg_hold : (readReg s (portBase p + 0x08)).toNat = (s.port p).holdReq.toNat := by
  rw [readReg_of_regAt s p (regAt_hold p)]
  unfold readPort
  cases (s.port p).holdReq <;> rfl

/-- Settles O13: the address map selects the register, and each status or capability register is its
bit fields put together. -/
theorem registerReads : Obligations.RegisterReads := fun s =>
  ⟨rfl, rfl, rfl, rfl, readReg_caps s, gstatus_toNat s, rfl, rfl, rfl,
    BitVec.toNat_setWidth_of_le (by decide), BitVec.toNat_setWidth_of_le (by decide), irq_iff s,
    fun p => ⟨readReg_of_regAt s p (regAt_cmd p), readReg_pstatus s p, readReg_hold s p,
      readReg_of_regAt s p (regAt_pseq p), fun i => readReg_of_regAt s p (regAt_arg p i),
      fun i => readReg_of_regAt s p (regAt_res p i)⟩⟩

/-! ### The reset state (R62) -/

/-- Every port register reads 0 after reset. -/
theorem readPort_resetOf (cfg : Config) (r : PortReg) : readPort (State.resetOf cfg) p r = 0 := by
  have hport : (State.resetOf cfg).port p = Port.reset := by cases p <;> rfl
  cases r with
  | cmd => rfl
  | pstatus =>
    have idle : Port.reset.pstatus false = 0 := by decide
    have howner : (State.resetOf cfg).holdOwner = none := rfl
    simpa [readPort, hport, howner] using idle
  | hold => cases p <;> rfl
  | pseq => cases p <;> rfl
  | arg i => simp [readPort, hport, Port.reset, Vector.get_replicate]
  | res i => simp [readPort, hport, Port.reset, Vector.get_replicate]

/-- Settles O9: the reset state's registers read 0 but for the constants, and its unit arrays list
nothing. -/
theorem resetValues : Obligations.ResetValues := by
  intro cfg s
  have globals : ∀ off ∈ [0x018, 0x01C, 0x020, 0x024, 0x028, 0x02C, 0x030, 0x034],
      readReg s off = 0 := by
    have status : s.gstatus = 0 := BitVec.eq_of_toNat_eq (gstatus_toNat s)
    simp only [List.forall_mem_cons]
    exact ⟨rfl, status, rfl, rfl, rfl, rfl, rfl, rfl, by simp⟩
  have ports (p : PortId) : (∀ k, k < 16 → readReg s (portBase p + 4 * k) = 0) ∧
      (s.port p).pend = none := by
    refine ⟨fun k hk => ?_, by cases p <;> rfl⟩
    obtain ⟨r, hr⟩ := regAt_port p hk
    rw [readReg_of_regAt s p hr]
    exact readPort_resetOf p cfg r
  have slots (p : PortId) (f : Nat) : s.units.slot p f = slotClear := by cases p <;> rfl
  have irq : s.irq = false := by simp [s, State.irq, State.resetOf, Globals.reset]
  exact ⟨rfl, rfl, rfl, globals, ports, readReg_caps s, rfl, fun _ _ => ⟨rfl, rfl⟩, fun _ _ => rfl,
    fun _ => rfl, slots, rfl, fun _ _ => rfl, irq⟩

/-- Settles O11: with nothing listed in the unit arrays the invariants of the arrays are vacuous, and
the registers are 0. -/
theorem resetMeetsTheInvariants : Obligations.ResetMeetsTheInvariants := fun cfg hwf =>
  have canonicalArrays : ArraysCanonical Units.reset := by unfold ArraysCanonical; decide
  ⟨poolsOk_of_reset rfl, canonicalArrays, latchOk_reset, recsOk_of_reset rfl,
    recordsOk_of_reset hwf rfl, portsOk_of_reset (fun q => by cases q <;> rfl) rfl⟩

end Sys2Proof.Machine
end

section
/-! The register window as a step sees it (`20_memory.md` R91 to R95): which offsets select
a register, and the accesses that change nothing (O12). -/

namespace Sys2Proof.Machine

variable {s t : State} {host p : PortId} {v : Word} {rest : List Turn}

/-! ### Offsets that select no register, or one that cannot be written (R94, R95) -/

/-- The global registers end at 0x038; those below 0x018 and between 0x01C and 0x02C cannot be
written. -/
theorem globalAt_range {off : Nat} {r : GlobalReg} (h : globalAt off = some r) :
    off < 0x038 ∧ (off = 0x018 ∨ 0x02C ≤ off ∨ ∀ s v, writeGlobal s v r = s) := by
  unfold globalAt at h
  split at h <;> cases h <;> simp [writeGlobal]

/-- A port's registers end 0x040 above B(p); PSEQ and the RES registers cannot be written. -/
theorem portRegAt_range {o : Nat} {r : PortReg} (h : portRegAt o = some r) :
    o < 0x040 ∧ ((o ≠ 0x00C ∧ o < 0x030) ∨ ∀ s p v, writePort s p v r = s) := by
  unfold portRegAt at h
  split at h <;> cases h <;> simp [writePort]

/-- What an offset of the window can select (R91). -/
theorem regAt_cases (off : Nat) :
    (∃ r, globalAt off = some r ∧ regAt off = .global r) ∨
    (∃ p r, portBase p ≤ off ∧ portRegAt (off - portBase p) = some r ∧ regAt off = .port p r) ∨
    regAt off = .reserved := by
  have port (p : PortId) (h : portBase p ≤ off) (e : regAt off = portAddr p (off - portBase p)) :
      (∃ p r, portBase p ≤ off ∧ portRegAt (off - portBase p) = some r ∧ regAt off = .port p r) ∨
      regAt off = .reserved := by
    unfold portAddr at e
    split at e
    · rename_i r hr
      exact .inl ⟨p, r, h, hr, e⟩
    · exact .inr e
  by_cases h1 : off < 0x100
  · cases hg : globalAt off with
    | some r => exact .inl ⟨r, rfl, by simp [regAt, h1, hg]⟩
    | none => exact .inr (.inr (by simp [regAt, h1, hg]))
  by_cases h2 : off < 0x200
  · exact .inr (port .p0 (not_lt.1 h1) (by simp [regAt, h1, h2, portBase, PortId.toNat]))
  by_cases h3 : off < 0x300
  · exact .inr (port .p1 (not_lt.1 h2) (by simp [regAt, h1, h2, h3, portBase, PortId.toNat]))
  · exact .inr (.inr (by simp [regAt, h1, h2, h3]))

theorem portBase_eq (p : PortId) : portBase p = 0x100 ∨ portBase p = 0x200 := by
  cases p
  · exact .inl rfl
  · exact .inr rfl

theorem regAt_reserved {off : Nat}
    (h : (0x038 ≤ off ∧ off < 0x100) ∨ (0x140 ≤ off ∧ off < 0x200) ∨ 0x240 ≤ off) :
    regAt off = .reserved := by
  rcases regAt_cases off with ⟨r, hr, -⟩ | ⟨p, r, hp, hr, -⟩ | e
  · have := (globalAt_range hr).1
    omega
  · have := (portRegAt_range hr).1
    have := portBase_eq p
    omega
  · exact e

/-- A write to a register that cannot be written is ignored (R95). -/
theorem writeReg_readOnly {off : Nat} (s : State) (v : Word)
    (h : off < 0x018 ∨ (0x01C ≤ off ∧ off < 0x02C) ∨
      ∃ p, off = portBase p + 0x0C ∨ (portBase p + 0x30 ≤ off ∧ off < portBase p + 0x40)) :
    writeReg s off v = s := by
  have hbase := portBase_eq
  rcases regAt_cases off with ⟨r, hr, e⟩ | ⟨q, r, hq, hr, e⟩ | e <;> unfold writeReg <;> rw [e]
  · obtain ⟨hlt, hw⟩ := globalAt_range hr
    have : off < 0x018 ∨ (0x01C ≤ off ∧ off < 0x02C) := by
      rcases h with h | h | ⟨p, h⟩
      · exact .inl h
      · exact .inr h
      · have := hbase p; omega
    rcases hw with hw | hw | hw
    · omega
    · omega
    · exact hw s v
  · obtain ⟨hlt, hw⟩ := portRegAt_range hr
    have hro : off - portBase q = 0x0C ∨ 0x30 ≤ off - portBase q := by
      have := hbase q
      rcases h with h | h | ⟨p, h⟩
      · omega
      · omega
      · have := hbase p; omega
    rcases hw with hw | hw
    · omega
    · exact hw s q v

theorem writeReg_reserved {off : Nat} (s : State) (v : Word) (h : regAt off = .reserved) :
    writeReg s off v = s := by
  unfold writeReg; rw [h]

theorem readReg_reserved {off : Nat} (s : State) (h : regAt off = .reserved) : readReg s off = 0 := by
  unfold readReg; rw [h]

/-- What a register reads does not depend on the turns to come. -/
theorem readReg_with_agenda (s : State) (a : List Turn) (off : Nat) :
    readReg { s with agenda := a } off = readReg s off := by
  unfold readReg
  split
  · rename_i r _
    cases r <;> rfl
  · rename_i p r _
    cases r <;> simp [readPort]
  · rfl

/-! ### Accesses (R93) -/

theorem accessOk_iff {w : AccessWidth} {off : BitVec 12} :
    accessOk w off = true ↔ w = .word ∧ off.toNat % 4 = 0 := by
  simp [accessOk]

theorem step_access {op : BusOp} (ha : s.agenda = .access host op :: rest) :
    step s = .next (busAccess { s with agenda := rest } host op) :=
  step_cons ha

theorem step_read {off : BitVec 12} (hoff : off.toNat % 4 = 0)
    (ha : s.agenda = .access host (.read .word off) :: rest) :
    step s = .next { s with agenda := rest, resp := some (host, .data (readReg s off.toNat)) } := by
  rw [step_access ha, busAccess, if_pos (accessOk_iff.2 ⟨rfl, hoff⟩), readReg_with_agenda]
  rfl

theorem step_write {off : BitVec 12} (hoff : off.toNat % 4 = 0)
    (ha : s.agenda = .access host (.write .word off v) :: rest) :
    step s = .next ((writeReg { s with agenda := rest } off.toNat v).answer host .done) := by
  rw [step_access ha, busAccess, if_pos (accessOk_iff.2 ⟨rfl, hoff⟩)]

/-- Any other width or alignment gets a bus error and has no effect (R93, R413). -/
theorem busAccess_error {op : BusOp} {w : AccessWidth} {off : BitVec 12}
    (hop : op = .read w off ∨ op = .write w off v) (h : w ≠ .word ∨ off.toNat % 4 ≠ 0) :
    busAccess s host op = s.answer host .error := by
  have bad : ¬ accessOk w off = true := fun hok => by
    obtain ⟨hw, hoff⟩ := accessOk_iff.1 hok
    exact h.elim (· hw) (· hoff)
  rcases hop with rfl | rfl
  · exact if_neg bad
  · exact if_neg bad

/-- Settles O12: the width and alignment check comes first, and reserved and read-only offsets are
ranges of the address map. -/
theorem windowAccesses : Obligations.WindowAccesses := by
  refine ⟨fun s host w off v rest h ha => ?_, fun s host off rest => step_read,
    fun s off h => readReg_reserved s (regAt_reserved (by omega)), fun s host off v rest hoff h ha => ?_⟩
  · rcases ha with ha | ha
    · rw [step_access ha, busAccess_error (v := v) (.inl rfl) h]; rfl
    · rw [step_access ha, busAccess_error (.inr rfl) h]; rfl
  · have ignored (u : State) : writeReg u off.toNat v = u := by
      rcases h with h | h | h | h
      · exact writeReg_reserved u v (regAt_reserved (.inl h))
      · exact writeReg_reserved u v (regAt_reserved (.inr (.inl h)))
      · exact writeReg_reserved u v (regAt_reserved (.inr (.inr h)))
      · exact writeReg_readOnly u v h
    rw [step_write hoff ha, ignored]
    rfl

end Sys2Proof.Machine
end

section
/-! Host writes to a port's CMD, HOLD and ARG registers as steps (`20_memory.md` R98, R104, `40_system.md`
R168): carried out while the port is idle, dropped while it is BUSY (O15). -/

namespace Sys2Proof.Machine

variable {s t : State} {host p : PortId} {v : Word} {rest : List Turn}

/-- A write at an aligned offset from B(p) that selects a register is a write of that register. -/
theorem step_writePort {o : Nat} {r : PortReg} (hr : regAt (portBase p + o) = .port p r)
    (ho : o % 4 = 0) (hlt : o < 0x040)
    (ha : s.agenda = .access host (.write .word (BitVec.ofNat 12 (portBase p + o)) v) :: rest) :
    step s = .next ((writePort { s with agenda := rest } p v r).answer host .done) := by
  have hbase := portBase_eq p
  have hoff : (BitVec.ofNat 12 (portBase p + o)).toNat = portBase p + o := by
    rw [BitVec.toNat_ofNat]
    omega
  rw [step_write (by rw [hoff]; omega) ha, hoff, writeReg, hr]

theorem ifIdle_idle (h : (s.port p).pend = none) : ifIdle s p t = t := by
  simp [ifIdle, Port.busy, h]

theorem ifIdle_busy (h : (s.port p).pend.isSome = true) :
    ifIdle s p t = s.setPort p { s.port p with overrun := true } :=
  if_pos h

theorem step_writeHold (hidle : (s.port p).pend = none)
    (ha : s.agenda = .access host (.write .word (BitVec.ofNat 12 (portBase p + 0x08)) v) :: rest) :
    step s = .next { s.setPort p { s.port p with holdReq := v.getLsbD 0 } with
      holdOwner := if v.getLsbD 0 = false ∧ s.holdOwner = some p then none else s.holdOwner
      agenda := rest
      resp := some (host, .done) } := by
  rw [step_writePort (regAt_hold p) rfl (by decide) ha, writePort, ifIdle_idle (by simpa using hidle)]
  cases p <;> rfl

theorem step_writeArg {i : Fin 8} (hidle : (s.port p).pend = none)
    (ha : s.agenda = .access host (.write .word (BitVec.ofNat 12 (portBase p + 0x10 + 4 * i)) v) :: rest) :
    step s = .next { s.setPort p { s.port p with args := (s.port p).args.set i v } with
      agenda := rest, resp := some (host, .done) } := by
  rw [Nat.add_assoc] at ha
  rw [step_writePort (Nat.add_assoc .. ▸ regAt_arg p i) (by omega) (by omega) ha, writePort,
    ifIdle_idle (by simpa using hidle)]
  cases p <;> rfl

theorem step_writeCmd (hidle : (s.port p).pend = none)
    (ha : s.agenda = .access host (.write .word (BitVec.ofNat 12 (portBase p)) v) :: rest) :
    step s = .next ((acceptCmd { s with agenda := rest } p v).answer host .done) := by
  rw [step_writePort (o := 0) (regAt_cmd p) rfl (by decide) ha, writePort,
    ifIdle_idle (by simpa using hidle)]

/-- The three writes that a BUSY port drops (R104). -/
theorem writePort_busy {r : PortReg} (hbusy : (s.port p).pend.isSome = true)
    (hr : r = .cmd ∨ r = .hold ∨ ∃ i, r = .arg i) :
    writePort s p v r = s.setPort p { s.port p with overrun := true } := by
  rcases hr with rfl | rfl | ⟨i, rfl⟩ <;> exact ifIdle_busy hbusy

/-- Settles O15: each of the three writes is guarded by the same test of BUSY. -/
theorem argumentWritesAndDrops : Obligations.ArgumentWritesAndDrops := by
  refine ⟨fun s host p i v rest ha hidle => step_writeArg hidle ha,
    fun s host p o v rest ho ha hbusy => ?_⟩
  obtain ⟨r, hr, hdrop⟩ : ∃ r, regAt (portBase p + o) = .port p r ∧
      (r = .cmd ∨ r = .hold ∨ ∃ i, r = .arg i) := by
    rcases ho with rfl | rfl | ⟨i, rfl⟩
    · exact ⟨.cmd, regAt_cmd p, .inl rfl⟩
    · exact ⟨.hold, regAt_hold p, .inr (.inl rfl)⟩
    · exact ⟨.arg i, Nat.add_assoc .. ▸ regAt_arg p i, .inr (.inr ⟨i, rfl⟩)⟩
  rw [step_writePort hr (by omega) (by omega) ha, writePort_busy (by simpa using hbusy) hdrop]
  cases p <;> rfl

end Sys2Proof.Machine
end

section
/-! The frame of every command (`20_memory.md` R99, R111): what a completion and a fatal result leave of
the registers, and which unit arrays each command may change (O18). -/

namespace Sys2Proof.Machine

variable {s t : State} {i : Instr} {rc : RCode} {u : Units}

/-! ### Registers -/

/-- How a command leaves the registers: its own port idle and DONE with new RCODE and RES alone, its DONE
bit set, and everything outside its port as it was. -/
structure Served (s t : State) : Prop where
  port   : ∃ rc res, t.port s.cur = { s.port s.cur with pend := none, done := true, rcode := rc, res := res }
  done   : t.greg.irqStatus &&& 0b011 = (s.greg.irqStatus ||| doneBit s.cur) &&& 0b011
  enable : t.greg.irqEnable = s.greg.irqEnable
  kept   : KeptOutside s t

theorem served_complete (s : State) (rc : RCode) (res : Vector Word 4) (u : Units) :
    Served s (complete rc res u s) where
  port := ⟨rc, res, complete_port s rc res u⟩
  done := by simp
  enable := by simp
  kept := keptOutside_complete ..

theorem or_fatalBit_and_done (x : BitVec 3) : (x ||| fatalBit) &&& 0b011 = x &&& 0b011 := by
  revert x; decide

theorem served_fatalState (s : State) (code : RCode) : Served s (fatalState code s) where
  port := ⟨code, results 0, fatalState_port s code⟩
  done := by simpa [latch] using or_fatalBit_and_done _
  enable := by simp [latch]
  kept := keptOutside_fatalState ..

theorem exec_served (h : exec i s = .next t) : Served s t := by
  rcases exec_shape h with ⟨code, -, rfl⟩ | ⟨rc, res, u, -, rfl, -⟩
  · exact served_fatalState ..
  · exact served_complete ..

/-! ### Unit arrays -/

theorem unitsKept_refl (i : Instr) (p : PortId) (u : Units) : UnitsKept i p u u := by
  have gen : OnlyGen p u u := by cases p <;> rfl
  cases i with
  | genField | genEncode | genClear => exact gen
  | ccpFind mark | ccpSearch mark => cases mark <;> rfl
  | hqCreate | hqTakeAvail | hqMarkFb | hqFeedback | hqTakeRetx | hqResize | laInit | laEval =>
    exact ⟨rfl, fun _ _ _ => rfl⟩
  | ccpLayoutSet | ccpLayoutDel => exact ⟨rfl, fun _ _ => rfl⟩
  | _ => rfl

theorem onlyLayout_put (u : Units) (k : Nat) (l : Layout) :
    OnlyLayout k u { u with lay := put u.lay k l } :=
  ⟨rfl, fun k' h => by rw [look_put, if_neg h]⟩

theorem onlyLayout_drop (u : Units) (k : Nat) : OnlyLayout k u { u with lay := drop u.lay k } :=
  ⟨rfl, fun k' h => by rw [look_drop, if_neg h]⟩

/-- A completed command changes only arrays of its unit. -/
theorem UnitStep.kept (h : UnitStep s i rc u) : UnitsKept i s.cur s.units u := by
  cases h with
  | same => exact unitsKept_refl ..
  | hqCreate | hqTakeAvail | hqMarkAv | hqMarkFb | hqAck | hqNack | hqTakeRetx | hqResize =>
    exact onlyPool_setPool ..
  | laInit | laEval => exact onlyRec_setLaRec ..
  | layoutSet => exact onlyLayout_put ..
  | layoutDel => exact onlyLayout_drop ..
  | findMark | searchMark | ccpMark => exact onlyOcc_markCandidate ..
  | occSet => exact onlyOcc_orRange ..
  | genField | genEncode | genClear => exact onlyGen_setGen ..
  | ctxRelease | occClearAll | occClearBeam | bmConfig | bmAlloc | bmRelease => rfl

theorem exec_unitsKept (h : exec i s = .next t) : UnitsKept i s.cur s.units t.units := by
  rcases exec_shape h with ⟨code, -, rfl⟩ | ⟨rc, res, u, -, rfl, hu⟩
  · rw [fatalState_units]; exact unitsKept_refl ..
  · rw [complete_units]; exact hu.kept

/-- Settles O18: both ways a command can end write only RES, RCODE, BUSY and DONE of the served port. -/
theorem commandFrame : Obligations.CommandFrame := by
  intro i s t h
  obtain ⟨⟨rc, res, hport⟩, hdone, henable, hkept⟩ := exec_served h
  rw [hport]
  exact ⟨rfl, rfl, rfl, rfl, rfl, rfl, hdone, henable, hkept, exec_unitsKept h⟩

end Sys2Proof.Machine
end

section
/-! The engine's moves as steps (`20_memory.md` R99 to R103, `70_reset_and_hazards.md` R464): which are
enabled, and which command runs (O5, O7). -/

namespace Sys2Proof.Machine

variable {s t : State} {p q : PortId} {m : EngineMove} {i : Instr} {w : Word} {rest : List Turn}

/-! ### Enabled and overdue moves -/

theorem moveEnabled_command : moveEnabled s (.command p) = true ↔
    (s.port p).pend.isSome = true ∧ (s.holdOwner = none ∨ s.holdOwner = some p) := by
  simp [moveEnabled, Port.busy]

theorem moveEnabled_grant : moveEnabled s (.grant p) = true ↔
    (s.port p).holdReq = true ∧ s.holdOwner = none := by
  simp [moveEnabled]

theorem PortId.other_ne (p : PortId) : p.other ≠ p := by cases p <;> decide

/-- Only a command that may run is overdue. -/
theorem not_overdue_of_disabled (h : moveEnabled s (.command p) = false) : overdue s p = false := by
  simp [overdue, h]

/-- The hold excludes the other port's commands, so they are not overdue. -/
theorem not_overdue_of_owner (h : s.holdOwner = some p) : overdue s p.other = false := by
  refine not_overdue_of_disabled (Bool.eq_false_iff.2 fun hm => ?_)
  obtain ⟨-, hhold⟩ := moveEnabled_command.1 hm
  rw [h] at hhold
  rcases hhold with hhold | hhold
  · cases hhold
  · exact p.other_ne (Option.some.inj hhold).symm

theorem fairMove_overdue (h : overdue s m.port.other = true) : fairMove s m = .command m.port.other :=
  if_pos h

theorem fairMove_pick (s : State) (n : Nat) (m : EngineMove) :
    fairMove { s with pick := n } m = fairMove s m := by
  unfold fairMove
  exact congrArg (if · = true then _ else m) (overdue_turned s.agenda n m.port.other)

/-! ### The engine left alone -/

theorem enabledMoves_nil (h : enabledMoves s = []) (m : EngineMove) : moveEnabled s m = false :=
  Bool.eq_false_iff.2 fun hm => by simpa [h] using mem_enabledMoves.2 hm

theorem enabledMoves_nodup (s : State) : (enabledMoves s).Nodup := List.Nodup.filter _ (by decide)

/-- The engine's only enabled move is the only one of its list. -/
theorem enabledMoves_singleton (hm : moveEnabled s m = true)
    (honly : ∀ m', moveEnabled s m' = true → m' = m) : enabledMoves s = [m] := by
  refine List.perm_singleton.1 ((List.perm_ext_iff_of_nodup (enabledMoves_nodup s)
    (List.nodup_singleton m)).2 fun m' => ?_)
  rw [mem_enabledMoves, List.mem_singleton]
  exact ⟨honly m', fun e => e ▸ hm⟩

theorem engineMove_enabled (hm : moveEnabled s m = true) : engineMove m s = runMove (fairMove s m) s :=
  if_pos hm

/-- An engine with an enabled move makes one of them, the other port not overdue. -/
theorem engineMove_fair (hm : moveEnabled s m = true) (n : Nat) :
    ∃ m', moveEnabled s m' = true ∧ overdue s m'.port.other = false ∧
      engineMove m { s with pick := n } = runMove m' { s with pick := n } := by
  obtain ⟨henabled, hfair⟩ := fairMove_spec hm
  have hm' : moveEnabled { s with pick := n } m = true :=
    (moveEnabled_turned s.agenda n s.fair m).trans hm
  exact ⟨fairMove s m, henabled, hfair, by rw [engineMove_enabled hm', fairMove_pick]⟩

/-- What the engine left alone does: it stands still, or makes one of its enabled moves at some value of
the choice counter. -/
theorem engineFree_cases (s : State) :
    (enabledMoves s = [] ∧ engineFree s = .next s) ∨
    ∃ m n, moveEnabled s m = true ∧ engineFree s = engineMove m { s with pick := n } := by
  unfold engineFree
  split
  · rename_i h
    exact .inl ⟨h, rfl⟩
  · rename_i m h
    exact .inr ⟨m, s.pick, mem_enabledMoves.1 (h ▸ List.mem_singleton_self m), rfl⟩
  · rename_i m ms _ h
    refine .inr ⟨_, s.pick + 1, mem_enabledMoves.1 ?_, rfl⟩
    rw [h, List.getD_eq_getElem?_getD, List.getElem?_eq_getElem (Nat.mod_lt _ (by simp))]
    exact List.getElem_mem _

/-- Settles O7: the free choice is among the enabled moves, and fairness replaces it only by an enabled
command. -/
theorem engineTakesAnEnabledMove : Obligations.EngineTakesAnEnabledMove := by
  refine ⟨fun s ha => ?_, fun s p => ⟨moveEnabled_command, moveEnabled_grant⟩⟩
  rw [step_nil ha]
  rcases engineFree_cases s with ⟨hnone, hstep⟩ | ⟨m, n, hm, hstep⟩
  · exact .inr ⟨enabledMoves_nil hnone, hstep⟩
  · obtain ⟨m', henabled, hfair, hrun⟩ := engineMove_fair hm n
    exact .inl ⟨m', n, henabled, hfair, hstep.trans hrun⟩

/-! ### The command that a step runs -/

/-- The engine's command move runs the decoded pending word. -/
theorem runMove_command (hp : (s.port p).pend = some w) (hd : decode s.cfg w = some i) :
    runMove (.command p) s = exec i { s with cur := p, fair := fairAfter s p } := by
  have hword : State.word { s with fair := fairAfter s p, cur := p } = w := by
    have hme : State.me { s with fair := fairAfter s p, cur := p } = s.port p := by cases p <;> rfl
    rw [State.word, hme, hp]
    rfl
  simp only [runMove, EngineMove.port, runCommand, hword, hd]

theorem runMove_command_turned (n : Nat) (hp : (s.port p).pend = some w) (hd : decode s.cfg w = some i) :
    runMove (.command p) (s.turned rest n s.fair) =
      exec i { s with agenda := rest, pick := n, cur := p, fair := fairAfter s p } := by
  rw [runMove_command (s := s.turned rest n s.fair) (by simpa using hp) hd, fairAfter_turned]
  rfl

theorem step_command (ha : s.agenda = .engine (.command p) :: rest) (hp : (s.port p).pend = some w)
    (hhold : s.holdOwner = none ∨ s.holdOwner = some p) (ho : overdue s p.other = false)
    (hd : decode s.cfg w = some i) :
    step s = exec i { s with agenda := rest, cur := p, fair := fairAfter s p } := by
  rw [step_engine ha (moveEnabled_command.2 ⟨by simp [hp], hhold⟩), fairMove_self ho,
    runMove_command_turned s.pick hp hd]

/-- At an enabled turn while the other port is overdue, the other port's command runs (R464). -/
theorem step_overdue (ha : s.agenda = .engine m :: rest) (hm : moveEnabled s m = true)
    (ho : overdue s m.port.other = true) (hp : (s.port m.port.other).pend = some w)
    (hd : decode s.cfg w = some i) :
    step s = exec i { s with agenda := rest, cur := m.port.other, fair := fairAfter s m.port.other } := by
  rw [step_engine ha hm, fairMove_overdue ho, runMove_command_turned s.pick hp hd]

/-- The engine alone with one enabled move: the other port cannot be overdue, since its command is not
enabled. -/
theorem step_only_command (ha : s.agenda = []) (hp : (s.port p).pend = some w)
    (hhold : s.holdOwner = none ∨ s.holdOwner = some p)
    (honly : ∀ m, moveEnabled s m = true → m = .command p) (hd : decode s.cfg w = some i) :
    step s = exec i { s with cur := p, fair := fairAfter s p } := by
  have hm : moveEnabled s (.command p) = true := moveEnabled_command.2 ⟨by simp [hp], hhold⟩
  have ho : overdue s p.other = false := not_overdue_of_disabled <| Bool.eq_false_iff.2 fun h =>
    p.other_ne (EngineMove.command.inj (honly _ h))
  rw [step_nil ha, engineFree, enabledMoves_singleton hm honly]
  exact (engineMove_enabled hm).trans (by rw [fairMove_self ho, runMove_command hp hd])

/-- The port of a placed word may run it, and no other port is overdue there. -/
theorem fetchPort_served (s : State) : (s.holdOwner = none ∨ s.holdOwner = some (fetchPort s)) ∧
    (s.holdOwner = some (fetchPort s) ∨ (fetchPort s).other = s.fair.last) := by
  unfold fetchPort
  cases s.holdOwner with
  | none => simp
  | some p => simp

theorem step_placeWord (hd : decode s.cfg w = some i) :
    step (placeWord s w) =
      exec i { s.setPort (fetchPort s) { s.port (fetchPort s) with pend := some w } with
        cur := fetchPort s
        fair := fairAfter (s.setPort (fetchPort s) { s.port (fetchPort s) with pend := some w })
          (fetchPort s) } := by
  obtain ⟨hhold, hlast⟩ := fetchPort_served s
  set p := fetchPort s
  set u := s.setPort p { s.port p with pend := some w } with hu
  have placed : placeWord s w = u.turned (.engine (.command p) :: u.agenda) u.pick u.fair := by
    rw [hu, State.setPort_agenda]
    rfl
  have ho : overdue u p.other = false := by
    rcases hlast with h | h
    · exact not_overdue_of_owner (by simpa [hu] using h)
    · rw [h, ← s.setPort_fair p { s.port p with pend := some w }]
      exact overdue_last
  rw [placed, step_command (w := w) rfl (by simp [hu]) (by simpa [hu] using hhold)
    (by rwa [overdue_turned]) (by simpa [hu] using hd), fairAfter_turned]
  rfl

/-- Settles O5: an engine turn runs the fair move, and the runs of a command all decode its pending
word. -/
theorem stepRunsTheDecodedCommand : Obligations.StepRunsTheDecodedCommand :=
  ⟨fun _ _ _ _ _ => step_command, fun _ _ _ _ _ => step_overdue, fun _ _ _ _ => step_only_command,
    fun _ _ _ _ => step_placeWord⟩

end Sys2Proof.Machine
end

section
/-! The hold (`20_memory.md` R102, R103, `40_system.md` R168) and command acceptance (R98): what steps
leave of the ports and of the ownership (O8, O14). -/

namespace Sys2Proof.Machine

variable {s t : State} {host p q : PortId} {v : Word} {rest : List Turn}

/-! ### The hold -/

theorem step_grant (ha : s.agenda = .engine (.grant p) :: rest) (hfree : s.holdOwner = none)
    (hreq : (s.port p).holdReq = true) (ho : overdue s p.other = false) :
    step s = .next { s with agenda := rest, holdOwner := some p, fair := fairAfter s p } := by
  rw [step_engine ha (moveEnabled_grant.2 ⟨hreq, hfree⟩), fairMove_self ho]
  show grantHold p { s.turned rest s.pick s.fair with fair := fairAfter (s.turned rest s.pick s.fair) p } = _
  rw [fairAfter_turned]
  rfl

/-- Under a hold the engine serves its owner alone. -/
theorem owner_of_command_enabled (howner : s.holdOwner = some p)
    (hm : moveEnabled s (.command q) = true) : q = p := by
  obtain ⟨-, hhold⟩ := moveEnabled_command.1 hm
  rw [howner] at hhold
  exact hhold.elim nofun fun e => (Option.some.inj e).symm

/-- The command that the engine serves leaves the ownership and the other port. -/
theorem Served.excludes {a : List Turn} {n : Nat} {f : Fairness}
    (h : Served ((s.turned a n f).serving p) t) (hq : q ≠ p) :
    t.port q = s.port q ∧ t.holdOwner = s.holdOwner :=
  ⟨by simpa using h.kept.other q hq, by simpa using h.kept.holdOwner⟩

theorem step_excludes_other_port (howner : s.holdOwner = some p) (hq : q ≠ p)
    (ha : s.agenda = [] ∨ ∃ m rest, s.agenda = .engine m :: rest) (h : step s = .next t) :
    t.port q = s.port q ∧ t.holdOwner = some p := by
  rw [← howner]
  cases step_cases h with
  | command a n p' i hm _ h =>
    cases owner_of_command_enabled howner hm
    exact (exec_served h).excludes hq
  | illegal a n p' hm _ e =>
    cases owner_of_command_enabled howner hm
    subst e
    exact (served_fatalState ..).excludes hq
  | grant a n p' hm _ _ =>
    obtain ⟨-, hfree⟩ := moveEnabled_grant.1 hm
    rw [howner] at hfree
    cases hfree
  | idle a e _ => subst e; simp
  | access a host op _ hacc => simp [hacc] at ha
  | hardReset a _ hreset => simp [hreset] at ha

/-- Settles O8: a grant and a release are one write of the ownership each, and under a hold only the
owner's commands are enabled. -/
theorem holdGrantReleaseAndExclusion : Obligations.HoldGrantReleaseAndExclusion :=
  ⟨⟨fun _ _ _ => step_grant, fun _ _ _ _ _ ha hidle => step_writeHold hidle ha⟩,
    fun _ _ _ _ => step_excludes_other_port⟩

/-! ### RCODE and RES while a command is pending (R98) -/

/-- The results of the previous command stand. -/
def ResultsKept (v w : Port) : Prop := w.rcode = v.rcode ∧ w.res = v.res

theorem ResultsKept.of_eq {v w : Port} (h : w = v) : ResultsKept v w := h ▸ ⟨rfl, rfl⟩

/-- A register write leaves RCODE and RES of every port, or resets the block. -/
theorem WriteKind.results_kept (h : WriteKind s t) (q : PortId) :
    t.port q = Port.reset ∨ ResultsKept (s.port q) (t.port q) := by
  have setPort (p : PortId) {w : Port} (hw : ResultsKept (s.port p) w) :
      ResultsKept (s.port q) ((s.setPort p w).port q) := by
    by_cases hq : q = p
    · subst hq; rwa [State.setPort_port_self]
    · rw [State.setPort_port_other _ _ _ _ hq]; exact .of_eq rfl
  cases h with
  | reset e => subst e; exact .inl (resetBlock_port ..)
  | nothing e => subst e; exact .inr (.of_eq rfl)
  | errClear e => subst e; exact .inr (.of_eq (s.port_with_greg q _))
  | irq st en e => subst e; exact .inr (.of_eq (s.port_with_greg q _))
  | overrun p b e => subst e; exact .inr (setPort p ⟨rfl, rfl⟩)
  | accept p w _ e => subst e; exact .inr (setPort p ⟨rfl, rfl⟩)
  | arg p i w _ e => subst e; exact .inr (setPort p ⟨rfl, rfl⟩)
  | hold p w _ e =>
    subst e
    exact .inr (by rw [writeHold, State.port_with_holdOwner]; exact setPort p ⟨rfl, rfl⟩)

/-- A command ends with its port idle and leaves the other port as it was. -/
theorem Served.idle_or_kept (h : Served s t) (q : PortId) :
    (t.port q).pend = none ∨ t.port q = s.port q := by
  by_cases hq : q = s.cur
  · obtain ⟨rc, res, hport⟩ := h.port
    exact .inl (by rw [hq, hport])
  · exact .inr (h.kept.other q hq)

/-- Each step leaves RCODE and RES of a port, or leaves the port idle. -/
theorem step_results_kept (h : step s = .next t) (q : PortId) :
    (t.port q).pend = none ∨ ResultsKept (s.port q) (t.port q) := by
  have served {a : List Turn} {n : Nat} {f : Fairness} {p : PortId}
      (h : Served ((s.turned a n f).serving p) t) :
      (t.port q).pend = none ∨ ResultsKept (s.port q) (t.port q) :=
    (h.idle_or_kept q).imp_right fun e => .of_eq (by rw [e, serving_port, turned_port])
  cases step_cases h with
  | command a n p i _ _ h => exact served (exec_served h)
  | illegal a n p _ _ e => subst e; exact served (served_fatalState ..)
  | grant a n p _ _ e => subst e; exact .inr (.of_eq ((State.port_with_holdOwner ..).trans (turned_port ..)))
  | idle a e _ => subst e; exact .inr (.of_eq (turned_port ..))
  | hardReset a e _ => subst e; exact .inl (by simp [Port.reset])
  | access a host op e _ =>
    obtain ⟨u, r, hw, e'⟩ := busAccess_cases (s.turned a s.pick s.fair) host op
    rw [e, e', answer_port]
    rcases hw.results_kept q with hreset | hkept
    · exact .inl (by rw [hreset]; rfl)
    · exact .inr (by rwa [turned_port] at hkept)

/-! ### Command acceptance -/

/-- Settles O14: acceptance is one write of the port, and RCODE and RES are written only by what leaves
the port idle. -/
theorem commandAcceptance : Obligations.CommandAcceptance := by
  refine ⟨fun s host p w rest ha hidle => ⟨_, step_writeCmd hidle ha, ?_⟩, fun s t p h _ hbusy => ?_⟩
  · refine ⟨?_, fun q hq => ?_, ?_⟩
    · simp [acceptCmd_port]
    · simp [acceptCmd_port, hq]
    · simp [State.answer, acceptCmd]
  · rcases step_results_kept h p with hnone | hkept
    · simp [hnone] at hbusy
    · exact hkept

end Sys2Proof.Machine
end

section
/-! The canonical form of the unit arrays (log 23): every update keeps the rising keys and lists no entry
equal to the array's default (O22). -/

namespace Sys2Proof.Machine

variable {s t : State} {i : Instr} {rc : RCode} {u : Units}

/-! ### Updates of one array -/

theorem ArraysCanonical.setPool (h : ArraysCanonical u) (c : Nat) (d : Direction) (P : Pool) :
    ArraysCanonical (u.setPool c d P) :=
  ⟨rising_put _ _ _ h.1, h.2⟩

theorem ArraysCanonical.setLaRec (h : ArraysCanonical u) (c : Nat) (d : Direction) (R : LaRec) :
    ArraysCanonical (u.setLaRec c d R) := by
  obtain ⟨hq, occ, lay, gen0, gen1, la, bt⟩ := h
  exact ⟨hq, occ, lay, gen0, gen1, rising_put _ _ _ la, bt⟩

theorem ArraysCanonical.setBeam (h : ArraysCanonical u) (k idx : Nat) (v : BitVec 16) :
    ArraysCanonical (u.setBeam k idx v) := by
  obtain ⟨hq, occ, lay, gen0, gen1, la, bt⟩ := h
  exact ⟨hq, occ, lay, gen0, gen1, la, canonical_writeAt _ _ _ _ bt⟩

theorem ArraysCanonical.withOcc (h : ArraysCanonical u) {m : Sparse (BitVec 14)}
    (hm : canonical 0 m = true) : ArraysCanonical { u with occ := m } := by
  obtain ⟨hq, -, rest⟩ := h
  exact ⟨hq, hm, rest⟩

theorem ArraysCanonical.withLay (h : ArraysCanonical u) {m : Sparse Layout} (hm : rising m = true) :
    ArraysCanonical { u with lay := m } := by
  obtain ⟨hq, occ, -, rest⟩ := h
  exact ⟨hq, occ, hm, rest⟩

theorem ArraysCanonical.gen (h : ArraysCanonical u) (p : PortId) :
    canonical slotClear (u.gen p) = true := by
  obtain ⟨-, -, -, gen0, gen1, -⟩ := h
  cases p with
  | p0 => exact gen0
  | p1 => exact gen1

theorem ArraysCanonical.setGen (h : ArraysCanonical u) (p : PortId) {g : Sparse GenSlot}
    (hg : canonical slotClear g = true) : ArraysCanonical (u.setGen p g) := by
  obtain ⟨hq, occ, lay, gen0, gen1, rest⟩ := h
  cases p with
  | p0 => exact ⟨hq, occ, lay, hg, gen1, rest⟩
  | p1 => exact ⟨hq, occ, lay, gen0, hg, rest⟩

theorem ArraysCanonical.occ (h : ArraysCanonical u) : canonical 0 u.occ = true := by
  obtain ⟨-, occ, -⟩ := h
  exact occ

/-- ORing a mask into a list of resource blocks, the update of every mark (R112). -/
theorem ArraysCanonical.foldl_orMask (h : ArraysCanonical u) (b : Nat) (m : BitVec 14) (L : List Nat) :
    ArraysCanonical (L.foldl (fun v r => v.orMask b r m) u) := by
  induction L generalizing u with
  | nil => exact h
  | cons r L ih => exact ih (h.withOcc (canonical_writeAt _ _ _ _ h.occ))

theorem arraysCanonical_reset : ArraysCanonical Units.reset := by
  unfold ArraysCanonical; decide

/-! ### Commands and steps -/

theorem ArraysCanonical.unitStep (h : ArraysCanonical s.units) (hu : UnitStep s i rc u) :
    ArraysCanonical u := by
  cases hu with
  | same => exact h
  | ctxRelease =>
    obtain ⟨hq, occ, lay, gen0, gen1, la, bt⟩ := h
    exact ⟨rising_drop _ _ (rising_drop _ _ hq), occ, lay, gen0, gen1,
      rising_drop _ _ (rising_drop _ _ la), bt⟩
  | hqCreate | hqTakeAvail | hqMarkAv | hqMarkFb | hqAck | hqNack | hqTakeRetx | hqResize =>
    exact h.setPool ..
  | laInit | laEval => exact h.setLaRec ..
  | layoutSet =>
    obtain ⟨-, -, lay, -⟩ := id h
    exact h.withLay (rising_put _ _ _ lay)
  | layoutDel =>
    obtain ⟨-, -, lay, -⟩ := id h
    exact h.withLay (rising_drop _ _ lay)
  | findMark | searchMark | ccpMark | occSet => exact h.foldl_orMask ..
  | occClearAll => exact h.withOcc rfl
  | occClearBeam => exact h.withOcc (canonical_dropAll _ _ _ h.occ)
  | genField => exact h.setGen _ (canonical_writeAt _ _ _ _ (h.gen _))
  | genEncode | genClear => exact h.setGen _ rfl
  | bmConfig =>
    obtain ⟨hq, occ, lay, gen0, gen1, la, -⟩ := h
    exact ⟨hq, occ, lay, gen0, gen1, la, rfl⟩
  | bmAlloc | bmRelease => exact h.setBeam ..

/-- Settles O22: every array is updated by `put`, `drop`, `writeAt` or `dropAll`, or emptied. -/
theorem stepKeepsArraysCanonical : Obligations.StepKeepsArraysCanonical := fun _ _ hs h =>
  step_keeps_of_unitStep (I := fun s => ArraysCanonical s.units)
    (fun _ hu _ => hu ▸ arraysCanonical_reset) (fun _ hu hs => hs.unitStep hu) hs h

end Sys2Proof.Machine
end

section
/-! The command word (`30_encoding.md` R120 to R124, R132): a command's three fields decode to it and
nothing else decodes to it, so that decoding inverts encoding. -/

namespace Sys2Proof.Machine

variable {cfg : Config} {w : Word} {i : Instr} {opc flags index : Nat}

/-! ### The rows by the flags they define (R122, R124) -/

theorem rowDirected_code (d : Direction) (f : Direction → Nat → Instr) :
    rowDirected d.code index f = some (f d index) := by
  cases d <;> rfl

theorem rowMarked_flagNat (m : Bool) (f : Bool → Nat → Instr) :
    rowMarked (flagNat m) index f = some (f m index) := by
  cases m <;> rfl

theorem rowPlain_eq_some {j : Instr} (h : rowPlain flags index j = some i) :
    j = i ∧ flags = 0 ∧ index = 0 := by
  obtain ⟨⟨hf, hx⟩, hi⟩ := Option.ite_none_right_eq_some.1 h
  exact ⟨Option.some.inj hi, hf, hx⟩

theorem rowIndexed_eq_some {f : Nat → Instr} (h : rowIndexed flags index f = some i) :
    f index = i ∧ flags = 0 := by
  obtain ⟨hf, hi⟩ := Option.ite_none_right_eq_some.1 h
  exact ⟨Option.some.inj hi, hf⟩

/-- One flag bit: the direction read from it has it as its code. -/
theorem code_directionOf (h : flags < 2) : (directionOf flags).code = flags := by
  interval_cases flags <;> rfl

theorem flagNat_odd (h : flags < 2) : flagNat (decide (flags % 2 = 1)) = flags := by
  interval_cases flags <;> rfl

theorem rowDirected_eq_some {f : Direction → Nat → Instr} (h : rowDirected flags index f = some i) :
    ∃ d, f d index = i ∧ d.code = flags := by
  obtain ⟨hf, hi⟩ := Option.ite_none_right_eq_some.1 h
  exact ⟨_, Option.some.inj hi, code_directionOf hf⟩

theorem rowMarked_eq_some {f : Bool → Nat → Instr} (h : rowMarked flags index f = some i) :
    ∃ m, f m index = i ∧ flagNat m = flags := by
  obtain ⟨hf, hi⟩ := Option.ite_none_right_eq_some.1 h
  exact ⟨_, Option.some.inj hi, flagNat_odd hf⟩

/-- DIR and SEL read from two flag bits have these bits as their code. -/
theorem code_directionOf_add_page (h : flags < 4) :
    (directionOf flags).code + 2 * flagNat (decide (flags / 2 = 1)) = flags := by
  interval_cases flags <;> rfl

/-- DIR and the page selector of LA_READ read back from its two flag bits. -/
theorem laRead_flags (d : Direction) (sel : Bool) :
    d.code + 2 * flagNat sel < 4 ∧ directionOf (d.code + 2 * flagNat sel) = d ∧
      decide ((d.code + 2 * flagNat sel) / 2 = 1) = sel := by
  cases d <;> cases sel <;> decide

/-! ### The three fields of a command (R120) -/

theorem opcode_lt (i : Instr) : i.opcode < 256 := by
  cases i <;> simp [Instr.opcode]

theorem flags_lt (i : Instr) : i.flags < 256 := by
  cases i with
  | hqCreate d | hqTakeAvail d | hqMarkFb d | hqFeedback d | hqTakeRetx d | hqResize d | hqQuery d
  | hqStat d | laInit d | laEval d => exact Laws.dirCode_lt d
  | ccpFind m | ccpSearch m | occClear m => exact Laws.flagNat_lt m
  | laRead d sel => exact (laRead_flags d sel).1.trans (by decide)
  | _ => exact Nat.zero_lt_succ 255

/-- A command's fields decode to it. -/
theorem decodeFields_fields (i : Instr) : decodeFields i.opcode i.flags i.index = some i := by
  cases i with
  | hqCreate d | hqTakeAvail d | hqMarkFb d | hqFeedback d | hqTakeRetx d | hqResize d | hqQuery d
  | hqStat d | laInit d | laEval d => exact rowDirected_code d _
  | ccpFind m | ccpSearch m => exact rowMarked_flagNat m _
  | occClear a => cases a <;> rfl
  | laRead d sel =>
    obtain ⟨hlt, hdir, hsel⟩ := laRead_flags d sel
    exact (if_pos hlt).trans (congrArg₂ (fun d sel => some (Instr.laRead d sel _)) hdir hsel)
  | _ => rfl

/-- Fields that decode are those of the command they decode to. -/
theorem fields_of_decodeFields (h : decodeFields opc flags index = some i) :
    i.opcode = opc ∧ i.flags = flags ∧ i.index = index := by
  unfold decodeFields at h
  split at h
  -- no flag, no index
  case h_1 | h_19 | h_20 | h_22 | h_23 | h_27 | h_28 | h_29 | h_30 | h_31 =>
    obtain ⟨rfl, rfl, rfl⟩ := rowPlain_eq_some h
    exact ⟨rfl, rfl, rfl⟩
  -- an index only
  case h_2 | h_11 | h_12 | h_13 | h_14 | h_17 | h_21 =>
    obtain ⟨rfl, rfl⟩ := rowIndexed_eq_some h
    exact ⟨rfl, rfl, rfl⟩
  -- DIR and an index
  case h_3 | h_4 | h_5 | h_6 | h_7 | h_8 | h_9 | h_10 | h_24 | h_25 =>
    obtain ⟨d, rfl, rfl⟩ := rowDirected_eq_some h
    exact ⟨rfl, rfl, rfl⟩
  -- MARK and an index
  case h_15 | h_16 =>
    obtain ⟨m, rfl, rfl⟩ := rowMarked_eq_some h
    exact ⟨rfl, rfl, rfl⟩
  -- OCC_CLEAR: ALL and no index
  case h_18 =>
    obtain ⟨⟨hf, rfl⟩, hi⟩ := Option.ite_none_right_eq_some.1 h
    obtain rfl := Option.some.inj hi
    exact ⟨rfl, flagNat_odd hf, rfl⟩
  -- LA_READ: DIR, SEL and an index
  case h_26 =>
    obtain ⟨hf, hi⟩ := Option.ite_none_right_eq_some.1 h
    obtain rfl := Option.some.inj hi
    exact ⟨rfl, code_directionOf_add_page hf, rfl⟩
  -- a reserved opcode (R129)
  case h_32 => cases h

/-! ### Words -/

theorem fields_encode (h : i.wf = true) :
    field (encode i) 24 8 = i.opcode ∧ field (encode i) 16 8 = i.flags ∧
      field (encode i) 0 16 = i.index := by
  have hx : i.index < 65536 := of_decide_eq_true h
  exact ⟨field_mkWord_opc (opcode_lt i) (flags_lt i) hx, field_mkWord_flags (opcode_lt i) (flags_lt i) hx,
    field_mkWord_index (opcode_lt i) (flags_lt i) hx⟩

theorem fields_of_decodeWord (h : decodeWord w = some i) :
    i.opcode = field w 24 8 ∧ i.flags = field w 16 8 ∧ i.index = field w 0 16 :=
  fields_of_decodeFields h

/-- Both optional units present, a word decodes to exactly the well-formed command it encodes. -/
theorem decodeWord_eq_some_iff : decodeWord w = some i ↔ i.wf = true ∧ encode i = w := by
  constructor
  · intro h
    obtain ⟨hopc, hflags, hindex⟩ := fields_of_decodeWord h
    have hwf : i.wf = true := by
      rw [Instr.wf, hindex]
      exact decide_eq_true (field_lt w 0 16)
    exact ⟨hwf, by rw [encode, hopc, hflags, hindex, mkWord_fields]⟩
  · rintro ⟨hwf, rfl⟩
    obtain ⟨hopc, hflags, hindex⟩ := fields_encode hwf
    rw [decodeWord, hopc, hflags, hindex, decodeFields_fields]

theorem decode_of_decodeWord (h : decodeWord w = some i) :
    decode cfg w = if i.present cfg then some i else none := by
  rw [decode, h]

theorem decode_of_decodeWord_none (h : decodeWord w = none) : decode cfg w = none := by
  rw [decode, h]

theorem decode_eq_some_iff :
    decode cfg w = some i ↔ decodeWord w = some i ∧ i.present cfg = true := by
  cases h : decodeWord w with
  | none => simp [decode_of_decodeWord_none h]
  | some j =>
    rw [decode_of_decodeWord h, Option.ite_none_right_eq_some, and_comm]
    exact and_congr_right fun hj => by rw [Option.some.inj hj]

/-- Settles O2: a present unit's word decodes to exactly the well-formed command it encodes. -/
theorem decodeEncodeAgree : Obligations.DecodeEncodeAgree := by
  have decodes : ∀ (cfg : Config) (w : Word) (i : Instr),
      decode cfg w = some i ↔ i.wfIn cfg = true ∧ encode i = w := fun cfg w i => by
    rw [decode_eq_some_iff, decodeWord_eq_some_iff, Instr.wfIn, Bool.and_eq_true, and_right_comm]
  exact ⟨fun cfg i h => (decodes cfg _ i).2 ⟨h, rfl⟩, fun cfg w i => (decodes cfg w i).1⟩

/-- Settles O1: each word is written out and decoded by evaluation. -/
theorem sampleWordsDecode : Obligations.SampleWordsDecode := by
  unfold Obligations.SampleWordsDecode
  decide

end Sys2Proof.Machine
end

section
/-! The opcode map (`30_encoding.md` R121, R132): a word that matches a row decodes to a command of that
row, every word that decodes matches a row, and no word matches two. -/

namespace Sys2Proof.Machine

variable {cfg : Config} {w : Word} {i : Instr} {o fm im : Nat} {name : String}

/-! ### A match, field by field (R120) -/

theorem field_low (w : Word) (len : Nat) : field w 0 len = w.toNat % 2 ^ len := by
  rw [field_eq, Nat.pow_zero, Nat.div_one]

theorem mkWord_and {o f x o' f' x' : Nat} (ho : o < 256) (hf : f < 256) (hx : x < 65536)
    (ho' : o' < 256) (hf' : f' < 256) (hx' : x' < 65536) :
    mkWord o f x &&& mkWord o' f' x' = mkWord (o &&& o') (f &&& f') (x &&& x') := by
  rw [Laws.mkWord_append ho hf hx, Laws.mkWord_append ho' hf' hx',
    Laws.mkWord_append (Nat.and_lt_two_pow (n := 8) _ ho') (Nat.and_lt_two_pow (n := 8) _ hf')
      (Nat.and_lt_two_pow (n := 16) _ hx'),
    BitVec.ofNat_and, BitVec.ofNat_and, BitVec.ofNat_and, BitVec.and_append, BitVec.and_append]

theorem mkWord_inj {o f x o' f' x' : Nat} (ho : o < 256) (hf : f < 256) (hx : x < 65536)
    (ho' : o' < 256) (hf' : f' < 256) (hx' : x' < 65536) (h : mkWord o f x = mkWord o' f' x') :
    o = o' ∧ f = f' ∧ x = x' := by
  refine ⟨?_, ?_, ?_⟩
  · rw [← field_mkWord_opc ho hf hx, h, field_mkWord_opc ho' hf' hx']
  · rw [← field_mkWord_flags ho hf hx, h, field_mkWord_flags ho' hf' hx']
  · rw [← field_mkWord_index ho hf hx, h, field_mkWord_index ho' hf' hx']

/-- A mask that covers OPC fixes the opcode; what it covers of FLAGS and INDEX is 0. -/
theorem fields_of_match (ho : o < 256) (hfm : fm < 256) (him : im < 65536)
    (h : w &&& mkWord 0xFF fm im = mkWord o 0 0) :
    field w 24 8 = o ∧ field w 16 8 &&& fm = 0 ∧ field w 0 16 &&& im = 0 := by
  have hand : field w 24 8 &&& 0xFF = field w 24 8 :=
    Nat.and_two_pow_sub_one_of_lt_two_pow (field_lt w 24 8)
  rw [← mkWord_fields w, mkWord_and (field_lt w 24 8) (field_lt w 16 8) (field_lt w 0 16) (by decide) hfm
    him, hand] at h
  exact mkWord_inj (field_lt w 24 8) (Nat.and_lt_two_pow (n := 8) _ hfm)
    (Nat.and_lt_two_pow (n := 16) _ him) ho (by decide) (by decide) h

/-- A number with 0 in all its bits from `k` up is below 2 ^ k. -/
theorem lt_of_and_eq_zero {x : Nat} (k n : Nat) (hx : x < 2 ^ (k + n))
    (h : x &&& (2 ^ n - 1) * 2 ^ k = 0) : x < 2 ^ k := by
  have hhigh : x / 2 ^ k < 2 ^ n := Nat.div_lt_of_lt_mul (by rwa [← Nat.pow_add])
  have hzero : x / 2 ^ k = 0 := by
    rw [← Nat.and_two_pow_sub_one_of_lt_two_pow hhigh,
      ← Nat.mul_div_cancel (2 ^ n - 1) (Nat.two_pow_pos k), ← Nat.and_div_two_pow, h, Nat.zero_div]
  exact (Nat.div_eq_zero_iff_lt (Nat.two_pow_pos k)).1 hzero

/-! ### Every row decodes -/

/-- A word that matches the row decodes to a command of its mnemonic, both optional units present. -/
def RowDecodes (row : OpRow) : Prop :=
  ∀ w : Word, w &&& row.mask = row.bits → ∃ i, decodeWord w = some i ∧ mnemonicOf i = row.mnemonic

/-- A row decodes when it has a command for every FLAGS and INDEX that its mask lets through. -/
theorem rowDecodes_of_commands (ho : o < 256) (hfm : fm < 256) (him : im < 65536)
    (hi : ∀ flags < 256, ∀ index < 65536, flags &&& fm = 0 → index &&& im = 0 →
      ∃ i : Instr, mnemonicOf i = name ∧ i.opcode = o ∧ i.flags = flags ∧ i.index = index) :
    RowDecodes ⟨name, mkWord o 0 0, mkWord 0xFF fm im⟩ := by
  intro w hw
  obtain ⟨hopc, hflags, hindex⟩ := fields_of_match ho hfm him hw
  obtain ⟨i, hname, hio, hif, hix⟩ := hi _ (field_lt w 16 8) _ (field_lt w 0 16) hflags hindex
  refine ⟨i, ?_, hname⟩
  rw [decodeWord, hopc, ← hio, ← hif, ← hix, decodeFields_fields]

/-- A row with no flag and no index. -/
theorem rowDecodes_plain (i : Instr) (hi : i.flags = 0 ∧ i.index = 0 := by exact ⟨rfl, rfl⟩) :
    RowDecodes ⟨mnemonicOf i, mkWord i.opcode 0 0, mkWord 0xFF 0xFF 0xFFFF⟩ := by
  refine rowDecodes_of_commands (opcode_lt i) (by decide) (by decide)
    fun flags hf index hx hf0 hx0 => ⟨i, rfl, rfl, ?_, ?_⟩
  · exact hi.1.trans (Nat.lt_one_iff.1 (lt_of_and_eq_zero 0 8 hf hf0)).symm
  · exact hi.2.trans (Nat.lt_one_iff.1 (lt_of_and_eq_zero 0 16 hx hx0)).symm

/-- A row with an index and no flag. -/
theorem rowDecodes_indexed (o : Nat) (f : Nat → Instr) (ho : o < 256 := by decide)
    (hf : ∀ x, mnemonicOf (f x) = name ∧ (f x).opcode = o ∧ (f x).flags = 0 ∧ (f x).index = x := by
      exact fun _ => ⟨rfl, rfl, rfl, rfl⟩) :
    RowDecodes ⟨name, mkWord o 0 0, mkWord 0xFF 0xFF 0⟩ := by
  refine rowDecodes_of_commands ho (by decide) (by decide) fun flags hlt index _ hf0 _ => ⟨f index, ?_⟩
  rw [Nat.lt_one_iff.1 (lt_of_and_eq_zero 0 8 hlt hf0)]
  exact hf index

/-- A row with DIR and an index. -/
theorem rowDecodes_directed (o : Nat) (f : Direction → Nat → Instr) (ho : o < 256 := by decide)
    (hf : ∀ d x, mnemonicOf (f d x) = name ∧ (f d x).opcode = o ∧ (f d x).flags = d.code ∧
      (f d x).index = x := by exact fun _ _ => ⟨rfl, rfl, rfl, rfl⟩) :
    RowDecodes ⟨name, mkWord o 0 0, mkWord 0xFF 0xFE 0⟩ := by
  refine rowDecodes_of_commands ho (by decide) (by decide) fun flags hlt index _ hf0 _ => ?_
  obtain ⟨hname, hopc, hflags, hindex⟩ := hf (directionOf flags) index
  exact ⟨_, hname, hopc, hflags.trans (code_directionOf (lt_of_and_eq_zero 1 7 hlt hf0)), hindex⟩

/-- A row with MARK and an index. -/
theorem rowDecodes_marked (o : Nat) (f : Bool → Nat → Instr) (ho : o < 256 := by decide)
    (hf : ∀ m x, mnemonicOf (f m x) = name ∧ (f m x).opcode = o ∧ (f m x).flags = flagNat m ∧
      (f m x).index = x := by exact fun _ _ => ⟨rfl, rfl, rfl, rfl⟩) :
    RowDecodes ⟨name, mkWord o 0 0, mkWord 0xFF 0xFE 0⟩ := by
  refine rowDecodes_of_commands ho (by decide) (by decide) fun flags hlt index _ hf0 _ => ?_
  obtain ⟨hname, hopc, hflags, hindex⟩ := hf (decide (flags % 2 = 1)) index
  exact ⟨_, hname, hopc, hflags.trans (flagNat_odd (lt_of_and_eq_zero 1 7 hlt hf0)), hindex⟩

theorem rowDecodes_occClear : RowDecodes ⟨"OCC_CLEAR", mkWord 0x28 0 0, mkWord 0xFF 0xFE 0xFFFF⟩ :=
  rowDecodes_of_commands (by decide) (by decide) (by decide) fun flags hf _ hx hf0 hx0 =>
    ⟨.occClear (decide (flags % 2 = 1)), rfl, rfl, flagNat_odd (lt_of_and_eq_zero 1 7 hf hf0),
      (Nat.lt_one_iff.1 (lt_of_and_eq_zero 0 16 hx hx0)).symm⟩

theorem rowDecodes_laRead : RowDecodes ⟨"LA_READ", mkWord 0x42 0 0, mkWord 0xFF 0xFC 0⟩ :=
  rowDecodes_of_commands (by decide) (by decide) (by decide) fun flags hf index _ hf0 _ =>
    ⟨.laRead (directionOf flags) (decide (flags / 2 = 1)) index, rfl, rfl,
      code_directionOf_add_page (lt_of_and_eq_zero 2 6 hf hf0), rfl⟩

theorem rowDecodes_of_mem : ∀ row ∈ opcodeTable, RowDecodes row := by
  simp only [opcodeTable, List.forall_mem_cons]
  exact ⟨rowDecodes_plain .nop, rowDecodes_indexed 0x01 .ctxRelease, rowDecodes_directed 0x10 .hqCreate,
    rowDecodes_directed 0x11 .hqTakeAvail, rowDecodes_directed 0x12 .hqMarkFb,
    rowDecodes_directed 0x13 .hqFeedback, rowDecodes_directed 0x14 .hqTakeRetx,
    rowDecodes_directed 0x15 .hqResize, rowDecodes_directed 0x16 .hqQuery, rowDecodes_directed 0x17 .hqStat,
    rowDecodes_indexed 0x20 .ccpLayoutSet, rowDecodes_indexed 0x21 .ccpLayoutDel,
    rowDecodes_indexed 0x22 .ccpLayoutInfo, rowDecodes_indexed 0x23 .ccpCceMap,
    rowDecodes_marked 0x24 .ccpFind, rowDecodes_marked 0x25 .ccpSearch, rowDecodes_indexed 0x26 .ccpMark,
    rowDecodes_occClear, rowDecodes_plain .occSet, rowDecodes_plain .occRead,
    rowDecodes_indexed 0x30 .genField, rowDecodes_plain .genEncode, rowDecodes_plain .genClear,
    rowDecodes_directed 0x40 .laInit, rowDecodes_directed 0x41 .laEval, rowDecodes_laRead,
    rowDecodes_plain .rbsFit, rowDecodes_plain .bmConfig, rowDecodes_plain .bmAlloc,
    rowDecodes_plain .bmRelease, rowDecodes_plain .bmRead, List.forall_mem_nil _⟩

/-! ### Every command has a row, and only one -/

open Laws in
theorem rowMatch : ∀ i : Instr, RowMatch.Statement i
  | .nop => RowMatch.nop
  | .ctxRelease c => RowMatch.ctxRelease c
  | .hqCreate d c => RowMatch.hqCreate d c
  | .hqTakeAvail d c => RowMatch.hqTakeAvail d c
  | .hqMarkFb d c => RowMatch.hqMarkFb d c
  | .hqFeedback d c => RowMatch.hqFeedback d c
  | .hqTakeRetx d c => RowMatch.hqTakeRetx d c
  | .hqResize d c => RowMatch.hqResize d c
  | .hqQuery d c => RowMatch.hqQuery d c
  | .hqStat d c => RowMatch.hqStat d c
  | .ccpLayoutSet k => RowMatch.ccpLayoutSet k
  | .ccpLayoutDel k => RowMatch.ccpLayoutDel k
  | .ccpLayoutInfo k => RowMatch.ccpLayoutInfo k
  | .ccpCceMap k => RowMatch.ccpCceMap k
  | .ccpFind m k => RowMatch.ccpFind m k
  | .ccpSearch m k => RowMatch.ccpSearch m k
  | .ccpMark k => RowMatch.ccpMark k
  | .occClear a => RowMatch.occClear a
  | .occSet => RowMatch.occSet
  | .occRead => RowMatch.occRead
  | .genField f => RowMatch.genField f
  | .genEncode => RowMatch.genEncode
  | .genClear => RowMatch.genClear
  | .laInit d c => RowMatch.laInit d c
  | .laEval d c => RowMatch.laEval d c
  | .laRead d sel c => RowMatch.laRead d sel c
  | .rbsFit => RowMatch.rbsFit
  | .bmConfig => RowMatch.bmConfig
  | .bmAlloc => RowMatch.bmAlloc
  | .bmRelease => RowMatch.bmRelease
  | .bmRead => RowMatch.bmRead

theorem decodeWord_of_no_row (h : ∀ row ∈ opcodeTable, w &&& row.mask ≠ row.bits) :
    decodeWord w = none := by
  refine Option.eq_none_iff_forall_ne_some.2 fun i hi => ?_
  obtain ⟨hwf, rfl⟩ := decodeWord_eq_some_iff.1 hi
  obtain ⟨row, hmem, -, hmatch⟩ := rowMatch i hwf
  exact h row hmem hmatch

/-- Every mask covers OPC. -/
theorem mask_and_opc : ∀ row ∈ opcodeTable, row.mask &&& 0xFF000000 = 0xFF000000 := by decide

/-- No two rows have the same OPC. -/
theorem row_eq_of_opc : ∀ row ∈ opcodeTable, ∀ row' ∈ opcodeTable,
    row.bits &&& 0xFF000000 = row'.bits &&& 0xFF000000 → row = row' := by decide

theorem bits_and_opc {row : OpRow} (hrow : row ∈ opcodeTable) (h : w &&& row.mask = row.bits) :
    row.bits &&& 0xFF000000 = w &&& 0xFF000000 := by
  rw [← h, BitVec.and_assoc, mask_and_opc row hrow]

/-! ### The optional units (R3, R124) -/

/-- The rows of an optional unit that the configuration does not have. -/
def AbsentRow (cfg : Config) (name : String) : Prop :=
  (name = "RBS_FIT" ∧ cfg.hasRbs = false) ∨
    (name ∈ ["BM_CONFIG", "BM_ALLOC", "BM_RELEASE", "BM_READ"] ∧ cfg.hasBma = false)

theorem present_eq_false_iff (cfg : Config) (i : Instr) :
    i.present cfg = false ↔ AbsentRow cfg (mnemonicOf i) := by
  cases i <;> simp [Instr.present, AbsentRow, mnemonicOf]

/-- Settles O3: by R120's fields a matching word decodes to its row's command; encoding finds the row of
a word that decodes; the opcodes of the rows differ. -/
theorem decodeFollowsTheOpcodeMap : Obligations.DecodeFollowsTheOpcodeMap := by
  intro cfg w
  refine ⟨fun row hrow hmatch => ?_, fun h => decode_of_decodeWord_none (decodeWord_of_no_row h),
    fun row hrow row' hrow' h h' =>
      row_eq_of_opc row hrow row' hrow' ((bits_and_opc hrow h).trans (bits_and_opc hrow' h').symm)⟩
  obtain ⟨i, hi, hname⟩ := rowDecodes_of_mem row hrow w hmatch
  obtain ⟨-, hflags, hindex⟩ := fields_of_decodeWord hi
  have habsent : i.present cfg = false ↔ AbsentRow cfg row.mnemonic := hname ▸ present_eq_false_iff cfg i
  refine ⟨fun ha => ?_, fun ha => ⟨i, ?_, hname, ?_, ?_⟩⟩
  · rw [decode_of_decodeWord hi, if_neg (Bool.eq_false_iff.1 (habsent.2 ha))]
  · exact decode_eq_some_iff.2 ⟨hi, Bool.eq_true_of_not_eq_false (mt habsent.1 ha)⟩
  · exact hflags.trans (field_eq w 16 8)
  · exact hindex.trans (field_low w 16)

end Sys2Proof.Machine
end

section
/-! The argument registers (`30_encoding.md` R125, R126, R128): an operand is the number made of its
bits. -/

namespace Sys2Proof.Machine

/-! ### Bits of a word as numbers -/

theorem field_high (w : Word) : field w 16 16 = w.toNat / 2 ^ 16 := by
  have := w.isLt
  rw [field_eq]
  omega

theorem bit_eq (w : Word) (j : Nat) : bit w j = decide (w.toNat / 2 ^ j % 2 = 1) :=
  Nat.testBit_eq_decide_div_mod_eq

theorem append_toNat {n : Nat} (x : BitVec n) (w : Word) : (x ++ w).toNat = x.toNat * 2 ^ 32 + w.toNat := by
  rw [BitVec.toNat_append, ← Nat.shiftLeft_add_eq_or_of_lt w.isLt, Nat.shiftLeft_eq]

/-- FMASK, ARG1[12:0] : ARG0. -/
theorem opLayout_fmask (s : State) :
    s.opLayout.fmask.toNat = (s.arg 1).toNat % 2 ^ 13 * 2 ^ 32 + (s.arg 0).toNat :=
  (append_toNat _ _).trans (congrArg (· * 2 ^ 32 + _) (field_low (s.arg 1) 13))

/-! ### The codes of R128 -/

theorem opFmt_eq_getD (s : State) :
    s.opFmt = [GrantFormat.dlA, .dlB, .ulA, .ulB].getD (s.argField 0 0 2) .ulB := by
  unfold State.opFmt
  rcases s.argField 0 0 2 with _ | _ | _ | _ | n <;> rfl

theorem opMode_eq_getElem? (s : State) :
    s.opMode = [AddrMode.bcast, .ra, .paging, .temp, .ded][s.argField 0 4 3]? := by
  unfold State.opMode
  rcases s.argField 0 4 3 with _ | _ | _ | _ | _ | n <;> rfl

/-! ### Every operand -/

/-- Settles O17: every operand is a field of an argument register, taken from bit 0, from the upper half,
or from the middle; a single bit; a whole register; or one of the three operands above. -/
theorem argumentFields : Obligations.ArgumentFields := by
  intro s a
  have low (i : Fin 8) (len : Nat) : s.argField i 0 len = a i % 2 ^ len := field_low _ len
  have high (i : Fin 8) : s.argField i 16 16 = a i / 2 ^ 16 := field_high _
  have mid (i : Fin 8) (lo len : Nat) : s.argField i lo len = a i / 2 ^ lo % 2 ^ len := field_eq _ lo len
  have flag (i : Fin 8) (j : Nat) : s.argBit i j = decide (a i / 2 ^ j % 2 = 1) := bit_eq _ j
  refine ⟨?hqm, ?layout, ?search, ?occ, ?gen, ?las, ?rbs, ?bma⟩
  case hqm => exact ⟨low 0 8, low 0 8, rfl, flag 0 8⟩
  case layout =>
    exact ⟨opLayout_fmask s, low 2 2, mid 2 4 4, flag 2 8, mid 2 9 3, mid 2 12 3, mid 2 16 9, low 3 16⟩
  case search =>
    exact ⟨low 0 16, low 0 8, low 1 3, mid 1 4 4, fun v _ => mid 1 (4 * v) 4, rfl, low 3 9, low 2 16⟩
  case occ => exact ⟨low 1 16, high 1, low 2 14⟩
  case gen =>
    exact ⟨rfl, low 1 6, low 1 7, low 0 2 ▸ opFmt_eq_getD s, mid 0 4 3 ▸ opMode_eq_getElem? s⟩
  case las =>
    exact ⟨low 0 8, mid 0 8 8, mid 0 16 8, low 1 17, low 2 17, low 3 10, low 4 10, rfl, rfl, low 7 17,
      low 0 10, rfl, rfl⟩
  case rbs => exact ⟨rfl, low 1 16, high 1, rfl, (flag 3 0).trans (by rw [Nat.pow_zero, Nat.div_one])⟩
  case bma =>
    exact ⟨low 0 16, high 0, low 1 8, low 0 10, high 0, low 1 16, low 2 16, low 3 8, flag 3 8, low 0 8,
      low 1 16⟩

end Sys2Proof.Machine
end

section
/-! Host writes to the global registers and to PSTATUS as steps (`40_system.md` R162 to R167), and the
two resets (`70_reset_and_hazards.md` R450, R451): O10, O16. -/

namespace Sys2Proof.Machine

variable {s : State} {host p : PortId} {v : Word} {rest : List Turn}

/-- A write at an aligned offset that selects a global register is a write of that register. -/
theorem step_writeGlobal {off : BitVec 12} {r : GlobalReg} (hr : regAt off.toNat = .global r)
    (hoff : off.toNat % 4 = 0) (ha : s.agenda = .access host (.write .word off v) :: rest) :
    step s = .next ((writeGlobal { s with agenda := rest } v r).answer host .done) := by
  rw [step_write hoff ha, writeReg, hr]

/-! ### The two resets (R162, R450, R451) -/

theorem step_writeCtrl (ha : s.agenda = .access host (.write .word 0x018 v) :: rest) :
    step s = .next (if v.getLsbD 0 then
      { State.resetOf s.cfg with
        agenda := rest, resp := some (host, .done), pick := s.pick, fair := s.fair }
      else { s with agenda := rest, resp := some (host, .done) }) := by
  rw [step_writeGlobal (r := .ctrl) rfl rfl ha, writeGlobal, bit]
  cases v.getLsbD 0 <;> rfl

theorem step_hardReset (ha : s.agenda = .hardReset :: rest) :
    step s = .next (resetBlock { s with agenda := rest }) :=
  step_cons ha

/-- Settles O10: both resets are `resetBlock`, the soft one guarded by bit 0 of the word written. -/
theorem softAndHardwareReset : Obligations.SoftAndHardwareReset :=
  ⟨fun _ _ _ _ => step_writeCtrl, fun _ _ => step_hardReset⟩

/-! ### Error clear, interrupt status and enable, overrun clear (R164 to R167) -/

theorem step_writeErrClear (ha : s.agenda = .access host (.write .word 0x02C v) :: rest) :
    step s = .next { s with
      greg := if v.getLsbD 0 then errClear s.greg else s.greg
      agenda := rest, resp := some (host, .done) } := by
  rw [step_writeGlobal (r := .errClear) rfl rfl ha, writeGlobal, bit]
  cases v.getLsbD 0 <;> rfl

theorem step_writeIrqStatus (ha : s.agenda = .access host (.write .word 0x030 v) :: rest) :
    step s = .next { s with
      greg := irqAck s.greg v, agenda := rest, resp := some (host, .done) } := by
  rw [step_writeGlobal (r := .irqStatus) rfl rfl ha, writeGlobal, State.answer]

theorem step_writeIrqEnable (ha : s.agenda = .access host (.write .word 0x034 v) :: rest) :
    step s = .next { s with
      greg := { s.greg with irqEnable := slice v 0 3 }
      agenda := rest, resp := some (host, .done) } := by
  rw [step_writeGlobal (r := .irqEnable) rfl rfl ha, writeGlobal, State.answer]

/-- An acknowledged interrupt bit is one that was set and is not written 1. -/
theorem irqAck_getLsbD (g : Globals) (v : Word) {j : Nat} (hj : j < 3) :
    (irqAck g v).irqStatus.getLsbD j = (g.irqStatus.getLsbD j && !v.getLsbD j) := by
  simp [irqAck, slice, hj]

/-- A PSTATUS write clears OVERRUN when bit 2 is written 1, whether the port is BUSY or not (R167). -/
theorem writePort_pstatus (s : State) (p : PortId) (v : Word) :
    writePort s p v .pstatus =
      s.setPort p { s.port p with overrun := (s.port p).overrun && !v.getLsbD 2 } := by
  rw [writePort, bit]
  cases v.getLsbD 2
  · rw [Bool.not_false, Bool.and_true]
    exact (s.setPort_same p).symm
  · rw [Bool.not_true, Bool.and_false]
    rfl

theorem step_writePstatus
    (ha : s.agenda = .access host (.write .word (BitVec.ofNat 12 (portBase p + 4)) v) :: rest) :
    step s = .next { s.setPort p { s.port p with overrun := (s.port p).overrun && !v.getLsbD 2 } with
      agenda := rest, resp := some (host, .done) } := by
  rw [step_writePort (regAt_pstatus p) rfl (by decide) ha, writePort_pstatus]
  cases p <;> rfl

/-- Settles O16: none of the four writes tests BUSY, and each names the fields it replaces. -/
theorem statusWrites : Obligations.StatusWrites := by
  refine fun s host v rest => ⟨step_writeErrClear, fun ha => ?ack, fun ha => ?enable,
    fun p => step_writePstatus⟩
  case ack => exact ⟨_, step_writeIrqStatus ha, fun j hj => irqAck_getLsbD s.greg v hj⟩
  case enable => exact ⟨_, step_writeIrqEnable ha, field_low v 3⟩

end Sys2Proof.Machine
end

section
/-! The system commands (`40_system.md` R161, R163): NOP, and the release of a context (O27). -/

namespace Sys2Proof.Machine

variable {s : State} {c : Nat}

theorem exec_nop (s : State) : exec .nop s = finish .ok (results 0) s.units s := rfl

/-- The unit arrays after CTX_RELEASE (R163): no pool and no record listed under either key of `c`. -/
def Units.releaseCtx (u : Units) (c : Nat) : Units :=
  { u with
    hq := drop (drop u.hq (ctxKey c .dl)) (ctxKey c .ul)
    la := drop (drop u.la (ctxKey c .dl)) (ctxKey c .ul) }

theorem exec_ctxRelease_bad (h : s.cfg.numCtx ≤ c) : exec (.ctxRelease c) s = fatal .badIndex s :=
  inContext_bad h

theorem exec_ctxRelease_ok (h : c < s.cfg.numCtx) :
    exec (.ctxRelease c) s = finish .ok (results 0) (s.units.releaseCtx c) s :=
  inContext_ok h

/-- The two keys of a context are the downlink and the uplink one. -/
theorem ctxKey_eq_dl_or_ul {c' : Nat} (d : Direction) :
    ctxKey c' d = ctxKey c .ul ∨ ctxKey c' d = ctxKey c .dl ↔ c' = c := by
  refine ⟨fun h => h.elim (fun h => (ctxKey_inj h).1) fun h => (ctxKey_inj h).1, ?_⟩
  rintro rfl
  cases d
  · exact .inr rfl
  · exact .inl rfl

/-- Dropping both keys of a context removes its entries of both directions and no other. -/
theorem look_drop_ctx {α : Type} (m : Sparse α) (c c' : Nat) (d : Direction) :
    look (drop (drop m (ctxKey c .dl)) (ctxKey c .ul)) (ctxKey c' d) =
      if c' = c then none else look m (ctxKey c' d) := by
  rw [look_drop, look_drop, ← ite_or]
  exact if_congr (ctxKey_eq_dl_or_ul d) rfl rfl

@[simp] theorem pool_releaseCtx (u : Units) (c c' : Nat) (d : Direction) :
    (u.releaseCtx c).pool c' d = if c' = c then none else u.pool c' d :=
  look_drop_ctx u.hq c c' d

@[simp] theorem laRec_releaseCtx (u : Units) (c c' : Nat) (d : Direction) :
    (u.releaseCtx c).laRec c' d = if c' = c then none else u.laRec c' d :=
  look_drop_ctx u.la c c' d

/-- Settles O27: NOP finishes with the unit arrays as they are; CTX_RELEASE passes the context check and
finishes with `releaseCtx`, or is aborted by it. -/
theorem nopAndCtxReleaseResults : Obligations.NopAndCtxReleaseResults := by
  refine ⟨fun s => completes_of_finish (exec_nop s) (complete_units ..),
    fun s c => ⟨fun h => aborts_of_fatal (exec_ctxRelease_bad h),
      fun h => completes_of_finish (exec_ctxRelease_ok h) ?released⟩⟩
  case released =>
    rw [complete_units]
    exact ⟨rfl, fun c' d => ⟨pool_releaseCtx .., laRec_releaseCtx ..⟩⟩

end Sys2Proof.Machine
end

section
/-! The HARQ queue manager's pools (`41_harq_queue.md` R180, R181, R188): in which queue an id stands,
what the queue operations leave, and how a command that reads a pool may end. -/

namespace Sys2Proof.Machine

variable {s : State} {i : Instr} {c nmax k : Nat} {d : Direction} {P Q : Pool} {q : List Nat}

/-! ### The queues of a pool that satisfies R52 -/

section
variable (h : PoolWf nmax P)
include h

theorem PoolWf.nodup : (P.av ++ P.fb ++ P.rt).Nodup := h.parts.nodup_iff.2 List.nodup_range

theorem PoolWf.length_sum : P.av.length + P.fb.length + P.rt.length = P.cap := by
  simpa [Nat.add_assoc] using h.parts.length_eq

end

theorem mem_append_of_mem_queue {x : Queue} (hk : k ∈ P.queue x) : k ∈ P.av ++ P.fb ++ P.rt := by
  cases x with
  | av => exact List.mem_append_left _ (List.mem_append_left _ hk)
  | fb => exact List.mem_append_left _ (List.mem_append_right _ hk)
  | rt => exact List.mem_append_right _ hk

theorem PoolWf.id_lt (h : PoolWf nmax P) {x : Queue} (hk : k ∈ P.queue x) : k < P.cap :=
  List.mem_range.1 (h.parts.mem_iff.1 (mem_append_of_mem_queue hk))

theorem queueOf_of_mem_fb (hav : k ∉ P.av) (hfb : k ∈ P.fb) : P.queueOf k = .fb := by
  simp [Pool.queueOf, hav, hfb]

/-- `queue_of` names the queue that holds the id (R180). -/
theorem PoolWf.queueOf_eq (h : PoolWf nmax P) {x : Queue} (hk : k ∈ P.queue x) : P.queueOf k = x := by
  obtain ⟨hfirst, -, hrt⟩ := List.nodup_append.1 h.nodup
  obtain ⟨-, -, hav⟩ := List.nodup_append.1 hfirst
  cases x with
  | av => exact if_pos hk
  | fb => exact queueOf_of_mem_fb (fun ha => hav k ha k hk rfl) hk
  | rt =>
    have hna : k ∉ P.av := fun ha => hrt k (List.mem_append_left _ ha) k hk rfl
    have hnf : k ∉ P.fb := fun hf => hrt k (List.mem_append_right _ hf) k hk rfl
    simp [Pool.queueOf, hna, hnf]

theorem PoolWf.queue_nodup (h : PoolWf nmax P) (x : Queue) : (P.queue x).Nodup := by
  obtain ⟨hfirst, hrt, -⟩ := List.nodup_append.1 h.nodup
  obtain ⟨hav, hfb, -⟩ := List.nodup_append.1 hfirst
  cases x with
  | av => exact hav
  | fb => exact hfb
  | rt => exact hrt

/-- `q \ x` (R9): every entry but x, in the order of `q`. -/
theorem removeId_eq_filter (h : q.Nodup) : removeId q k = q.filter (· ≠ k) := by
  unfold removeId
  rw [h.erase_eq_filter]
  exact List.filter_congr fun x _ => by simp [bne, Bool.beq_eq_decide_eq]

@[simp] theorem removeId_cons_self : removeId (k :: q) k = q := List.erase_cons_head ..

/-! ### Due slots -/

theorem dueOnly_drop (h : Q.due = drop P.due k) : DueOnly P Q k none := by
  simp +contextual [DueOnly, h, look_drop]

theorem dueOnly_put {w : Word} (h : Q.due = put P.due k w) : DueOnly P Q k (some w) := by
  simp +contextual [DueOnly, h, look_put]

/-! ### How a command on a pool may end -/

theorem aborts_badIndex_of_withPool {f : Pool → Answer} (he : exec i s = withPool c d s f)
    (h : s.cfg.numCtx ≤ c) : Aborts i s .badIndex :=
  aborts_of_fatal (he.trans (withPool_bad h))

theorem aborts_notConfigured_of_withPool {f : Pool → Answer} (he : exec i s = withPool c d s f)
    (h : c < s.cfg.numCtx) (hp : s.units.pool c d = none) : Aborts i s .notConfigured :=
  aborts_of_fatal (he.trans (withPool_none h hp))

/-- A command that ends by storing the pool `Q` changes no other record, and what holds of `Q` holds of
the pool then stored. -/
theorem stores_of_finish {a : Nat} {R : Pool → Prop}
    (h : exec i s = finish .ok (results a) (s.units.setPool c d Q) s) (hR : R Q) :
    ∃ t, exec i s = .next t ∧ CompletedWith s t .ok (results a) ∧ OnlyPool c d s.units t.units ∧
      ∃ Q, t.units.pool c d = some Q ∧ R Q := by
  refine completes_of_finish h ?_
  rw [complete_units]
  exact ⟨onlyPool_setPool .., Q, pool_setPool_self, hR⟩

end Sys2Proof.Machine
end

section
/-! The commands of the HARQ queue manager (`41_harq_queue.md` R182 to R189): one equation per way a
command can go after its prologue, and from them what each command answers (O28 to O35). -/

namespace Sys2Proof.Machine

variable {s : State} {c : Nat} {d : Direction} {P : Pool}

/-! ### HQ_CREATE (R182) -/

theorem exec_hqCreate_badIndex (h : s.cfg.numCtx ≤ c) :
    exec (.hqCreate d c) s = fatal .badIndex s := inContext_bad h

theorem exec_hqCreate_badCapacity (hc : c < s.cfg.numCtx) (h : s.opCap < 1 ∨ s.cfg.nmax < s.opCap) :
    exec (.hqCreate d c) s = fatal .badCapacity s := (inContext_ok hc).trans (check_bad h)

theorem exec_hqCreate_ok (hc : c < s.cfg.numCtx) (h : ¬(s.opCap < 1 ∨ s.cfg.nmax < s.opCap)) :
    exec (.hqCreate d c) s =
      finish .ok (results 0) (s.units.setPool c d (Pool.fresh s.opCap)) s :=
  (inContext_ok hc).trans (check_ok h)

/-- Settles O28: the two checks, then the fresh pool is stored. -/
theorem hqCreateResult : Obligations.HqCreateResult := fun _ _ _ =>
  ⟨fun h => aborts_of_fatal (exec_hqCreate_badIndex h),
    fun hc h => aborts_of_fatal (exec_hqCreate_badCapacity hc (by omega)),
    fun hc h1 hn => stores_of_finish (exec_hqCreate_ok hc (by omega))
      ⟨rfl, rfl, rfl, rfl, fun j => look_nil j⟩⟩

section
variable (hc : c < s.cfg.numCtx) (hp : s.units.pool c d = some P)
include hc hp

/-! ### The equations of the other commands, on a valid pool -/

theorem exec_hqTakeAvail_cons {n : Nat} {q : List Nat} (hq : P.av = n :: q) :
    exec (.hqTakeAvail d c) s = finish .ok (results n) (s.units.setPool c d (P.take n)) s :=
  (withPool_ok hc hp).trans (by simp only [hq])

theorem exec_hqTakeAvail_nil (hq : P.av = []) :
    exec (.hqTakeAvail d c) s = finish .exhausted (results none32) s.units s :=
  (withPool_ok hc hp).trans (by simp only [hq])

theorem exec_hqTakeRetx_cons {n : Nat} {q : List Nat} (hq : P.rt = n :: q) :
    exec (.hqTakeRetx d c) s = finish .ok (results n) (s.units.setPool c d (P.retake n)) s :=
  (withPool_ok hc hp).trans (by simp only [hq])

theorem exec_hqTakeRetx_nil (hq : P.rt = []) :
    exec (.hqTakeRetx d c) s = finish .empty (results none32) s.units s :=
  (withPool_ok hc hp).trans (by simp only [hq])

theorem exec_hqMarkFb_badId (h : P.cap ≤ s.opId) : exec (.hqMarkFb d c) s = fatal .badId s :=
  (withPool_ok hc hp).trans (check_bad h)

theorem exec_hqMarkFb_av (hid : s.opId < P.cap) (hq : P.queueOf s.opId = .av) :
    exec (.hqMarkFb d c) s = finish .ok (results 1)
      (s.units.setPool c d ((P.grant s.opId).setDue s.opId s.opDue)) s :=
  (withPool_ok hc hp).trans ((check_ok hid.not_ge).trans (by simp only [hq]))

theorem exec_hqMarkFb_fb (hid : s.opId < P.cap) (hq : P.queueOf s.opId = .fb) :
    exec (.hqMarkFb d c) s = finish .ok (results 0)
      (s.units.setPool c d (P.setDue s.opId s.opDue)) s :=
  (withPool_ok hc hp).trans ((check_ok hid.not_ge).trans (by simp only [hq]))

theorem exec_hqMarkFb_rt (hid : s.opId < P.cap) (hq : P.queueOf s.opId = .rt) :
    exec (.hqMarkFb d c) s = fatal .badState s :=
  (withPool_ok hc hp).trans ((check_ok hid.not_ge).trans (by simp only [hq]))

theorem exec_hqFeedback_badId (h : P.cap ≤ s.opId) : exec (.hqFeedback d c) s = fatal .badId s :=
  (withPool_ok hc hp).trans (check_bad h)

theorem exec_hqFeedback_badState (hid : s.opId < P.cap) (hq : P.queueOf s.opId ≠ .fb) :
    exec (.hqFeedback d c) s = fatal .badState s :=
  (withPool_ok hc hp).trans ((check_ok hid.not_ge).trans (check_bad hq))

theorem exec_hqFeedback_ack (hid : s.opId < P.cap) (hq : P.queueOf s.opId = .fb)
    (hack : s.opAck = true) :
    exec (.hqFeedback d c) s = finish .ok (results 0) (s.units.setPool c d (P.ack s.opId)) s :=
  (withPool_ok hc hp).trans ((check_ok hid.not_ge).trans ((check_ok (not_not.2 hq)).trans (if_pos hack)))

theorem exec_hqFeedback_nack (hid : s.opId < P.cap) (hq : P.queueOf s.opId = .fb)
    (hack : ¬ s.opAck = true) :
    exec (.hqFeedback d c) s = finish .ok (results 2) (s.units.setPool c d (P.nack s.opId)) s :=
  (withPool_ok hc hp).trans ((check_ok hid.not_ge).trans ((check_ok (not_not.2 hq)).trans (if_neg hack)))

theorem exec_hqResize_invalid (h : s.opCap < P.cap) :
    exec (.hqResize d c) s = fatal .invalidResize s :=
  (withPool_ok hc hp).trans (check_bad h)

theorem exec_hqResize_badCapacity (h : P.cap ≤ s.opCap) (hn : s.cfg.nmax < s.opCap) :
    exec (.hqResize d c) s = fatal .badCapacity s :=
  (withPool_ok hc hp).trans ((check_ok h.not_gt).trans (check_bad hn))

theorem exec_hqResize_ok (h : P.cap ≤ s.opCap) (hn : s.opCap ≤ s.cfg.nmax) :
    exec (.hqResize d c) s =
      finish .ok (results s.opCap) (s.units.setPool c d (P.grow s.opCap)) s :=
  (withPool_ok hc hp).trans ((check_ok h.not_gt).trans (check_ok hn.not_gt))

end

/-! ### Taking the head of a queue -/

/-- Settles O29: the head of AV is taken, or AV is empty and nothing is stored. -/
theorem hqTakeAvailResult : Obligations.HqTakeAvailResult := fun _ _ _ =>
  ⟨aborts_badIndex_of_withPool rfl, aborts_notConfigured_of_withPool rfl, fun P hc hp =>
    ⟨fun n q hq => stores_of_finish (exec_hqTakeAvail_cons hc hp hq)
        ⟨rfl, by simp [Pool.take, hq], rfl, rfl, dueOnly_drop rfl⟩,
      fun hq => completes_of_finish (exec_hqTakeAvail_nil hc hp hq) (complete_units ..)⟩⟩

/-- Settles O32: the head of RT is taken, or RT is empty and nothing is stored. -/
theorem hqTakeRetxResult : Obligations.HqTakeRetxResult := fun _ _ _ =>
  ⟨aborts_badIndex_of_withPool rfl, aborts_notConfigured_of_withPool rfl, fun P hc hp =>
    ⟨fun n q hq => stores_of_finish (exec_hqTakeRetx_cons hc hp hq)
        ⟨rfl, rfl, rfl, by simp [Pool.retake, hq], dueOnly_drop rfl⟩,
      fun hq => completes_of_finish (exec_hqTakeRetx_nil hc hp hq) (complete_units ..)⟩⟩

/-! ### Commands that name an id -/

/-- Settles O30: R52 puts the id in one queue, which selects the command's branch. -/
theorem hqMarkFbResult : Obligations.HqMarkFbResult := by
  refine fun s d c => ⟨aborts_badIndex_of_withPool rfl, aborts_notConfigured_of_withPool rfl,
    fun P hc hp hwf => ?_⟩
  refine ⟨fun h => aborts_of_fatal (exec_hqMarkFb_badId hc hp h), fun hrt => ?rt, fun hav => ?av,
    fun hfb => ?fb⟩
  case rt =>
    exact aborts_of_fatal (exec_hqMarkFb_rt hc hp (hwf.id_lt (x := .rt) hrt) (hwf.queueOf_eq (x := .rt) hrt))
  case av =>
    exact stores_of_finish
      (exec_hqMarkFb_av hc hp (hwf.id_lt (x := .av) hav) (hwf.queueOf_eq (x := .av) hav))
      ⟨rfl, removeId_eq_filter (hwf.queue_nodup .av), rfl, rfl, dueOnly_put rfl⟩
  case fb =>
    exact stores_of_finish
      (exec_hqMarkFb_fb hc hp (hwf.id_lt (x := .fb) hfb) (hwf.queueOf_eq (x := .fb) hfb))
      ⟨rfl, rfl, rfl, rfl, dueOnly_put rfl⟩

/-- Settles O31: only an FB id passes the state check; the ACK bit chooses the queue it goes to. -/
theorem hqFeedbackResult : Obligations.HqFeedbackResult := by
  refine fun s d c => ⟨aborts_badIndex_of_withPool rfl, aborts_notConfigured_of_withPool rfl,
    fun P hc hp hwf => ?_⟩
  have hbad {x : Queue} (hx : x ≠ .fb) (hk : s.opId ∈ P.queue x) : Aborts (.hqFeedback d c) s .badState :=
    aborts_of_fatal (exec_hqFeedback_badState hc hp (hwf.id_lt hk) (by rwa [hwf.queueOf_eq hk]))
  refine ⟨fun h => aborts_of_fatal (exec_hqFeedback_badId hc hp h),
    fun h => h.elim (hbad (x := .av) (by decide)) (hbad (x := .rt) (by decide)), fun hfb => ?_⟩
  have hlt := hwf.id_lt (x := .fb) hfb
  have hq := hwf.queueOf_eq (x := .fb) hfb
  have hrem : removeId P.fb s.opId = P.fb.filter (· ≠ s.opId) := removeId_eq_filter (hwf.queue_nodup .fb)
  by_cases hack : s.opAck = true
  · simp only [if_pos hack]
    exact stores_of_finish (exec_hqFeedback_ack hc hp hlt hq hack) ⟨rfl, hrem, rfl, rfl, dueOnly_drop rfl⟩
  · simp only [if_neg hack]
    exact stores_of_finish (exec_hqFeedback_nack hc hp hlt hq hack) ⟨rfl, hrem, rfl, rfl, dueOnly_drop rfl⟩

/-! ### HQ_RESIZE (R187) -/

theorem range'_eq_filter_range {m n : Nat} (h : m ≤ n) :
    List.range' m (n - m) = (List.range n).filter (fun j => m ≤ j) := by
  obtain ⟨r, rfl⟩ := Nat.exists_eq_add_of_le h
  have hlow : (List.range m).filter (fun j => m ≤ j) = [] := by simp
  have hhigh : ((List.range r).map (m + ·)).filter (fun j => m ≤ j) = (List.range r).map (m + ·) := by
    simp
  rw [List.range_add, List.filter_append, hlow, hhigh, Nat.add_sub_cancel_left,
    List.range'_eq_map_range, List.nil_append]

theorem look_grow_due (n j : Nat) :
    look (P.grow n).due j = if P.cap ≤ j ∧ j < n then none else look P.due j := by
  simp [Pool.grow, look_dropAll]

/-- Settles O33: the two checks in their order, then the grown pool is stored. -/
theorem hqResizeResult : Obligations.HqResizeResult := fun s _ _ =>
  ⟨aborts_badIndex_of_withPool rfl, aborts_notConfigured_of_withPool rfl, fun P hc hp =>
    ⟨fun h => aborts_of_fatal (exec_hqResize_invalid hc hp h),
      fun h hn => aborts_of_fatal (exec_hqResize_badCapacity hc hp h hn),
      fun h hn => stores_of_finish (exec_hqResize_ok hc hp h hn)
        ⟨rfl, congrArg (P.av ++ ·) (range'_eq_filter_range h), rfl, rfl, look_grow_due s.opCap⟩⟩⟩

end Sys2Proof.Machine
end

section
/-! HQ_QUERY and HQ_STAT (`41_harq_queue.md` R188, R189): a capacity of at most 255 (R6, R52) keeps every
id, length and null id within its 8-bit field of the result (O34, O35). -/

namespace Sys2Proof.Machine

variable {s : State} {c nmax : Nat} {d : Direction} {P : Pool}

/-! ### Packed results -/

theorem or_pack_three {a b e : Nat} (ha : a < 2 ^ 8) (hb : b < 2 ^ 8) :
    a ||| b <<< 8 ||| e <<< 16 = a + b * 2 ^ 8 + e * 2 ^ 16 := by
  rw [or_shiftLeft_8 ha, or_shiftLeft_16 (by omega)]

theorem or_pack_four {a b e f : Nat} (ha : a < 2 ^ 8) (hb : b < 2 ^ 8) (he : e < 2 ^ 8) :
    a ||| b <<< 8 ||| e <<< 16 ||| f <<< 24 = a + b * 2 ^ 8 + e * 2 ^ 16 + f * 2 ^ 24 := by
  rw [or_pack_three ha hb, or_shiftLeft_24 (by omega)]

/-! ### Ids in their result fields -/

theorem PoolWf.cap_lt (h : PoolWf s.cfg.nmax P) (hcfg : s.cfg.wf = true) : P.cap < 2 ^ 8 := by
  obtain ⟨-, ⟨-, hn⟩, -⟩ := Config.wf_ranges hcfg
  have := h.capMax
  omega

/-- An id of a queue, or the null id, fits 8 bits. -/
theorem PoolWf.getD_id_lt (h : PoolWf nmax P) (hcap : P.cap < 2 ^ 8) {x : Queue} {o : Option Nat}
    (ho : ∀ n ∈ o, n ∈ P.queue x) : o.getD 0xFF < 2 ^ 8 := by
  cases o with
  | none => decide
  | some n => exact (h.id_lt (ho n rfl)).trans hcap

theorem nextId_eq (q : List Nat) (k : Nat) : nextId q k = (q[k + 1]?).getD 0xFF :=
  List.getD_eq_getElem?_getD ..

theorem prevId_eq (q : List Nat) (k : Nat) :
    prevId q k = if k = 0 then 0xFF else (q[k - 1]?).getD 0xFF := by
  cases k with
  | zero => rfl
  | succ k => exact (if_pos k.succ_pos).trans (List.getD_eq_getElem?_getD ..)

theorem headId_eq (q : List Nat) : headId q = q.head?.getD 0xFF := List.headD_eq_head?_getD

theorem tailId_eq (q : List Nat) : tailId q = q.getLast?.getD 0xFF := List.getLastD_eq_getLast? ..

section
variable (h : PoolWf nmax P) (hcap : P.cap < 2 ^ 8) (x : Queue)
include h hcap

theorem PoolWf.nextId_lt (k : Nat) : nextId (P.queue x) k < 2 ^ 8 := by
  rw [nextId_eq]
  exact h.getD_id_lt hcap fun n hn => List.mem_of_getElem? hn

theorem PoolWf.prevId_lt (k : Nat) : prevId (P.queue x) k < 2 ^ 8 := by
  rw [prevId_eq]
  split
  · decide
  · exact h.getD_id_lt hcap fun n hn => List.mem_of_getElem? hn

theorem PoolWf.headId_lt : headId (P.queue x) < 2 ^ 8 := by
  rw [headId_eq]
  exact h.getD_id_lt hcap fun n hn => List.mem_of_head? hn

theorem PoolWf.tailId_lt : tailId (P.queue x) < 2 ^ 8 := by
  rw [tailId_eq]
  exact h.getD_id_lt hcap fun n hn => List.mem_of_getLast? hn

theorem PoolWf.heads_eq : headId P.av ||| headId P.fb <<< 8 ||| headId P.rt <<< 16 =
    P.av.head?.getD 0xFF + P.fb.head?.getD 0xFF * 2 ^ 8 + P.rt.head?.getD 0xFF * 2 ^ 16 := by
  simp only [← headId_eq]
  exact or_pack_three (h.headId_lt hcap .av) (h.headId_lt hcap .fb)

theorem PoolWf.tails_eq : tailId P.av ||| tailId P.fb <<< 8 ||| tailId P.rt <<< 16 =
    P.av.getLast?.getD 0xFF + P.fb.getLast?.getD 0xFF * 2 ^ 8 + P.rt.getLast?.getD 0xFF * 2 ^ 16 := by
  simp only [← tailId_eq]
  exact or_pack_three (h.tailId_lt hcap .av) (h.tailId_lt hcap .fb)

end

/-! ### HQ_QUERY (R188) -/

/-- RES0 of HQ_QUERY for the id at position `k` of queue `x`, `due` telling whether it has a due slot. -/
def queryWord (P : Pool) (x : Queue) (k : Nat) (due : Bool) : Nat :=
  x.code ||| nextId (P.queue x) k <<< 8 ||| prevId (P.queue x) k <<< 16 ||| flagNat due <<< 24

theorem Queue.code_lt (x : Queue) : x.code < 2 ^ 8 := by cases x <;> decide

theorem queryWord_eq (h : PoolWf nmax P) (hcap : P.cap < 2 ^ 8) (x : Queue) (k : Nat) (due : Bool) :
    queryWord P x k due = x.code + ((P.queue x)[k + 1]?).getD 0xFF * 2 ^ 8 +
      (if k = 0 then 0xFF else ((P.queue x)[k - 1]?).getD 0xFF) * 2 ^ 16 +
      (if due then 2 ^ 24 else 0) := by
  rw [queryWord, or_pack_four x.code_lt (h.nextId_lt hcap x k) (h.prevId_lt hcap x k), nextId_eq, prevId_eq]
  cases due <;> rfl

theorem exec_hqQuery_badId (hc : c < s.cfg.numCtx) (hp : s.units.pool c d = some P)
    (h : P.cap ≤ s.opId) : exec (.hqQuery d c) s = fatal .badId s :=
  (withPool_ok hc hp).trans (check_bad h)

theorem exec_hqQuery_ok (hc : c < s.cfg.numCtx) (hp : s.units.pool c d = some P) (h : s.opId < P.cap) :
    exec (.hqQuery d c) s = finish .ok
      (results (queryWord P (P.queueOf s.opId) ((P.queue (P.queueOf s.opId)).idxOf s.opId)
          (look P.due s.opId).isSome)
        ((look P.due s.opId).getD 0).toNat ((P.queue (P.queueOf s.opId)).idxOf s.opId)) s.units s :=
  (withPool_ok hc hp).trans (check_ok h.not_ge)

theorem exists_queue {code : Nat} {L : List Nat}
    (h : (code, L) ∈ [(0, P.av), (1, P.fb), (2, P.rt)]) : ∃ x : Queue, x.code = code ∧ P.queue x = L := by
  simp only [List.mem_cons, List.not_mem_nil, or_false, Prod.mk.injEq] at h
  obtain ⟨rfl, rfl⟩ | ⟨rfl, rfl⟩ | ⟨rfl, rfl⟩ := h
  · exact ⟨.av, rfl, rfl⟩
  · exact ⟨.fb, rfl, rfl⟩
  · exact ⟨.rt, rfl, rfl⟩

theorem idxOf_of_getElem? {L : List Nat} {k n : Nat} (hL : L.Nodup) (h : L[k]? = some n) :
    L.idxOf n = k := by
  obtain ⟨hk, rfl⟩ := List.getElem?_eq_some_iff.1 h
  exact hL.idxOf_getElem k hk

/-- Settles O34: R52 makes the id's queue and its position there the ones the command computes. -/
theorem hqQueryResult : Obligations.HqQueryResult := by
  refine fun s d c => ⟨aborts_badIndex_of_withPool rfl, aborts_notConfigured_of_withPool rfl,
    fun P hc hp hcfg hwf => ⟨fun h => aborts_of_fatal (exec_hqQuery_badId hc hp h), ?_⟩⟩
  intro code L k hL hk
  obtain ⟨x, rfl, rfl⟩ := exists_queue hL
  have hmem : s.opId ∈ P.queue x := List.mem_of_getElem? hk
  have he := exec_hqQuery_ok hc hp (hwf.id_lt hmem)
  rw [hwf.queueOf_eq hmem, idxOf_of_getElem? (hwf.queue_nodup x) hk,
    queryWord_eq hwf (hwf.cap_lt hcfg)] at he
  exact ⟨_, he, complete_units .., completedWith_complete ..⟩

/-! ### HQ_STAT (R189) -/

theorem exec_hqStat_ok (hc : c < s.cfg.numCtx) (hp : s.units.pool c d = some P) :
    exec (.hqStat d c) s = finish .ok
      (results (P.av.length ||| P.fb.length <<< 8 ||| P.rt.length <<< 16 ||| P.cap <<< 24)
        (headId P.av ||| headId P.fb <<< 8 ||| headId P.rt <<< 16)
        (tailId P.av ||| tailId P.fb <<< 8 ||| tailId P.rt <<< 16)) s.units s :=
  withPool_ok hc hp

/-- Settles O35: the lengths sum to the capacity, so each of them fits its field. -/
theorem hqStatResult : Obligations.HqStatResult := by
  refine fun s d c => ⟨aborts_badIndex_of_withPool rfl, aborts_notConfigured_of_withPool rfl,
    fun P hc hp hcfg hwf => ⟨hwf.length_sum, ?_⟩⟩
  have hcap := hwf.cap_lt hcfg
  have hsum := hwf.length_sum
  have he := exec_hqStat_ok hc hp
  rw [or_pack_four (by omega) (by omega) (by omega), hwf.heads_eq hcap, hwf.tails_eq hcap] at he
  exact ⟨_, he, complete_units .., completedWith_complete ..⟩

end Sys2Proof.Machine
end

section
/-! Exhaustion and recovery (`41_harq_queue.md` R192): the pool after n takes from a fresh one, and the
run of N + 3 commands along it (O36). -/

namespace Sys2Proof.Machine

variable {N n : Nat}

/-- The pool that `n` HQ_TAKE_AVAIL commands make of the fresh pool of capacity `N`. -/
def Pool.drained (N n : Nat) : Pool where
  cap := N
  av  := List.range' n (N - n)
  fb  := List.range n
  rt  := []
  due := []

theorem drained_zero : Pool.drained N 0 = Pool.fresh N := by
  simp [Pool.drained, Pool.fresh, List.range_eq_range']

theorem eq_drained_zero {P : Pool} (hcap : P.cap = N) (hav : P.av = List.range N) (hfb : P.fb = [])
    (hrt : P.rt = []) (hdue : P.due = []) : P = Pool.drained N 0 := by
  rw [drained_zero]
  obtain ⟨cap, av, fb, rt, due⟩ := P
  dsimp only at hcap hav hfb hrt hdue
  rw [hcap, hav, hfb, hrt, hdue, Pool.fresh]

theorem drained_av_of_lt (h : n < N) :
    (Pool.drained N n).av = n :: List.range' (n + 1) (N - (n + 1)) := by
  rw [Pool.drained, show N - n = N - (n + 1) + 1 by omega, List.range'_succ]

theorem drained_av_self : (Pool.drained N N).av = [] := by simp [Pool.drained]

theorem drained_take (h : n < N) : (Pool.drained N n).take n = Pool.drained N (n + 1) := by
  rw [Pool.take, drained_av_of_lt h, removeId_cons_self]
  simp [Pool.drained, appendId, List.range_succ, drop]

/-- What the host leaves alone after a command: the unit arrays are still those the command stored. -/
theorem units_of_finish {s : State} {i : Instr} {rc : RCode} {res : Vector Word 4} {u v : Units}
    (h : exec i s = finish rc res u s) (hv : ∀ t, exec i s = .next t → v = t.units) : v = u :=
  (hv _ h).trans (complete_units ..)

theorem completedWith_of_finish {s : State} {i : Instr} {rc : RCode} {res : Vector Word 4} {u : Units}
    (h : exec i s = finish rc res u s) : ∃ t, exec i s = .next t ∧ CompletedWith s t rc res :=
  ⟨_, h, completedWith_complete ..⟩

/-- Before the take number `n` the pool is drained by `n`. -/
theorem pool_drained {d : Direction} {c : Nat} {S : Nat → State} (hc : ∀ n, c < (S n).cfg.numCtx)
    (h0 : (S 0).units.pool c d = some (Pool.drained N 0))
    (hrun : ∀ n t, n ≤ N → exec (.hqTakeAvail d c) (S n) = .next t → (S (n + 1)).units = t.units) :
    ∀ n ≤ N, (S n).units.pool c d = some (Pool.drained N n) := by
  intro n
  induction n with
  | zero => exact fun _ => h0
  | succ n ih =>
    intro hn
    have he := exec_hqTakeAvail_cons (hc n) (ih (by omega)) (drained_av_of_lt hn)
    rw [units_of_finish he (hrun n · (by omega)), pool_setPool_self, drained_take hn]

/-- Settles O36: N takes drain the pool, the next finds AV empty and changes nothing, and feedback for `j`
leaves AV = [j]. -/
theorem exhaustionAndRecovery : Obligations.ExhaustionAndRecovery := by
  rintro d c N _ S hc - - hj hcfg ⟨P, hP, hcap, hav, hfb, hrt, hdue⟩ hrun rfl hack hfeed
  have hctx (n : Nat) : c < (S n).cfg.numCtx := by rwa [hcfg n]
  have hpool := pool_drained hctx (eq_drained_zero hcap hav hfb hrt hdue ▸ hP) hrun
  have hexhausted := exec_hqTakeAvail_nil (hctx N) (hpool N le_rfl) drained_av_self
  have hpool1 : (S (N + 1)).units.pool c d = some (Pool.drained N N) := by
    rw [units_of_finish hexhausted (hrun N · le_rfl), hpool N le_rfl]
  have hqueue : (Pool.drained N N).queueOf (S (N + 1)).opId = .fb :=
    queueOf_of_mem_fb (by simp [drained_av_self]) (List.mem_range.2 hj)
  have hfeedback := exec_hqFeedback_ack (hctx (N + 1)) hpool1 hj hqueue hack
  have hpool2 : (S (N + 2)).units.pool c d = some ((Pool.drained N N).ack (S (N + 1)).opId) := by
    rw [units_of_finish hfeedback hfeed, pool_setPool_self]
  have hback : ((Pool.drained N N).ack (S (N + 1)).opId).av = [(S (N + 1)).opId] := by
    simp [Pool.ack, appendId, drained_av_self]
  exact ⟨fun n hn => completedWith_of_finish
      (exec_hqTakeAvail_cons (hctx n) (hpool n hn.le) (drained_av_of_lt hn)),
    completedWith_of_finish hexhausted, completedWith_of_finish hfeedback,
    completedWith_of_finish (exec_hqTakeAvail_cons (hctx (N + 2)) hpool2 hback)⟩

end Sys2Proof.Machine
end

section
/-! Occupancy monotonicity (`42_cce_placer.md` R239, R249): no command but OCC_CLEAR takes a bit out of an
occupancy mask, and a search answers OK with a free candidate only (O46). -/

namespace Sys2Proof.Machine

variable {s t : State} {i : Instr} {rc : RCode} {b : Nat} {u v w : Units}

/-! ### Masks that only gain bits -/

/-- Every bit of a mask of beam `b` in `u` is there in `v`. -/
def MasksGrow (b : Nat) (u v : Units) : Prop :=
  ∀ r j, r < 65536 → (u.mask b r).getLsbD j = true → (v.mask b r).getLsbD j = true

theorem masksGrow_of_occ (h : v.occ = u.occ) : MasksGrow b u v := by
  intro r j _ hj
  rwa [Units.mask, h]

theorem MasksGrow.trans (huv : MasksGrow b u v) (hvw : MasksGrow b v w) : MasksGrow b u w :=
  fun r j hr hj => hvw r j hr (huv r j hr hj)

/-- A write by `orMask` keeps every bit, also where two indices share a key. -/
theorem masksGrow_orMask (b' r' : Nat) (m : BitVec 14) : MasksGrow b u (u.orMask b' r' m) := by
  intro r j _ hj
  simp only [Units.mask, Units.orMask, readAt_writeAt] at hj ⊢
  split
  · rename_i hk
    rw [← hk, BitVec.getLsbD_or, hj, Bool.true_or]
  · exact hj

theorem masksGrow_foldl_orMask (L : List Nat) (b' : Nat) (m : BitVec 14) (u : Units) :
    MasksGrow b u (L.foldl (fun v r => v.orMask b' r m) u) := by
  induction L generalizing u with
  | nil => exact masksGrow_of_occ rfl
  | cons r L ih => exact (masksGrow_orMask b' r m).trans (ih _)

theorem masksGrow_clearBeam {b' : Nat} (h : b ≠ b') : MasksGrow b u (clearBeam b' u) := by
  intro r j hr hj
  rwa [mask_clearBeam b' u b r hr, if_neg h]

/-- Of the completed commands only OCC_CLEAR clears a bit (R245 to R247). -/
theorem UnitStep.masksGrow (h : UnitStep s i rc u) (hall : i ≠ .occClear true)
    (hone : i = .occClear false → s.opBeam ≠ b) : MasksGrow b s.units u := by
  cases h with
  | findMark | searchMark | ccpMark | occSet => exact masksGrow_foldl_orMask _ _ _ _
  | occClearAll => exact absurd rfl hall
  | occClearBeam => exact masksGrow_clearBeam (hone rfl).symm
  | genField | genEncode | genClear => exact masksGrow_of_occ (setGen_occ ..)
  | _ => exact masksGrow_of_occ rfl

theorem exec_masksGrow (h : exec i s = .next t) (hall : i ≠ .occClear true)
    (hone : i = .occClear false → s.opBeam ≠ b) : MasksGrow b s.units t.units := by
  rcases exec_shape h with ⟨code, -, rfl⟩ | ⟨rc, res, u, -, rfl, hu⟩
  · exact masksGrow_of_occ (by rw [fatalState_units])
  · rw [complete_units]
    exact hu.masksGrow hall hone

theorem NoClearRun.masksGrow (h : NoClearRun b s t) : MasksGrow b s.units t.units := by
  induction h with
  | start => exact masksGrow_of_occ rfl
  | command i _ he hall hone ih => exact ih.trans (exec_masksGrow he hall hone)
  | outside _ hu ih => exact ih.trans (masksGrow_of_occ (by rw [hu]))

/-! ### What a search returns -/

variable {k : Nat} {l : Layout} {mark : Bool}

theorem cceCount_le (l : Layout) : cceCount l ≤ 135 := by
  have hg := groupCount_le l
  have hd : l.dur.toNat ≤ 3 := Nat.le_of_lt_succ l.dur.isLt
  exact Nat.mul_le_mul hg hd

/-- RES0 and RES1 of the served port in `t` name, as first CCE and level, a candidate that is free on the
beam operand in `s`. -/
def ReturnsFree (s t : State) (l : Layout) : Prop :=
  CandidateFree s s.opBeam l ((t.port s.cur).res.get 0).toNat (2 ^ ((t.port s.cur).res.get 1).toNat)

theorem rcode_fatalState_ne_ok {code : RCode} (hf : code.isFatal = true) :
    ((fatalState code s).port s.cur).rcode ≠ .ok := by
  rw [fatalState_port]
  rintro rfl
  exact absurd hf (by decide)

/-- What `findLevel` finds fits the result registers, and is free. -/
theorem returnsFree_of_findLevel {lvl M Y first m tested d : Nat}
    (hf : findLevel s.cfg.cceMap l s.units s.opBeam lvl M Y = (some (first, m), tested)) :
    ReturnsFree s (complete .ok (results first lvl m d) u s) l := by
  obtain ⟨hfit, -, hfirst, -, hfree, -⟩ := findLevel_some hf
  rw [Nat.one_shiftLeft] at hfit hfirst hfree
  have hend : first + 2 ^ lvl ≤ 135 := by
    have := firstCce_le (M := M) (Y := Y) (m := m) (Nat.two_pow_pos lvl) hfit
    rw [← hfirst, nCce_eq] at this
    exact this.trans (cceCount_le l)
  have hlvl : lvl < 2 ^ lvl := Nat.lt_two_pow_self
  have hres0 : (BitVec.ofNat 32 first).toNat = first := by rw [BitVec.toNat_ofNat]; omega
  have hres1 : (BitVec.ofNat 32 lvl).toNat = lvl := by rw [BitVec.toNat_ofNat]; omega
  have hget0 : (results first lvl m d).get 0 = BitVec.ofNat 32 first := rfl
  have hget1 : (results first lvl m d).get 1 = BitVec.ofNat 32 lvl := rfl
  rw [ReturnsFree, complete_port, hget0, hget1, hres0, hres1]
  exact candidateFree_iff.1 hfree

/-- A command that passed its prologue with OK went on with the stored layout. -/
theorem withLayout_of_ok {f : Layout → Answer} (h : withLayout k s f = .next t)
    (hl : look s.units.lay k = some l) (hok : (t.port s.cur).rcode = .ok) : f l = .next t := by
  rcases withLayout_cases h with ⟨code, hf, rfl⟩ | ⟨l', -, hl', h⟩
  · exact absurd hok (rcode_fatalState_ne_ok hf)
  · obtain rfl := Option.some.inj (hl'.symm.trans hl)
    exact h

/-- A command that ended with OK passed its fatal checks. -/
theorem check_of_ok {bad : Prop} [Decidable bad] {code : RCode} {a : Answer}
    (h : check bad code s a = .next t) (hok : (t.port s.cur).rcode = .ok)
    (hf : code.isFatal = true := by decide) : a = .next t := by
  rcases check_cases h with ⟨-, rfl⟩ | ⟨-, h⟩
  · exact absurd hok (rcode_fatalState_ne_ok hf)
  · exact h

/-- CCP_FIND answers OK with a free candidate only (R239, R243). -/
theorem exec_ccpFind_returnsFree (h : exec (.ccpFind mark k) s = .next t)
    (hl : look s.units.lay k = some l) (hok : (t.port s.cur).rcode = .ok) : ReturnsFree s t l := by
  have h := check_of_ok (check_of_ok (check_of_ok (withLayout_of_ok h hl hok) hok) hok) hok
  split at h
  · obtain rfl := finish_eq_next.1 h
    rw [complete_port] at hok
    cases hok
  · rename_i first m tested hf
    obtain rfl := finish_eq_next.1 h
    exact returnsFree_of_findLevel hf

/-- CCP_SEARCH answers OK with a free candidate only (R239, R244). -/
theorem exec_ccpSearch_returnsFree (h : exec (.ccpSearch mark k) s = .next t)
    (hl : look s.units.lay k = some l) (hok : (t.port s.cur).rcode = .ok) : ReturnsFree s t l := by
  have h := check_of_ok (check_of_ok (check_of_ok (withLayout_of_ok h hl hok) hok) hok) hok
  split at h
  · obtain rfl := finish_eq_next.1 h
    rw [complete_port] at hok
    cases hok
  · rename_i lvl first m total hs
    obtain rfl := finish_eq_next.1 h
    obtain ⟨-, tested, hf⟩ := searchLevels_some hs
    exact returnsFree_of_findLevel hf

/-- A candidate that touches a resource block with an occupied symbol of the layout is not free (R239). -/
theorem CandidateFree.not_mem {first L r j : Nat} (h : CandidateFree s b l first L)
    (hmask : (s.units.mask b r).getLsbD j = true) (hsym : (symbolMask l).getLsbD j = true) :
    r ∉ candidateRbs s.cfg.cceMap l first L := by
  intro hr
  have hbit := congrArg (·.getLsbD j) (h r hr)
  simp [hmask, hsym] at hbit

/-- Settles O46: the masks grow along the run, so the marked bit is still there and a returned candidate,
being free, does not touch its resource block. -/
theorem occupancyMonotonicity : Obligations.OccupancyMonotonicity := by
  intro b r j s u hr hrun hbit
  have hbit' := hrun.masksGrow r j hr hbit
  refine ⟨hbit', fun k mark l t hl _ hbeam hexec hok hsym => ?_⟩
  have hfree : ReturnsFree u t l := by
    rcases hexec with h | h
    · exact exec_ccpFind_returnsFree h hl hok
    · exact exec_ccpSearch_returnsFree h hl hok
  exact CandidateFree.not_mem hfree (hbeam ▸ hbit') hsym

end Sys2Proof.Machine
end

section
/-! The layout commands (`42_cce_placer.md` R230 to R235, R242): the prologue of the placer's commands, the
derived values of a legal layout at their bit places, and where one CCE lies (O37 to O39). -/

namespace Sys2Proof.Machine

variable {s : State} {i : Instr} {k n : Nat} {l : Layout}

/-! ### How a command on a layout may end -/

theorem aborts_badIndex_of_inLayouts {a : Answer} (he : exec i s = inLayouts k s a)
    (h : s.cfg.numLayouts ≤ k) : Aborts i s .badIndex :=
  aborts_of_fatal (he.trans (inLayouts_bad h))

theorem aborts_notConfigured_of_withLayout {f : Layout → Answer} (he : exec i s = withLayout k s f)
    (h : k < s.cfg.numLayouts) (hl : look s.units.lay k = none) : Aborts i s .notConfigured :=
  aborts_of_fatal (he.trans (withLayout_none h hl))

/-- A command that finishes with the unit arrays as they are. -/
theorem unchanged_of_finish {rc : RCode} {res : Vector Word 4} (h : exec i s = finish rc res s.units s) :
    ∃ t, exec i s = .next t ∧ t.units = s.units ∧ CompletedWith s t rc res :=
  ⟨_, h, complete_units .., completedWith_complete ..⟩

/-! ### CCP_LAYOUT_SET and CCP_LAYOUT_DEL (R233, R234) -/

theorem exec_ccpLayoutSet_badLayout (hk : k < s.cfg.numLayouts)
    (h : ¬ LegalLayout s.cfg.numRb s.opLayout) : exec (.ccpLayoutSet k) s = fatal .badLayout s :=
  (inLayouts_ok hk).trans (check_bad (Bool.eq_false_iff.2 (mt (layoutLegal_iff _ _).1 h)))

theorem exec_ccpLayoutSet_ok (hk : k < s.cfg.numLayouts) (h : LegalLayout s.cfg.numRb s.opLayout) :
    exec (.ccpLayoutSet k) s = finish .ok (results 0)
      { s.units with lay := put s.units.lay k (layoutStored s.opLayout) } s :=
  (inLayouts_ok hk).trans (check_ok (by rw [(layoutLegal_iff _ _).2 h]; decide))

theorem exec_ccpLayoutDel_ok (hk : k < s.cfg.numLayouts) :
    exec (.ccpLayoutDel k) s = finish .ok (results 0) { s.units with lay := drop s.units.lay k } s :=
  inLayouts_ok hk

theorem layoutStored_eq (l : Layout) :
    layoutStored l = if l.il then l else { l with bundle := 6 } := by
  unfold layoutStored
  split <;> rfl

/-- Settles O37: the checks, then the slot is put or dropped. -/
theorem ccpLayoutSetAndDelResults : Obligations.CcpLayoutSetAndDelResults := by
  refine ⟨fun s k => ⟨aborts_badIndex_of_inLayouts rfl,
      fun hk h => aborts_of_fatal (exec_ccpLayoutSet_badLayout hk h),
      fun hk h => completes_of_finish (exec_ccpLayoutSet_ok hk h) ?stored⟩,
    fun s k => ⟨aborts_badIndex_of_inLayouts rfl,
      fun hk => completes_of_finish (exec_ccpLayoutDel_ok hk) ?dropped⟩⟩
  case stored =>
    rw [complete_units, look_put, if_pos rfl, layoutStored_eq]
    exact ⟨onlyLayout_put .., rfl⟩
  case dropped =>
    rw [complete_units, look_drop, if_pos rfl]
    exact ⟨onlyLayout_drop .., rfl⟩

/-! ### The derived values at their bit places (R232) -/

theorem mem_groups_iff (l : Layout) (g : Nat) : g ∈ Layout.groups l ↔ l.fmask.getLsbD g = true := by
  rw [mem_groups, and_iff_right_iff_imp]
  exact BitVec.lt_of_getLsbD

theorem rbFirst_eq {lo : Nat} (hlo : l.fmask.getLsbD lo = true)
    (hmin : ∀ g, l.fmask.getLsbD g = true → lo ≤ g) : Layout.rbFirst l = l.rbOffset.toNat + 6 * lo := by
  have hmem := (mem_groups_iff l lo).2 hlo
  obtain ⟨hhead, hleast⟩ := headD_min (groups_sorted l) (List.ne_nil_of_mem hmem)
  rw [Layout.rbFirst, le_antisymm (hleast lo hmem) (hmin _ ((mem_groups_iff l _).1 hhead))]

theorem rbLast_eq {hi : Nat} (hhi : l.fmask.getLsbD hi = true)
    (hmax : ∀ g, l.fmask.getLsbD g = true → g ≤ hi) : Layout.rbLast l = l.rbOffset.toNat + 6 * hi + 5 := by
  have hmem := (mem_groups_iff l hi).2 hhi
  obtain ⟨hlast, hgreatest⟩ := getLastD_max (groups_sorted l) (List.ne_nil_of_mem hmem)
  rw [Layout.rbLast, le_antisymm (hmax _ ((mem_groups_iff l _).1 hlast)) (hgreatest hi hmem)]

theorem LayoutOk.symmask_toNat (h : LayoutOk n l) :
    (Layout.symmask l).toNat = (2 ^ l.dur.toNat - 1) * 2 ^ l.start.toNat := by
  obtain ⟨⟨-, -, -, hsym, -⟩, -⟩ := h
  have hlt : (2 ^ l.dur.toNat - 1) * 2 ^ l.start.toNat < 2 ^ 14 :=
    calc (2 ^ l.dur.toNat - 1) * 2 ^ l.start.toNat
        < 2 ^ l.dur.toNat * 2 ^ l.start.toNat :=
          Nat.mul_lt_mul_of_pos_right (Nat.sub_one_lt (Nat.two_pow_pos _).ne') (Nat.two_pow_pos _)
      _ = 2 ^ (l.start.toNat + l.dur.toNat) := by rw [Nat.add_comm, pow_add]
      _ ≤ 2 ^ 14 := Nat.pow_le_pow_right (by decide) hsym
  rw [symmask_eq, symbolMask, BitVec.toNat_ofNat, Nat.mod_eq_of_lt hlt]

theorem LayoutOk.group_lt (h : LayoutOk n l) {g : Nat} (hg : l.fmask.getLsbD g = true) :
    l.rbOffset.toNat + 6 * g + 5 < n := by
  obtain ⟨⟨-, -, -, -, -, hfit⟩, -⟩ := h
  exact hfit g (BitVec.lt_of_getLsbD hg) hg

/-! ### CCP_LAYOUT_INFO (R235) -/

theorem exec_ccpLayoutInfo_ok (hk : k < s.cfg.numLayouts) (hl : look s.units.lay k = some l) :
    exec (.ccpLayoutInfo k) s = finish .ok
      (results (Layout.nCce l) (Layout.rbFirst l ||| Layout.rbLast l <<< 16) (Layout.symmask l).toNat
        (Layout.nRb l ||| Layout.nReg l <<< 16)) s.units s :=
  withLayout_ok hk hl

/-- Settles O38: each derived value is below the place of the next one, so the two halves add. -/
theorem ccpLayoutInfoResult : Obligations.CcpLayoutInfoResult := by
  refine fun s k => ⟨aborts_badIndex_of_inLayouts rfl, aborts_notConfigured_of_withLayout rfl, ?_⟩
  intro l hk hl hcfg hok lo hi hlo hhi hrange
  have hfirst := rbFirst_eq hlo fun g hg => (hrange g hg).1
  have hlast := rbLast_eq hhi fun g hg => (hrange g hg).2
  have hfirst16 : l.rbOffset.toNat + 6 * lo < 2 ^ 16 := by
    have hfit := hok.group_lt hlo
    obtain ⟨-, -, -, -, ⟨-, hrb⟩, -⟩ := Config.wf_ranges hcfg
    omega
  have hrb16 : 6 * groupCount l < 2 ^ 16 := by
    have := groupCount_le l
    omega
  have h := unchanged_of_finish (exec_ccpLayoutInfo_ok hk hl)
  rwa [nCce_eq, hfirst, hlast, hok.symmask_toNat, nRb_eq, nReg_eq, or_shiftLeft_16 hfirst16,
    or_shiftLeft_16 hrb16] at h

/-! ### CCP_CCE_MAP (R242) -/

/-- The first resource block of bundle `t` of CCE `j`, or 0xFFFFFFFF past the CCE's bundles. -/
def cceFirstRb (m : CceMapParam) (l : Layout) (j t : Nat) : Nat :=
  match (cceBundles l j)[t]? with
  | some x => absRb l (setRb m l x 0)
  | none   => none32

theorem length_cceBundles (l : Layout) (j : Nat) : (cceBundles l j).length = 6 / l.bundle.toNat := by
  simp [cceBundles]

theorem LayoutOk.width_range (h : LayoutOk n l) : 1 ≤ Layout.width l ∧ Layout.width l ≤ 6 := by
  obtain ⟨-, hw⟩ := bundle_eq_width_mul h
  omega

theorem head?_bundleRbs (hw : 1 ≤ Layout.width l) (m : CceMapParam) (x : Nat) :
    (bundleRbs m l x).head? = some (absRb l (setRb m l x 0)) := by
  obtain ⟨w, hw⟩ := Nat.exists_eq_add_of_le' hw
  simp [bundleRbs, hw, List.range_succ_eq_map]

theorem cceFirstRb_eq (hw : 1 ≤ Layout.width l) (m : CceMapParam) (j t : Nat) :
    cceFirstRb m l j t = if t < 6 / l.bundle.toNat then
      (bundleRbs m l (6 * j / l.bundle.toNat + t)).head?.getD 0 else 0xFFFFFFFF := by
  unfold cceFirstRb
  split
  · rename_i x hx
    obtain ⟨ht, rfl⟩ := List.getElem?_eq_some_iff.1 hx
    rw [length_cceBundles] at ht
    rw [if_pos ht, head?_bundleRbs hw]
    simp [cceBundles]
  · rename_i hx
    rw [List.getElem?_eq_none_iff, length_cceBundles] at hx
    rw [if_neg hx.not_gt, none32]

theorem exec_ccpCceMap_badArg (hk : k < s.cfg.numLayouts) (hl : look s.units.lay k = some l)
    (h : cceCount l ≤ s.opCce) : exec (.ccpCceMap k) s = fatal .badArg s :=
  (withLayout_ok hk hl).trans (check_bad (by rwa [nCce_eq]))

theorem exec_ccpCceMap_ok (hk : k < s.cfg.numLayouts) (hl : look s.units.lay k = some l)
    (h : s.opCce < cceCount l) :
    exec (.ccpCceMap k) s = finish .ok
      (results (cceFirstRb s.cfg.cceMap l s.opCce 0) (cceFirstRb s.cfg.cceMap l s.opCce 1)
        (cceFirstRb s.cfg.cceMap l s.opCce 2)
        (Layout.width l ||| (cceBundles l s.opCce).length <<< 8 ||| (Layout.symmask l).toNat <<< 16))
      s.units s :=
  (withLayout_ok hk hl).trans (check_ok (by rw [nCce_eq]; exact h.not_ge))

/-- Settles O39: the checks, then the first resource blocks by `cceFirstRb_eq` and the packed figures. -/
theorem ccpCceMapResult : Obligations.CcpCceMapResult := by
  refine fun s k => ⟨aborts_badIndex_of_inLayouts rfl, aborts_notConfigured_of_withLayout rfl, ?_⟩
  intro l hk hl _ hok
  refine ⟨fun h => aborts_of_fatal (exec_ccpCceMap_badArg hk hl h), fun h => ?_⟩
  obtain ⟨hw1, hw6⟩ := hok.width_range
  have hw8 : Layout.width l < 2 ^ 8 := by omega
  have hbundles : 6 / l.bundle.toNat ≤ 6 := Nat.div_le_self ..
  have hlow : Layout.width l + 6 / l.bundle.toNat * 2 ^ 8 < 2 ^ 16 := by omega
  have h := unchanged_of_finish (exec_ccpCceMap_ok hk hl h)
  rwa [length_cceBundles, or_shiftLeft_8 hw8, or_shiftLeft_16 hlow, hok.symmask_toNat,
    cceFirstRb_eq hw1, cceFirstRb_eq hw1, cceFirstRb_eq hw1] at h

end Sys2Proof.Machine
end

section
/-! The default CCE mapping (`42_cce_placer.md` R232, R236, R237): the interleaver permutes the bundles,
so the CCEs of a legal layout partition its control-resource-set (O40, O41). -/

namespace Sys2Proof.Machine

variable {n : Nat} {l : Layout}

/-! ### Counting through two indices -/

theorem flatMap_range_blocks (N w : Nat) :
    (List.range N).flatMap (fun x => (List.range w).map (x * w + ·)) = List.range (N * w) := by
  induction N with
  | zero => simp
  | succ N ih =>
    rw [List.range_succ, List.flatMap_append, ih, List.flatMap_singleton, Nat.succ_mul, List.range_add]

theorem perm_range_of_lt {N : Nat} {f : Nat → Nat} (hlt : ∀ x < N, f x < N)
    (hinj : ∀ x < N, ∀ y < N, f x = f y → x = y) : ((List.range N).map f).Perm (List.range N) := by
  have hnodup : ((List.range N).map f).Nodup :=
    List.Nodup.map_on (fun x hx y hy => hinj x (List.mem_range.1 hx) y (List.mem_range.1 hy))
      List.nodup_range
  have hsub : (List.range N).map f ⊆ List.range N := by
    intro z hz
    obtain ⟨x, hx, rfl⟩ := List.mem_map.1 hz
    exact List.mem_range.2 (hlt x (List.mem_range.1 hx))
  exact (List.subperm_of_subset hnodup hsub).perm_of_length_le (by simp)

/-! ### The interleaver is a permutation of the bundles (R236) -/

/-- Reading a table of `R` rows and `C` columns by columns and writing it by rows, rotated by `sh`,
takes no position twice. -/
theorem rotated_transpose_inj {R C sh x y : Nat} (hx : x < C * R) (hy : y < C * R)
    (h : (x % R * C + x / R + sh) % (C * R) = (y % R * C + y / R + sh) % (C * R)) : x = y := by
  have hR : 0 < R := Nat.pos_of_ne_zero (by rintro rfl; simp at hx)
  have hcol {z : Nat} (hz : z < C * R) : z / R < C := Nat.div_lt_of_lt_mul (by rwa [Nat.mul_comm])
  have hlt {z : Nat} (hz : z < C * R) : z % R * C + z / R < C * R :=
    calc z % R * C + z / R < z % R * C + C := Nat.add_lt_add_left (hcol hz) _
      _ = (z % R + 1) * C := (Nat.succ_mul ..).symm
      _ ≤ R * C := Nat.mul_le_mul_right C (Nat.mod_lt z hR)
      _ = C * R := Nat.mul_comm ..
  have hcancel : x % R * C + x / R = y % R * C + y / R := by
    have hmod : x % R * C + x / R ≡ y % R * C + y / R [MOD C * R] := Nat.ModEq.add_right_cancel' sh h
    exact hmod.eq_of_lt_of_lt (hlt hx) (hlt hy)
  have hdiv : x / R = y / R := by
    have := congrArg (· % C) hcancel
    simpa only [Nat.mul_add_mod_of_lt (hcol hx), Nat.mul_add_mod_of_lt (hcol hy)] using this
  have hmod : x % R = y % R := by
    rw [hdiv, Nat.add_right_cancel_iff] at hcancel
    exact Nat.eq_of_mul_eq_mul_right (Nat.zero_lt_of_lt (hcol hx)) hcancel
  rw [← Nat.div_add_mod x R, ← Nat.div_add_mod y R, hdiv, hmod]

theorem LayoutOk.nCols_mul (h : LayoutOk n l) (hil : l.il = true) :
    Layout.nCols l * l.ilv.toNat = Layout.nBundle l := by
  obtain ⟨⟨-, -, -, -, hinter, -⟩, -⟩ := h
  obtain ⟨-, -, -, hdvd⟩ := hinter hil
  rw [← nReg_eq] at hdvd
  exact Nat.div_mul_cancel (Nat.dvd_of_mod_eq_zero hdvd)

theorem interleave_inj (h : LayoutOk n l) {x y : Nat} (hx : x < Layout.nBundle l)
    (hy : y < Layout.nBundle l) (he : interleave l x = interleave l y) : x = y := by
  unfold interleave at he
  cases hil : l.il with
  | false => simpa [hil] using he
  | true =>
    simp only [hil, if_true] at he
    have hmul := h.nCols_mul hil
    rw [← hmul] at he hx hy
    exact rotated_transpose_inj hx hy he

theorem interleave_perm (h : LayoutOk n l) :
    ((List.range (Layout.nBundle l)).map (interleave l)).Perm (List.range (Layout.nBundle l)) :=
  perm_range_of_lt (fun _ => interleave_lt) fun _ hx _ hy => interleave_inj h hx hy

/-! ### The CCEs in order hold the bundles in order (R236) -/

theorem LayoutOk.bundle_pos (h : LayoutOk n l) : 0 < l.bundle.toNat := by
  obtain ⟨-, -, hb⟩ := dur_bundle h
  omega

theorem LayoutOk.six_div_bundle_mul (h : LayoutOk n l) : 6 / l.bundle.toNat * l.bundle.toNat = 6 := by
  obtain ⟨-, -, hb⟩ := dur_bundle h
  rcases hb with ⟨hb, -⟩ | ⟨hb, -⟩ | hb <;> rw [hb]

theorem LayoutOk.cceBundles_eq (h : LayoutOk n l) (j : Nat) :
    cceBundles l j = (List.range (6 / l.bundle.toNat)).map (j * (6 / l.bundle.toNat) + ·) := by
  have hfirst : 6 * j / l.bundle.toNat = j * (6 / l.bundle.toNat) := by
    rw [Nat.mul_comm 6 j]
    exact Nat.mul_div_assoc j (Dvd.intro_left _ h.six_div_bundle_mul)
  rw [cceBundles, hfirst]

theorem LayoutOk.nCce_mul (h : LayoutOk n l) :
    cceCount l * (6 / l.bundle.toNat) = Layout.nBundle l := by
  obtain ⟨-, hreg⟩ := nBundle_mul h
  apply Nat.eq_of_mul_eq_mul_right h.bundle_pos
  rw [hreg, nReg_eq, Nat.mul_assoc, h.six_div_bundle_mul, cceCount]
  ring

theorem LayoutOk.flatMap_cceBundles (h : LayoutOk n l) :
    (List.range (cceCount l)).flatMap (cceBundles l) = List.range (Layout.nBundle l) := by
  rw [funext h.cceBundles_eq, flatMap_range_blocks, h.nCce_mul]

/-! ### The resource blocks of the set (R232, R236) -/

theorem absRb_eq (l : Layout) (i : Nat) :
    absRb l i = l.rbOffset.toNat + 6 * (Layout.groups l)[i / 6]?.getD 0 + i % 6 := by
  rw [absRb, List.getD_eq_getElem?_getD]

theorem bundleRbs_protocol (l : Layout) (x : Nat) : bundleRbs .protocol l x =
    ((List.range (Layout.width l)).map (interleave l x * Layout.width l + ·)).map (absRb l) := by
  rw [List.map_map]
  rfl

theorem nodup_setRbs (l : Layout) : ((List.range (Layout.nRb l)).map (absRb l)).Nodup := by
  refine List.Nodup.map_on (fun x hx y hy he => ?_) List.nodup_range
  have hdiv {z : Nat} (hz : z ∈ List.range (Layout.nRb l)) : z / 6 < (Layout.groups l).length :=
    Nat.div_lt_of_lt_mul (List.mem_range.1 hz)
  rw [absRb_eq, absRb_eq, List.getElem?_eq_getElem (hdiv hx), List.getElem?_eq_getElem (hdiv hy),
    Option.getD_some, Option.getD_some] at he
  have hgroup : (Layout.groups l)[x / 6]'(hdiv hx) = (Layout.groups l)[y / 6]'(hdiv hy) := by omega
  have := (List.Nodup.getElem_inj_iff (groups_sorted l).nodup).1 hgroup
  omega

theorem mem_setRbs (l : Layout) (r : Nat) : r ∈ (List.range (Layout.nRb l)).map (absRb l) ↔
    ∃ g i, l.fmask.getLsbD g = true ∧ i < 6 ∧ r = l.rbOffset.toNat + 6 * g + i := by
  simp only [List.mem_map, List.mem_range, Layout.nRb]
  constructor
  · rintro ⟨x, hx, rfl⟩
    have hdiv : x / 6 < (Layout.groups l).length := Nat.div_lt_of_lt_mul hx
    refine ⟨(Layout.groups l)[x / 6], x % 6, (mem_groups_iff ..).1 (List.getElem_mem _),
      Nat.mod_lt x (by decide), ?_⟩
    rw [absRb_eq, List.getElem?_eq_getElem hdiv, Option.getD_some]
  · rintro ⟨g, i, hg, hi, rfl⟩
    obtain ⟨a, ha, rfl⟩ := List.mem_iff_getElem.1 ((mem_groups_iff l g).2 hg)
    have hdiv : (6 * a + i) / 6 = a := by omega
    have hmod : (6 * a + i) % 6 = i := by omega
    refine ⟨6 * a + i, by omega, ?_⟩
    rw [absRb_eq, hdiv, hmod, List.getElem?_eq_getElem ha, Option.getD_some]

/-! ### Candidates (R237) -/

theorem mem_candidateRbs (m : CceMapParam) (l : Layout) (first count r : Nat) :
    r ∈ candidateRbs m l first count ↔ ∃ j t, first ≤ j ∧ j < first + count ∧
      t < 6 / l.bundle.toNat ∧ r ∈ bundleRbs m l (6 * j / l.bundle.toNat + t) := by
  simp only [candidateRbs, cceBundles, List.mem_flatMap, List.mem_range'_1, List.mem_map, List.mem_range]
  constructor
  · rintro ⟨j, ⟨hj, hj'⟩, x, ⟨t, ht, rfl⟩, hr⟩
    exact ⟨j, t, hj, hj', ht, hr⟩
  · rintro ⟨j, t, hj, hj', ht, hr⟩
    exact ⟨j, ⟨hj, hj'⟩, _, ⟨t, ht, rfl⟩, hr⟩

/-- All CCEs together touch the resource blocks of the set, in the order of the interleaver. -/
theorem candidateRbs_all_perm (h : LayoutOk n l) :
    (candidateRbs .protocol l 0 (cceCount l)).Perm ((List.range (Layout.nRb l)).map (absRb l)) := by
  obtain ⟨hrb, -⟩ := nBundle_mul h
  have hbundles : candidateRbs .protocol l 0 (cceCount l) =
      (List.range (Layout.nBundle l)).flatMap (bundleRbs .protocol l) := by
    rw [← h.flatMap_cceBundles, List.flatMap_assoc, List.range_eq_range']
    rfl
  have hmap : (List.range (Layout.nBundle l)).flatMap (bundleRbs .protocol l) =
      (((List.range (Layout.nBundle l)).map (interleave l)).flatMap
        fun y => (List.range (Layout.width l)).map (y * Layout.width l + ·)).map (absRb l) := by
    rw [List.map_flatMap, List.flatMap_map]
    exact List.flatMap_congr fun x _ => bundleRbs_protocol l x
  rw [hbundles, hmap, ← hrb, ← flatMap_range_blocks]
  exact ((interleave_perm h).flatMap_right _).map _

theorem candidateRbs_append (m : CceMapParam) (l : Layout) (first a b : Nat) :
    candidateRbs m l first (a + b) = candidateRbs m l first a ++ candidateRbs m l (first + a) b := by
  rw [candidateRbs, ← List.range'_append_1, List.flatMap_append]
  rfl

theorem candidateRbs_disjoint {m : CceMapParam} {N a k b k' r : Nat}
    (h : (candidateRbs m l 0 N).Nodup) (hab : a + k ≤ b) (hb : b + k' ≤ N)
    (hr : r ∈ candidateRbs m l a k) : r ∉ candidateRbs m l b k' := by
  obtain ⟨rest, rfl⟩ := Nat.exists_eq_add_of_le hb
  rw [candidateRbs_append, candidateRbs_append, Nat.zero_add] at h
  obtain ⟨-, -, hdisjoint⟩ := List.nodup_append.1 h.of_append_left
  have hbelow : r ∈ candidateRbs m l 0 b := by
    rw [mem_candidateRbs] at hr ⊢
    obtain ⟨j, t, -, hj, ht, hr⟩ := hr
    exact ⟨j, t, j.zero_le, by omega, ht, hr⟩
  exact fun hr' => hdisjoint r hbelow r hr' rfl

/-- Settles O40: the groups in ascending order are the given list, and the bundle's blocks are counted
through it. -/
theorem defaultCceMapping : Obligations.DefaultCceMapping := by
  intro numRb l G _ hsorted hmem
  have hG : G = Layout.groups l := by
    have hperm : G.Perm (Layout.groups l) :=
      (List.perm_ext_iff_of_nodup hsorted.nodup (groups_sorted l).nodup).2 fun g => by
        rw [mem_groups_iff, hmem]
    exact hperm.eq_of_pairwise' hsorted (groups_sorted l)
  refine ⟨fun x _ => ?_, mem_candidateRbs .protocol l⟩
  rw [bundleRbs_protocol, ← List.range'_eq_map_range, funext (absRb_eq l), hG, interleave, Layout.nCols,
    Layout.nBundle, nReg_eq, Layout.width]

/-- Settles O41: the CCEs' resource blocks are a permutation of the set's, which are distinct. -/
theorem ccesPartitionTheResourceSet : Obligations.CcesPartitionTheResourceSet := by
  intro numRb l hok
  have hperm := candidateRbs_all_perm hok
  have hnodup := hperm.nodup_iff.2 (nodup_setRbs l)
  exact ⟨hnodup, fun r => hperm.mem_iff.trans (mem_setRbs l r),
    fun a m b n hab hb r => candidateRbs_disjoint hnodup hab hb⟩

end Sys2Proof.Machine
end

section
/-! Search, mark and occupancy commands (`42_cce_placer.md` R238 to R248): one equation per way a command
can go after its prologue, and from them what each command answers (O42 to O45). -/

namespace Sys2Proof.Machine

variable {s : State} {i : Instr} {k n : Nat} {l : Layout} {mark : Bool}

/-! ### Shared shapes -/

/-- Two checks in a row with the same code are one check. -/
theorem check_check {p q : Prop} [Decidable p] [Decidable q] {code : RCode} {a : Answer} :
    check p code s (check q code s a) = check (p ∨ q) code s a := by
  by_cases hp : p
  · rw [check_bad hp, check_bad (.inl hp)]
  · rw [check_ok hp]
    simp only [check, hp, false_or]

theorem or_markBit {tested : Nat} (h : tested < 2 ^ 8) (mark : Bool) :
    tested ||| flagNat mark <<< 8 = tested + if mark then 2 ^ 8 else 0 := by
  rw [or_shiftLeft_8 h]
  cases mark <;> rfl

/-- A search that completes with OK: the found candidate is marked exactly when MARK is set (R243, R244). -/
theorem marks_of_finish {res : Vector Word 4} {b first L : Nat}
    (h : exec i s = finish .ok res
      (if mark then markCandidate s.cfg.cceMap l b first L s.units else s.units) s)
    (hok : LayoutOk s.cfg.numRb l) (hcfg : s.cfg.wf = true) (hfit : first + L ≤ cceCount l) :
    ∃ t, exec i s = .next t ∧ CompletedWith s t .ok res ∧ (mark = false → t.units = s.units) ∧
      (mark = true → Marked s.cfg.cceMap s.units t.units b l first L) := by
  obtain ⟨-, -, -, -, ⟨-, hrb⟩, -⟩ := Config.wf_ranges hcfg
  refine completes_of_finish h ?_
  rw [complete_units]
  constructor
  · rintro rfl
    rfl
  · rintro rfl
    exact marked_markCandidate hok hrb (by rwa [nCce_eq])

theorem LevelHit.fits {b lvl M Y m : Nat} (h : LevelHit s b l lvl M Y m) :
    candidateFirst l (2 ^ lvl) M Y m + 2 ^ lvl ≤ cceCount l := by
  obtain ⟨hfit, -⟩ := h
  rw [← nCce_eq, ← firstCce_eq]
  exact firstCce_le (Nat.two_pow_pos lvl) (by rwa [nCce_eq])

theorem LevelHit.lt {b lvl M Y m : Nat} (h : LevelHit s b l lvl M Y m) : m < M := by
  obtain ⟨-, hm, -⟩ := h
  exact hm

/-! ### OCC_CLEAR, OCC_SET and OCC_READ (R246 to R248) -/

theorem exec_occClear_all (s : State) :
    exec (.occClear true) s = finish .ok (results 0) { s.units with occ := [] } s := rfl

theorem exec_occClear_badArg (h : s.cfg.numBeams ≤ s.opBeam) :
    exec (.occClear false) s = fatal .badArg s := check_bad h

theorem exec_occClear_beam (h : s.opBeam < s.cfg.numBeams) :
    exec (.occClear false) s = finish .ok (results 0) (clearBeam s.opBeam s.units) s := check_ok h.not_ge

theorem exec_occSet_badArg (h : s.cfg.numBeams ≤ s.opBeam ∨ s.cfg.numRb < s.opRb + s.opRbCount) :
    exec .occSet s = fatal .badArg s := check_check.trans (check_bad h)

theorem exec_occSet_ok (hb : s.opBeam < s.cfg.numBeams) (hr : s.opRb + s.opRbCount ≤ s.cfg.numRb) :
    exec .occSet s =
      finish .ok (results 0) (orRange s.opBeam s.opRb s.opRbCount s.opSymMask s.units) s :=
  (check_ok hb.not_ge).trans (check_ok hr.not_gt)

theorem exec_occRead_badArg (h : s.cfg.numBeams ≤ s.opBeam ∨ s.cfg.numRb ≤ s.opRb) :
    exec .occRead s = fatal .badArg s := check_bad h

theorem exec_occRead_ok (hb : s.opBeam < s.cfg.numBeams) (hr : s.opRb < s.cfg.numRb) :
    exec .occRead s = finish .ok (results (s.units.mask s.opBeam s.opRb).toNat) s.units s :=
  check_ok (not_or.2 ⟨hb.not_ge, hr.not_ge⟩)

/-- The ORed range, entry by entry (R247). -/
theorem mask_orRange {b r0 m : Nat} {x : BitVec 14} {u : Units} (hend : r0 + m ≤ 65536) (b' r : Nat)
    (hr : r < 65536) : (orRange b r0 m x u).mask b' r =
      if b' = b ∧ r0 ≤ r ∧ r < r0 + m then u.mask b' r ||| x else u.mask b' r := by
  have hlt : ∀ q ∈ List.range' r0 m, q < 65536 := fun q hq => by
    have := List.mem_range'_1.1 hq
    omega
  rw [orRange, mask_foldl_orMask b x _ hlt u b' r hr]
  simp only [List.mem_range'_1]

/-- Settles O45: each command's checks, then its masks entry by entry. -/
theorem occupancyCommandResults : Obligations.OccupancyCommandResults := by
  refine ⟨fun s => ⟨completes_of_finish (exec_occClear_all s) ?all,
      fun h => aborts_of_fatal (exec_occClear_badArg h),
      fun h => completes_of_finish (exec_occClear_beam h) ?beam⟩,
    fun s hcfg => ⟨fun h => aborts_of_fatal (exec_occSet_badArg h),
      fun hb hr => completes_of_finish (exec_occSet_ok hb hr) ?set⟩,
    fun s => ⟨fun h => aborts_of_fatal (exec_occRead_badArg h),
      fun hb hr => completes_of_finish (exec_occRead_ok hb hr) (complete_units ..)⟩⟩
  case all =>
    rw [complete_units]
    exact ⟨rfl, fun b r => readAt_nil ..⟩
  case beam =>
    rw [complete_units]
    exact ⟨rfl, mask_clearBeam _ _⟩
  case set =>
    obtain ⟨-, -, -, -, ⟨-, hrb⟩, -⟩ := Config.wf_ranges hcfg
    rw [complete_units]
    exact ⟨onlyOcc_orRange .., mask_orRange (by omega)⟩

/-! ### CCP_MARK, CCP_FIND and CCP_SEARCH on a stored layout (R243 to R245) -/

theorem no_level_above (hM : ∀ v, v < 5 → s.opMLevel v ≤ 8) :
    ¬ ∃ v ∈ List.range 5, 8 < s.opMLevel v := by
  rintro ⟨v, hv, hlt⟩
  exact (hM v (List.mem_range.1 hv)).not_gt hlt

section
variable (hk : k < s.cfg.numLayouts) (hl : look s.units.lay k = some l)
include hk hl

theorem exec_ccpMark_badArg
    (h : s.cfg.numBeams ≤ s.opBeam ∨ 4 < s.opLvl ∨ s.opFirst % 2 ^ s.opLvl ≠ 0 ∨
      cceCount l < s.opFirst + 2 ^ s.opLvl) : exec (.ccpMark k) s = fatal .badArg s := by
  refine (withLayout_ok hk hl).trans ?_
  rw [check_check, check_check, check_bad]
  rwa [or_assoc, Nat.one_shiftLeft, nCce_eq]

theorem exec_ccpMark_ok (hb : s.opBeam < s.cfg.numBeams) (hv : s.opLvl ≤ 4)
    (hm : s.opFirst % 2 ^ s.opLvl = 0) (hfit : s.opFirst + 2 ^ s.opLvl ≤ cceCount l) :
    exec (.ccpMark k) s = finish .ok (results 0)
      (markCandidate s.cfg.cceMap l s.opBeam s.opFirst (2 ^ s.opLvl) s.units) s := by
  refine (withLayout_ok hk hl).trans ((check_ok hb.not_ge).trans ((check_ok hv.not_gt).trans ?_))
  rw [Nat.one_shiftLeft, nCce_eq]
  exact check_ok (not_or.2 ⟨not_not.2 hm, hfit.not_gt⟩)

theorem exec_ccpFind_badArg (h : s.cfg.numBeams ≤ s.opBeam ∨ 4 < s.opLvl ∨ 8 < s.opM) :
    exec (.ccpFind mark k) s = fatal .badArg s := by
  refine (withLayout_ok hk hl).trans ?_
  rw [check_check, check_check, check_bad (or_assoc.2 h)]

theorem exec_ccpSearch_badArg
    (h : s.cfg.numBeams ≤ s.opBeam ∨ (∃ v, v < 5 ∧ 8 < s.opMLevel v) ∨ 256 < s.opCq) :
    exec (.ccpSearch mark k) s = fatal .badArg s := by
  refine (withLayout_ok hk hl).trans ?_
  rw [check_check, check_check, check_bad]
  simpa only [or_assoc, List.mem_range] using h

section
variable (hb : s.opBeam < s.cfg.numBeams) (hv : s.opLvl ≤ 4) (hM : s.opM ≤ 8)
include hb hv hM

theorem exec_ccpFind_hit {m : Nat} (h : LevelHit s s.opBeam l s.opLvl s.opM s.opY m) :
    exec (.ccpFind mark k) s = finish .ok
      (results (candidateFirst l (2 ^ s.opLvl) s.opM s.opY m) s.opLvl m (m + 1 ||| flagNat mark <<< 8))
      (if mark then markCandidate s.cfg.cceMap l s.opBeam (candidateFirst l (2 ^ s.opLvl) s.opM s.opY m)
        (2 ^ s.opLvl) s.units else s.units) s := by
  refine (withLayout_ok hk hl).trans
    ((check_ok hb.not_ge).trans ((check_ok hv.not_gt).trans ((check_ok hM.not_gt).trans ?_)))
  rw [findLevel_hit h, Nat.one_shiftLeft]

theorem exec_ccpFind_miss (h : LevelMiss s s.opBeam l s.opLvl s.opM s.opY) :
    exec (.ccpFind mark k) s = finish .noCandidate
      (results none32 0 0 (missTests l s.opLvl s.opM)) s.units s := by
  refine (withLayout_ok hk hl).trans
    ((check_ok hb.not_ge).trans ((check_ok hv.not_gt).trans ((check_ok hM.not_gt).trans ?_)))
  rw [findLevel_miss h]

end

section
variable (hb : s.opBeam < s.cfg.numBeams) (hM : ∀ v, v < 5 → s.opMLevel v ≤ 8) (hcq : s.opCq ≤ 256)
include hb hM hcq

theorem exec_ccpSearch_hit {pre post : List Nat} {v m : Nat}
    (horder : levelOrder s.opCq = pre ++ v :: post)
    (hpre : ∀ u ∈ pre, LevelMiss s s.opBeam l u (s.opMLevel u) s.opY)
    (h : LevelHit s s.opBeam l v (s.opMLevel v) s.opY m) :
    exec (.ccpSearch mark k) s = finish .ok
      (results (candidateFirst l (2 ^ v) (s.opMLevel v) s.opY m) v m
        ((pre.map fun u => missTests l u (s.opMLevel u)).sum + (m + 1) ||| flagNat mark <<< 8))
      (if mark then markCandidate s.cfg.cceMap l s.opBeam
        (candidateFirst l (2 ^ v) (s.opMLevel v) s.opY m) (2 ^ v) s.units else s.units) s := by
  refine (withLayout_ok hk hl).trans
    ((check_ok hb.not_ge).trans ((check_ok (no_level_above hM)).trans ((check_ok hcq.not_gt).trans ?_)))
  rw [horder, searchLevels_hit _ (fun u => missTests l u (s.opMLevel u)) pre post v _ m (m + 1) 0
    (fun u hu => findLevel_miss (hpre u hu)) (findLevel_hit h), Nat.zero_add]
  simp only [Nat.one_shiftLeft]

theorem exec_ccpSearch_miss
    (h : ∀ v ∈ levelOrder s.opCq, LevelMiss s s.opBeam l v (s.opMLevel v) s.opY) :
    exec (.ccpSearch mark k) s = finish .noCandidate (results none32 0 0
      ((levelOrder s.opCq).map fun u => missTests l u (s.opMLevel u)).sum) s.units s := by
  refine (withLayout_ok hk hl).trans
    ((check_ok hb.not_ge).trans ((check_ok (no_level_above hM)).trans ((check_ok hcq.not_gt).trans ?_)))
  rw [searchLevels_miss _ (fun u => missTests l u (s.opMLevel u)) _ 0
    (fun u hu => findLevel_miss (h u hu)), Nat.zero_add]

end
end

/-- Settles O44: the checks, then the candidate's positions marked. -/
theorem ccpMarkResult : Obligations.CcpMarkResult := by
  refine fun s k => ⟨aborts_badIndex_of_inLayouts rfl, aborts_notConfigured_of_withLayout rfl, ?_⟩
  intro l hk hl hcfg hok
  refine ⟨fun h => aborts_of_fatal (exec_ccpMark_badArg hk hl h), fun hb hv hm hfit => ?_⟩
  obtain ⟨-, -, -, -, ⟨-, hrb⟩, -⟩ := Config.wf_ranges hcfg
  refine completes_of_finish (exec_ccpMark_ok hk hl hb hv hm hfit) ?_
  rw [complete_units]
  exact marked_markCandidate hok hrb (by rwa [nCce_eq])

/-- Settles O42: at most 8 tests leave the MARK bit of RES3 free. -/
theorem ccpFindResult : Obligations.CcpFindResult := by
  refine fun s mark k => ⟨aborts_badIndex_of_inLayouts rfl, aborts_notConfigured_of_withLayout rfl, ?_⟩
  intro l hk hl hcfg hok
  refine ⟨fun h => aborts_of_fatal (exec_ccpFind_badArg hk hl h), fun hb hv hM => ⟨fun m hhit => ?_,
    fun hmiss => completes_of_finish (exec_ccpFind_miss hk hl hb hv hM hmiss) (complete_units ..)⟩⟩
  have htests : m + 1 < 2 ^ 8 := by
    have := hhit.lt
    omega
  rw [← or_markBit htests]
  exact marks_of_finish (exec_ccpFind_hit hk hl hb hv hM hhit) hok hcfg hhit.fits

/-! ### The order of the levels (R241) -/

theorem lt_of_mem_levelOrder {cq v : Nat} (hcq : cq ≤ 256) (h : v ∈ levelOrder cq) : v < 5 := by
  simp only [levelOrder, List.mem_append, List.mem_range'_1, List.mem_reverse, List.mem_range] at h
  omega

theorem length_levelOrder {cq : Nat} (hcq : cq ≤ 256) : (levelOrder cq).length = 5 := by
  simp only [levelOrder, List.length_append, List.length_range', List.length_reverse, List.length_range]
  omega

theorem missTests_le (l : Layout) (lvl M : Nat) : missTests l lvl M ≤ M := by
  unfold missTests
  split
  · exact M.zero_le
  · exact le_rfl

/-- Five levels of at most 8 candidates: the tests of a search fit below the MARK bit. -/
theorem search_tests_lt {pre post : List Nat} {v m : Nat} (hM : ∀ v, v < 5 → s.opMLevel v ≤ 8)
    (hcq : s.opCq ≤ 256) (horder : levelOrder s.opCq = pre ++ v :: post) (hm : m < s.opMLevel v) :
    (pre.map fun u => missTests l u (s.opMLevel u)).sum + (m + 1) < 2 ^ 8 := by
  have hbound {u : Nat} (hu : u ∈ pre ++ v :: post) : s.opMLevel u ≤ 8 :=
    hM u (lt_of_mem_levelOrder hcq (horder ▸ hu))
  have hmv : s.opMLevel v ≤ 8 := hbound (by simp)
  have hsum : (pre.map fun u => missTests l u (s.opMLevel u)).sum ≤ pre.length * 8 := by
    rw [← List.length_map (fun u => missTests l u (s.opMLevel u)), ← smul_eq_mul]
    refine List.sum_le_card_nsmul _ _ fun x hx => ?_
    obtain ⟨u, hu, rfl⟩ := List.mem_map.1 hx
    exact (missTests_le ..).trans (hbound (List.mem_append_left _ hu))
  have hlen : pre.length + (post.length + 1) = 5 := by
    rw [← length_levelOrder hcq, horder, List.length_append, List.length_cons]
  omega

/-- Settles O43: the order of the levels is the model's, and the search stops at its first hit. -/
theorem ccpSearchResult : Obligations.CcpSearchResult := by
  refine fun s mark k => ⟨aborts_badIndex_of_inLayouts rfl, aborts_notConfigured_of_withLayout rfl, ?_⟩
  intro l hk hl hcfg hok
  refine ⟨fun h => aborts_of_fatal (exec_ccpSearch_badArg hk hl h), fun hb hM hcq => ?_⟩
  intro start order tests
  have horder : levelOrder s.opCq = order := levelOrder_eq hcq
  refine ⟨fun pre v post m hsplit hpre hhit => ?_, fun hmiss => ?_⟩
  · have hsplit := horder.trans hsplit
    intro first
    rw [← or_markBit (search_tests_lt hM hcq hsplit hhit.lt)]
    exact marks_of_finish (exec_ccpSearch_hit hk hl hb hM hcq hsplit hpre hhit) hok hcfg hhit.fits
  · rw [← horder]
    exact completes_of_finish
      (exec_ccpSearch_miss hk hl hb hM hcq fun v hv => hmiss v (lt_of_mem_levelOrder hcq hv))
      (complete_units ..)

end Sys2Proof.Machine
end

section
/-! R and SHIFT of a layout that is not interleaved are never read (`42_cce_placer.md` R233): a command
that reads the layout answers the same for any other values of the two (O59). -/

namespace Sys2Proof.Machine

variable {s t : State} {k : Nat} {l l' : Layout} {u : Units} {lays : Sparse Layout}

/-! ### Other layouts in the state -/

/-- The unit arrays with other layouts. -/
def Units.withLay (u : Units) (lays : Sparse Layout) : Units := { u with lay := lays }

/-- The state with other layouts. -/
def State.withLay (s : State) (lays : Sparse Layout) : State := { s with units := s.units.withLay lays }

/-- The same answer, with other layouts in the next state. -/
def answerWithLay (lays : Sparse Layout) : Answer → Answer
  | .next t => .next (t.withLay lays)
  | .fault r => .fault r
  | .refused r => .refused r

theorem complete_withLay (rc : RCode) (res : Vector Word 4) (u : Units) (s : State) :
    complete rc res (u.withLay lays) (s.withLay lays) = (complete rc res u s).withLay lays := by
  cases hc : s.cur <;> simp [complete, State.withLay, State.setPort, State.me, State.port, hc]

theorem finish_withLay (rc : RCode) (res : Vector Word 4) (u : Units) (s : State) :
    finish rc res (u.withLay lays) (s.withLay lays) = answerWithLay lays (finish rc res u s) :=
  congrArg Host.Outcome.next (complete_withLay rc res u s)

theorem fatal_withLay (code : RCode) (s : State) :
    fatal code (s.withLay lays) = answerWithLay lays (fatal code s) := by
  have h := complete_withLay (lays := lays) code (results 0) s.units s
  exact congrArg (fun c => Host.Outcome.next { c with greg := latch code s.word s.cur c.greg }) h

theorem check_withLay {bad : Prop} [Decidable bad] {code : RCode} {a a' : Answer}
    (h : a' = answerWithLay lays a) :
    check bad code (s.withLay lays) a' = answerWithLay lays (check bad code s a) := by
  unfold check
  split
  · exact fatal_withLay code s
  · exact h

theorem withLayout_withLay {f f' : Layout → Answer} (hl : look s.units.lay k = some l)
    (hl' : look lays k = some l') (h : f' l' = answerWithLay lays (f l)) :
    withLayout k (s.withLay lays) f' = answerWithLay lays (withLayout k s f) := by
  rcases Nat.lt_or_ge k s.cfg.numLayouts with hk | hk
  · rw [withLayout_ok hk hl, ← h]
    exact withLayout_ok hk hl'
  · rw [withLayout_bad hk, ← fatal_withLay]
    exact withLayout_bad hk

/-- CCP_LAYOUT_INFO reads neither field of any layout (R235). -/
theorem exec_ccpLayoutInfo_plain (R : BitVec 3) (sh : BitVec 9) (hl : look s.units.lay k = some l)
    (hl' : look lays k = some { l with ilv := R, shift := sh }) :
    exec (.ccpLayoutInfo k) (s.withLay lays) = answerWithLay lays (exec (.ccpLayoutInfo k) s) :=
  withLayout_withLay hl hl' (finish_withLay ..)

/-! ### Searching and marking see the occupancy maps alone -/

theorem foldl_orMask_withLay (L : List Nat) (b : Nat) (m : BitVec 14) (u : Units) :
    L.foldl (fun v r => v.orMask b r m) (u.withLay lays) =
      (L.foldl (fun v r => v.orMask b r m) u).withLay lays := by
  induction L generalizing u with
  | nil => rfl
  | cons r L ih => exact ih (u.orMask b r m)

section
variable (R : BitVec 3) (sh : BitVec 9) (map : CceMapParam) (h : l.il = false)
include h

theorem markCandidate_plain (b first n : Nat) (u : Units) :
    markCandidate map { l with ilv := R, shift := sh } b first n (u.withLay lays) =
      (markCandidate map l b first n u).withLay lays := by
  rw [markCandidate, candidateRbs_plain R sh map h]
  exact foldl_orMask_withLay ..

theorem candidateFree_plain (b first n : Nat) (u : Units) :
    candidateFree map { l with ilv := R, shift := sh } (u.withLay lays) b first n =
      candidateFree map l u b first n := by
  rw [candidateFree, candidateRbs_plain R sh map h]
  rfl

theorem findLevel_plain (b lvl M Y : Nat) (u : Units) :
    findLevel map { l with ilv := R, shift := sh } (u.withLay lays) b lvl M Y =
      findLevel map l u b lvl M Y := by
  simp only [findLevel, candidateFree_plain R sh map h]
  rfl

theorem finish_marked_plain (rc : RCode) (res : Vector Word 4) (mark : Bool) (b first n : Nat) (u : Units)
    (s : State) :
    finish rc res (if mark then markCandidate map { l with ilv := R, shift := sh } b first n
      (u.withLay lays) else u.withLay lays) (s.withLay lays) =
    answerWithLay lays (finish rc res (if mark then markCandidate map l b first n u else u) s) := by
  rw [markCandidate_plain R sh map h, ← finish_withLay]
  cases mark <;> rfl

/-! ### The other commands that read a layout -/

variable (hl : look s.units.lay k = some l)
  (hl' : look lays k = some { l with ilv := R, shift := sh }) (mark : Bool)
include hl hl'

theorem exec_ccpCceMap_plain : exec (.ccpCceMap k) (s.withLay lays) =
    answerWithLay lays (exec (.ccpCceMap k) s) := by
  refine withLayout_withLay hl hl' (check_withLay ?_)
  simp only [setRb_plain R sh _ h]
  exact finish_withLay ..

theorem exec_ccpMark_plain : exec (.ccpMark k) (s.withLay lays) =
    answerWithLay lays (exec (.ccpMark k) s) := by
  refine withLayout_withLay hl hl' (check_withLay (check_withLay (check_withLay ?_)))
  rw [← finish_withLay, ← markCandidate_plain R sh _ h]
  rfl

theorem exec_ccpFind_plain : exec (.ccpFind mark k) (s.withLay lays) =
    answerWithLay lays (exec (.ccpFind mark k) s) := by
  refine withLayout_withLay hl hl' (check_withLay (check_withLay (check_withLay ?_)))
  have hfind : findLevel (s.withLay lays).cfg.cceMap { l with ilv := R, shift := sh }
      (s.withLay lays).units (s.withLay lays).opBeam (s.withLay lays).opLvl (s.withLay lays).opM
      (s.withLay lays).opY = findLevel s.cfg.cceMap l s.units s.opBeam s.opLvl s.opM s.opY :=
    findLevel_plain R sh _ h ..
  rw [hfind]
  obtain ⟨_ | ⟨first, m⟩, tested⟩ := findLevel s.cfg.cceMap l s.units s.opBeam s.opLvl s.opM s.opY
  · exact finish_withLay ..
  · exact finish_marked_plain R sh _ h ..

theorem exec_ccpSearch_plain : exec (.ccpSearch mark k) (s.withLay lays) =
    answerWithLay lays (exec (.ccpSearch mark k) s) := by
  refine withLayout_withLay hl hl' (check_withLay (check_withLay (check_withLay ?_)))
  have hfind : (fun v => findLevel (s.withLay lays).cfg.cceMap { l with ilv := R, shift := sh }
      (s.withLay lays).units (s.withLay lays).opBeam v ((s.withLay lays).opMLevel v)
      (s.withLay lays).opY) =
      fun v => findLevel s.cfg.cceMap l s.units s.opBeam v (s.opMLevel v) s.opY :=
    funext fun v => findLevel_plain R sh _ h ..
  have horder : levelOrder (s.withLay lays).opCq = levelOrder s.opCq := rfl
  rw [hfind, horder]
  obtain ⟨_ | ⟨v, first, m⟩, total⟩ := searchLevels
    (fun v => findLevel s.cfg.cceMap l s.units s.opBeam v (s.opMLevel v) s.opY) (levelOrder s.opCq) 0
  · exact finish_withLay ..
  · exact finish_marked_plain R sh _ h ..

end

theorem lay_of_search_kept {mark : Bool} {u v : Units} (h : if mark then OnlyOcc u v else v = u) :
    v.lay = u.lay := by
  cases mark with
  | false => exact congrArg Units.lay h
  | true => exact OnlyOcc.lay h

/-- A command that reads a layout stores none. -/
theorem lay_of_exec {i : Instr} {mark : Bool}
    (hi : i ∈ [Instr.ccpLayoutInfo k, .ccpCceMap k, .ccpFind mark k, .ccpSearch mark k, .ccpMark k])
    (h : exec i s = .next t) : t.units.lay = s.units.lay := by
  have hkept := exec_unitsKept h
  simp only [List.mem_cons, List.not_mem_nil, or_false] at hi
  rcases hi with rfl | rfl | rfl | rfl | rfl
  · exact congrArg Units.lay hkept
  · exact congrArg Units.lay hkept
  · exact lay_of_search_kept hkept
  · exact lay_of_search_kept hkept
  · exact OnlyOcc.lay hkept

/-- Settles O59: every command that reads the altered slot answers as before, up to the layouts, and leaves
them alone. -/
theorem plainLayoutsHideRAndShift : Obligations.PlainLayoutsHideRAndShift := by
  intro i mark k s t l R sh hi hl hil hexec alter
  have hl' : look (put s.units.lay k { l with ilv := R, shift := sh }) k =
      some { l with ilv := R, shift := sh } := by rw [look_put, if_pos rfl]
  have hanswer : exec i (alter s) =
      answerWithLay (put s.units.lay k { l with ilv := R, shift := sh }) (exec i s) := by
    have hcases := hi
    simp only [List.mem_cons, List.not_mem_nil, or_false] at hcases
    rcases hcases with rfl | rfl | rfl | rfl | rfl
    · exact exec_ccpLayoutInfo_plain R sh hl hl'
    · exact exec_ccpCceMap_plain R sh hil hl hl'
    · exact exec_ccpFind_plain R sh hil hl hl' mark
    · exact exec_ccpSearch_plain R sh hil hl hl' mark
    · exact exec_ccpMark_plain R sh hil hl hl'
  rw [hanswer, hexec, ← lay_of_exec hi hexec]
  rfl

end Sys2Proof.Machine
end

section
/-! The staging tables of the grant encoder (`43_grant_encoder.md` R295, R297): how GEN_FIELD and GEN_CLEAR
end, and what the served port's table reads afterwards (O47). -/

namespace Sys2Proof.Machine

variable {s : State} {f : Nat}

/-! ### How the two commands end -/

theorem exec_genField_badIndex (h : 64 ≤ f) : exec (.genField f) s = fatal .badIndex s := if_pos h

theorem exec_genField_badArg (hf : f < 64) (hw : 32 < s.opWidth.toNat) :
    exec (.genField f) s = fatal .badArg s :=
  (if_neg hf.not_ge).trans (check_bad hw)

theorem exec_genField_ok (hf : f < 64) (hw : s.opWidth.toNat ≤ 32) :
    exec (.genField f) s = finish .ok (results 0)
      (s.units.setGen s.cur
        (writeAt slotClear (s.units.gen s.cur) f { val := s.opValue, wid := s.opWidth, wr := true })) s :=
  (if_neg hf.not_ge).trans (check_ok hw.not_gt)

theorem exec_genClear (s : State) :
    exec .genClear s = finish .ok (results 0) (s.units.setGen s.cur []) s := rfl

/-! ### The table afterwards -/

theorem slot_setGen_writeAt (u : Units) (p : PortId) (f g : Nat) (v : GenSlot) :
    (u.setGen p (writeAt slotClear (u.gen p) f v)).slot p g = if g = f then v else u.slot p g := by
  rw [slot_setGen_self, readAt_writeAt]
  rfl

theorem slot_setGen_nil (u : Units) (p : PortId) (g : Nat) : (u.setGen p []).slot p g = slotClear := by
  rw [slot_setGen_self, readAt_nil]

/-- A command that finishes with a new table of the served port stores that table and touches no other
array. -/
theorem stages_of_finish {i : Instr} {rc : RCode} {res : Vector Word 4} {g : Sparse GenSlot}
    {v : Nat → GenSlot} (h : exec i s = finish rc res (s.units.setGen s.cur g) s)
    (hv : ∀ f, (s.units.setGen s.cur g).slot s.cur f = v f) :
    ∃ t, exec i s = .next t ∧ CompletedWith s t rc res ∧ OnlyGen s.cur s.units t.units ∧
      ∀ f, t.units.slot s.cur f = v f := by
  refine completes_of_finish h ?_
  rw [complete_units]
  exact ⟨onlyGen_setGen .., hv⟩

/-- Settles O47: GEN_FIELD's two checks, then one write to the table; GEN_CLEAR stores the empty one. -/
theorem genStagingResults : Obligations.GenStagingResults :=
  ⟨fun _ _ => ⟨fun h => aborts_of_fatal (exec_genField_badIndex h),
      fun hf hw => aborts_of_fatal (exec_genField_badArg hf hw),
      fun hf hw => stages_of_finish (exec_genField_ok hf hw) (slot_setGen_writeAt _ _ _ · _)⟩,
    fun s => stages_of_finish (exec_genClear s) (slot_setGen_nil _ _)⟩

end Sys2Proof.Machine
end

section
/-! GEN_ENCODE (`43_grant_encoder.md` R294, R296, R299): its checks in order and its payload, in the terms of
`Sys2Proof/Safety.lean` (O48). -/

namespace Sys2Proof.Machine

variable {s : State} {mode : AddrMode} {fields seq : List FieldId} {tag : Bool}

/-- The payload of R296: the concatenated fields, padded with zeros to `A` bits. -/
def grantPayload (slot : FieldId → GenSlot) (seq : List FieldId) (A : Nat) : Nat :=
  fieldsValue slot seq * 2 ^ (A - widthSum slot seq)

theorem grantPayload_lt {slot : FieldId → GenSlot} {A : Nat} (h : widthSum slot seq ≤ A) :
    grantPayload slot seq A < 2 ^ A :=
  calc grantPayload slot seq A
      < 2 ^ widthSum slot seq * 2 ^ (A - widthSum slot seq) :=
        Nat.mul_lt_mul_of_pos_right (fieldsValue_lt slot seq) (Nat.two_pow_pos _)
    _ = 2 ^ A := by rw [← Nat.pow_add, Nat.add_sub_cancel' h]

theorem packFields_shiftLeft (slot : FieldId → GenSlot) (seq : List FieldId) (A : Nat) :
    packFields slot seq <<< (A - widthSum slot seq) = grantPayload slot seq A := by
  rw [packFields_eq, Nat.shiftLeft_eq, grantPayload]

/-- RES3 of R296: VARIANT in bit 0, n from bit 8 on. -/
theorem flagNat_or_shiftLeft (tag : Bool) (n : Nat) :
    flagNat tag ||| n <<< 8 = (if tag then 1 else 0) + n * 2 ^ 8 :=
  or_shiftLeft_8 ((flagNat_le tag).trans_lt (by decide))

/-- A result register keeps the low 32 bits. -/
theorem results_mod_left (a b c d : Nat) : results (a % 2 ^ 32) b c d = results a b c d := by
  have hmod : BitVec.ofNat 32 (a % 2 ^ 32) = BitVec.ofNat 32 a :=
    BitVec.eq_of_toNat_eq (by rw [BitVec.toNat_ofNat, BitVec.toNat_ofNat, Nat.mod_mod])
  rw [results, hmod, results]

theorem exec_genEncode_badArg (hm : s.opMode = none) : exec .genEncode s = fatal .badArg s := by
  change execGenEncode s = _
  simp only [execGenEncode, hm]

theorem exec_genEncode_layoutUndefined (hm : s.opMode = some mode)
    (hl : genLayout s.cfg s.opFmt mode = none) : exec .genEncode s = fatal .layoutUndefined s := by
  change execGenEncode s = _
  simp only [execGenEncode, hm, hl]

/-- GEN_ENCODE on a defined layout: three checks in order, then the payload of the walked fields (R296). -/
theorem exec_genEncode_of_walked (hm : s.opMode = some mode)
    (hl : genLayout s.cfg s.opFmt mode = some fields)
    (hw : Walked s.cfg.genVariant fields (VariantTaken s.opFmt mode (s.units.slot s.cur fdraId)) seq tag) :
    exec .genEncode s =
      check (64 < s.opAlign) .payloadTooLong s
        (check (∃ f ∈ seq, (s.units.slot s.cur f).wr = false) .fieldMissing s
          (check (s.opAlign < widthSum (s.units.slot s.cur) seq) .sizeMismatch s
            (finish .ok
              (results (grantPayload (s.units.slot s.cur) seq s.opAlign)
                (grantPayload (s.units.slot s.cur) seq s.opAlign / 2 ^ 32) s.opAlign
                ((if tag then 1 else 0) + widthSum (s.units.slot s.cur) seq * 2 ^ 8))
              (s.units.setGen s.cur []) s))) := by
  change execGenEncode s = _
  simp only [execGenEncode, hm, hl, walkLayout_eq _ _ _ _ (variantHolds_iff ..) _ _ _ hw]
  refine congrArg (check _ _ s) ?_
  by_cases hmiss : ∃ f ∈ seq, (s.units.slot s.cur f).wr = false
  · have hall : ¬ seq.all (fun f => (s.units.slot s.cur f).wr) = true := by simpa using hmiss
    rw [check_bad hmiss, if_neg hall]
  · have hall : seq.all (fun f => (s.units.slot s.cur f).wr) = true := by simpa using hmiss
    rw [check_ok hmiss, if_pos hall]
    simp only [contentBits_eq, packFields_shiftLeft, flagNat_or_shiftLeft, Nat.shiftRight_eq_div_pow]

/-- Settles O48: a layout always has a walk, along which the checks come in the order asked for. -/
theorem genEncodeResult : Obligations.GenEncodeResult := by
  refine fun s => ⟨fun hm => aborts_of_fatal (exec_genEncode_badArg hm), fun mode hm =>
    ⟨fun hl => aborts_of_fatal (exec_genEncode_layoutUndefined hm hl), fun fields hl =>
      ⟨fun hA => ?tooLong, fun hA seq tag => ?walk⟩⟩⟩
  case tooLong =>
    obtain ⟨seq, tag, hw⟩ := walked_exists s.cfg.genVariant fields
      (VariantTaken s.opFmt mode (s.units.slot s.cur fdraId))
    exact aborts_of_fatal ((exec_genEncode_of_walked hm hl hw).trans (check_bad hA))
  case walk =>
    intro slot n payload hw
    have hexec := (exec_genEncode_of_walked hm hl hw).trans (check_ok hA.not_gt)
    have hstaged (hall : ∀ f ∈ seq, (slot f).wr = true) : ¬ ∃ f ∈ seq, (slot f).wr = false := by
      simpa using hall
    refine ⟨fun hmiss => aborts_of_fatal (hexec.trans (check_bad hmiss)),
      fun hall hn => aborts_of_fatal (hexec.trans ((check_ok (hstaged hall)).trans (check_bad hn))),
      fun hall hn => ⟨grantPayload_lt hn, ?ok⟩⟩
    rw [results_mod_left]
    exact stages_of_finish (hexec.trans ((check_ok (hstaged hall)).trans (check_ok hn.not_gt)))
      (slot_setGen_nil _ _)

end Sys2Proof.Machine
end

section
/-! The round trip of a grant (`43_grant_encoder.md` R298): reading the payload back along the walk gives the
packed fields, and GEN_ENCODE that answers OK returned a packed payload (O49). -/

namespace Sys2Proof.Machine

variable {slot : FieldId → GenSlot} {variant fields rest seq : List FieldId} {f : FieldId} {tag : Bool}
  {taken : Prop} {P pad : Nat}

/-! ### The walk, field by field (R294) -/

theorem walked_nil (h : Walked variant [] taken seq tag) : seq = [] ∧ tag = false := by
  rcases h with ⟨-, -, pre, post, hsplit, -⟩ | ⟨htag, -, hseq⟩
  · simp at hsplit
  · exact ⟨hseq, htag⟩

/-- The walk takes the first field, and then GEN_VARIANT after FDRA under the condition of R294, or else the
rest of the layout. -/
theorem walked_cons (h : Walked variant (f :: rest) taken seq tag) :
    ((f = fdraId ∧ taken) ∧ seq = f :: variant ∧ tag = true) ∨
    (¬ (f = fdraId ∧ taken) ∧ ∃ seq', seq = f :: seq' ∧ Walked variant rest taken seq' tag) := by
  rcases h with ⟨rfl, ht, pre, post, hsplit, hpre, rfl⟩ | ⟨rfl, hno, rfl⟩
  · cases pre with
    | nil =>
      obtain ⟨rfl, -⟩ := List.cons.inj hsplit
      exact .inl ⟨⟨rfl, ht⟩, rfl, rfl⟩
    | cons a pre =>
      obtain ⟨rfl, rfl⟩ := List.cons.inj hsplit
      obtain ⟨hne, hpre⟩ := not_or.1 (mt List.mem_cons.2 hpre)
      exact .inr ⟨fun hf => hne hf.1.symm, _, rfl, .inl ⟨rfl, ht, pre, post, rfl, hpre, rfl⟩⟩
  · refine .inr ⟨?_, rest, rfl, .inr ⟨rfl, hno.imp_right (mt (List.mem_cons_of_mem f)), rfl⟩⟩
    rintro ⟨rfl, ht⟩
    exact hno.elim (· ht) (· (List.mem_cons_self ..))

/-! ### Reading packed fields back -/

/-- Above its low `pad` bits `P` holds the packed fields of `seq` (and anything above them). -/
def PacksAt (slot : FieldId → GenSlot) (P pad : Nat) (seq : List FieldId) : Prop :=
  P / 2 ^ pad % 2 ^ widthSum slot seq = fieldsValue slot seq

/-- What R298 asks `decode` to return for a field list. -/
def stagedValues (slot : FieldId → GenSlot) (seq : List FieldId) : List (FieldId × Nat) :=
  seq.map fun f => (f, (slot f).val.toNat % 2 ^ (slot f).wid.toNat)

theorem map_fst_stagedValues (slot : FieldId → GenSlot) (seq : List FieldId) :
    (stagedValues slot seq).map Prod.fst = seq := by
  simp [stagedValues, Function.comp_def]

theorem snd_of_mem_stagedValues {e : FieldId × Nat} (h : e ∈ stagedValues slot seq) :
    e.2 = (slot e.1).val.toNat % 2 ^ (slot e.1).wid.toNat := by
  obtain ⟨f, -, rfl⟩ := List.mem_map.1 h
  rfl

theorem packsAt_grantPayload {A : Nat} : PacksAt slot (grantPayload slot seq A)
    (A - widthSum slot seq) seq := by
  rw [PacksAt, grantPayload, Nat.mul_div_cancel _ (Nat.two_pow_pos _), Nat.mod_eq_of_lt (fieldsValue_lt ..)]

/-- The first packed field reads back above the others. -/
theorem PacksAt.head (h : PacksAt slot P pad (f :: rest)) :
    P / 2 ^ (pad + widthSum slot rest) % 2 ^ (slot f).wid.toNat =
      (slot f).val.toNat % 2 ^ (slot f).wid.toNat := by
  have hv := fieldsValue_lt slot rest
  rw [PacksAt, widthSum, fieldsValue] at h
  rw [Nat.pow_add, ← Nat.div_div_eq_div_mul, ← Nat.mod_mul_left_div_self, ← Nat.pow_add, h, Nat.add_comm,
    Nat.add_mul_div_right _ _ (Nat.two_pow_pos _), Nat.div_eq_of_lt hv, Nat.zero_add]

theorem PacksAt.tail (h : PacksAt slot P pad (f :: rest)) : PacksAt slot P pad rest := by
  rw [PacksAt, widthSum, fieldsValue] at h
  have hmod := congrArg (· % 2 ^ widthSum slot rest) h
  simpa [PacksAt, Nat.pow_add, Nat.mod_mul_left_mod, Nat.mul_add_mod_self_right,
    Nat.mod_eq_of_lt (fieldsValue_lt slot rest)] using hmod

/-- Below the first field of a list the position is that of the rest. -/
theorem pad_add_widthSum_sub : pad + widthSum slot (f :: rest) - (slot f).wid.toNat =
    pad + widthSum slot rest := by
  rw [widthSum]; omega

theorem readFields_of_packsAt (h : PacksAt slot P pad seq) :
    readFields (fun f => (slot f).wid.toNat) P (pad + widthSum slot seq) seq = stagedValues slot seq := by
  induction seq with
  | nil => rfl
  | cons f rest ih =>
    rw [readFields, pad_add_widthSum_sub, h.head, ih h.tail]
    rfl

/-- Branching on the FDRA value read is branching on the staged one (R294, R298), so the whole walk reads
back. -/
theorem readPayload_of_packsAt {branching : Bool}
    (htaken : taken ↔ branching = true ∧ 1 ≤ (slot fdraId).wid.toNat ∧
      (slot fdraId).val.toNat % 2 ^ (slot fdraId).wid.toNat = 2 ^ (slot fdraId).wid.toNat - 1)
    (hw : Walked variant fields taken seq tag) (h : PacksAt slot P pad seq) :
    readPayload (fun f => (slot f).wid.toNat) branching variant P (pad + widthSum slot seq) fields =
      (stagedValues slot seq, tag) := by
  induction fields generalizing seq with
  | nil =>
    obtain ⟨rfl, rfl⟩ := walked_nil hw
    rfl
  | cons f rest ih =>
    rcases walked_cons hw with ⟨⟨rfl, ht⟩, rfl, rfl⟩ | ⟨hno, seq, rfl, hrest⟩
    · have hbranch := htaken.1 ht
      rw [readPayload, pad_add_widthSum_sub, h.head, if_pos ⟨rfl, hbranch⟩, readFields_of_packsAt h.tail]
      rfl
    · have hbranch : ¬ (f = fdraId ∧ branching = true ∧ 1 ≤ (slot f).wid.toNat ∧
          (slot f).val.toNat % 2 ^ (slot f).wid.toNat = 2 ^ (slot f).wid.toNat - 1) := by
        rintro ⟨rfl, ht⟩
        exact hno ⟨rfl, htaken.2 ht⟩
      rw [readPayload, pad_add_widthSum_sub, h.head, if_neg hbranch, ih hrest h.tail]
      rfl

/-- The condition of R294, its part on format and mode apart. -/
theorem variantTaken_iff (fmt : GrantFormat) (mode : AddrMode) (g : GenSlot) :
    VariantTaken fmt mode g ↔ decide (fmt = .dlA ∧ (mode = .bcast ∨ mode = .ra)) = true ∧
      1 ≤ g.wid.toNat ∧ g.val.toNat % 2 ^ g.wid.toNat = 2 ^ g.wid.toNat - 1 := by
  rw [decide_eq_true_eq, VariantTaken, and_assoc]

/-! ### From the result registers -/

theorem payload_of_results {P c d : Nat} (h : P < 2 ^ 64) :
    ((results P (P / 2 ^ 32) c d).get 0).toNat + ((results P (P / 2 ^ 32) c d).get 1).toNat * 2 ^ 32 = P := by
  change (BitVec.ofNat 32 P).toNat + (BitVec.ofNat 32 (P / 2 ^ 32)).toNat * 2 ^ 32 = P
  rw [BitVec.toNat_ofNat, BitVec.toNat_ofNat]
  omega

theorem results_get_two_toNat {a b c d : Nat} (h : c < 2 ^ 32) : ((results a b c d).get 2).toNat = c :=
  (BitVec.toNat_ofNat ..).trans (Nat.mod_eq_of_lt h)

theorem results_get_three_toNat {a b c d : Nat} (h : d < 2 ^ 32) : ((results a b c d).get 3).toNat = d :=
  (BitVec.toNat_ofNat ..).trans (Nat.mod_eq_of_lt h)

variable {s t : State} {mode : AddrMode}

/-- A command that ended with OK found the condition of a fatal check false. -/
theorem not_of_check_ok {bad : Prop} [Decidable bad] {code : RCode} {a : Answer}
    (h : check bad code s a = .next t) (hok : (t.port s.cur).rcode = .ok)
    (hf : code.isFatal = true := by decide) : ¬ bad := by
  rcases check_cases h with ⟨-, rfl⟩ | ⟨hbad, -⟩
  · exact absurd hok (rcode_fatalState_ne_ok hf)
  · exact hbad

/-- GEN_ENCODE that answers OK passed its size checks and returned the payload of its walk (R296). -/
theorem exec_genEncode_inversion (hm : s.opMode = some mode)
    (hl : genLayout s.cfg s.opFmt mode = some fields)
    (hw : Walked s.cfg.genVariant fields (VariantTaken s.opFmt mode (s.units.slot s.cur fdraId)) seq tag)
    (h : exec .genEncode s = .next t) (hok : (t.port s.cur).rcode = .ok) :
    s.opAlign ≤ 64 ∧ widthSum (s.units.slot s.cur) seq ≤ s.opAlign ∧
      (t.port s.cur).res = results (grantPayload (s.units.slot s.cur) seq s.opAlign)
        (grantPayload (s.units.slot s.cur) seq s.opAlign / 2 ^ 32) s.opAlign
        ((if tag then 1 else 0) + widthSum (s.units.slot s.cur) seq * 2 ^ 8) := by
  rw [exec_genEncode_of_walked hm hl hw] at h
  have hA := not_of_check_ok h hok
  have h := check_of_ok (check_of_ok h hok) hok
  have hn := not_of_check_ok h hok
  obtain rfl := finish_eq_next.1 (check_of_ok h hok)
  exact ⟨Nat.not_lt.1 hA, Nat.not_lt.1 hn, by rw [complete_port]⟩

/-- Settles O49: the payload returned packs the walked fields above its padding, so reading it along the
layout gives them back. -/
theorem grantRoundTrip : Obligations.GrantRoundTrip := by
  intro s t mode fields hm hl hexec hok
  obtain ⟨seq, tag, hw⟩ := walked_exists s.cfg.genVariant fields
    (VariantTaken s.opFmt mode (s.units.slot s.cur fdraId))
  obtain ⟨hA, hn, hres⟩ := exec_genEncode_inversion hm hl hw hexec hok
  have hP : grantPayload (s.units.slot s.cur) seq s.opAlign < 2 ^ 64 :=
    (grantPayload_lt hn).trans_le (Nat.pow_le_pow_right (by decide) hA)
  have hres3 : (if tag then 1 else 0) + widthSum (s.units.slot s.cur) seq * 2 ^ 8 < 2 ^ 32 := by
    split <;> omega
  have hread := readPayload_of_packsAt (variantTaken_iff ..) hw (packsAt_grantPayload (A := s.opAlign))
  rw [Nat.sub_add_cancel hn] at hread
  simp only [hres, payload_of_results hP, results_get_two_toNat (hA.trans_lt (by decide)),
    results_get_three_toNat hres3, hread, map_fst_stagedValues]
  exact ⟨fun e he => snd_of_mem_stagedValues he, hw, trivial⟩

end Sys2Proof.Machine
end

section
/-! The commands of the link-adaptation selector (`44_link_adaptation.md` R330 to R333): one equation per way
a command can end, and the arithmetic of an evaluation as the rule writes it (O50 to O52). -/

namespace Sys2Proof.Machine

variable {s : State} {i : Instr} {c : Nat} {d : Direction} {R : LaRec}

/-! ### How a command on a record may end (R330) -/

theorem aborts_badIndex_of_withRec {f : LaRec → Answer} (he : exec i s = withRec c d s f)
    (h : s.cfg.numCtx ≤ c) : Aborts i s .badIndex :=
  aborts_of_fatal (he.trans (withRec_bad h))

theorem aborts_notConfigured_of_withRec {f : LaRec → Answer} (he : exec i s = withRec c d s f)
    (h : c < s.cfg.numCtx) (hR : s.units.laRec c d = none) : Aborts i s .notConfigured :=
  aborts_of_fatal (he.trans (withRec_none h hR))

/-- A command that ends by storing the record `Q` changes no other record, and what holds of `Q` holds of
the record then stored. -/
theorem storesRec_of_finish {rc : RCode} {res : Vector Word 4} {Q : LaRec} {Good : LaRec → Prop}
    (h : exec i s = finish rc res (s.units.setLaRec c d Q) s) (hQ : Good Q) :
    ∃ t, exec i s = .next t ∧ CompletedWith s t rc res ∧ OnlyRec c d s.units t.units ∧
      ∃ Q, t.units.laRec c d = some Q ∧ Good Q := by
  refine completes_of_finish h ?_
  rw [complete_units]
  exact ⟨onlyRec_setLaRec .., Q, laRec_setLaRec_self, hQ⟩

/-! ### LA_INIT (R331) -/

theorem exec_laInit_badIndex (h : s.cfg.numCtx ≤ c) : exec (.laInit d c) s = fatal .badIndex s :=
  inContext_bad h

theorem exec_laInit_eq_check (hc : c < s.cfg.numCtx) : exec (.laInit d c) s =
    check (¬ (s.opMin.toNat ≤ s.opMcs0.toNat ∧ s.opMcs0.toNat ≤ s.opMax.toNat) ∨
        (65536 < s.opThrLo.toNat ∨ 65536 < s.opThrHi.toNat ∨ 65536 < s.opRate0.toNat)) .badArg s
      (finish .ok (results 0) (s.units.setLaRec c d s.opRecord) s) :=
  (inContext_ok hc).trans check_check

theorem opRecord_win_toNat (s : State) :
    s.opRecord.win.toNat = if s.opWin.toNat = 0 then 10 else s.opWin.toNat := by
  change (if s.opWin = 0 then 10 else s.opWin : BitVec 10).toNat = _
  simp only [← BitVec.toNat_inj, apply_ite BitVec.toNat]
  rfl

/-- Settles O50: the index check and the two range checks, then the record of the operands is stored. -/
theorem laInitResult : Obligations.LaInitResult := fun s _ _ =>
  ⟨fun h => aborts_of_fatal (exec_laInit_badIndex h),
    fun hc h => aborts_of_fatal ((exec_laInit_eq_check hc).trans (check_bad (by omega))),
    fun hc h1 h2 h3 h4 h5 =>
      storesRec_of_finish ((exec_laInit_eq_check hc).trans (check_ok (by omega)))
        ⟨rfl, rfl, rfl, rfl, rfl, opRecord_win_toNat s, rfl, rfl, rfl, rfl⟩⟩

/-! ### The arithmetic of an evaluation (R332) -/

theorem sub_toNat_eq {w : Nat} (a b : BitVec w) : (a - b).toNat = (a.toNat + 2 ^ w - b.toNat) % 2 ^ w := by
  rw [BitVec.toNat_sub, Nat.add_comm a.toNat, Nat.sub_add_comm b.isLt.le]

theorem evalFlags_eq (R : LaRec) (tx retx : Word) :
    1 ||| evalAction R tx retx <<< 1 = 1 + 2 * evalAction R tx retx := by
  rw [or_shiftLeft_eq_add (by decide), Nat.mul_comm, Nat.pow_one]

theorem nextMcs_eq (R : LaRec) (action : Nat) : nextMcs R action =
    if action = 1 then min (R.mcs.toNat + 1) R.mx.toNat
    else if action = 2 then max (R.mcs.toNat - 1) R.mn.toNat else R.mcs.toNat := by
  unfold nextMcs
  split
  · rfl
  · rfl
  · rename_i h1 h2
    rw [if_neg h1, if_neg h2]

/-- The new index fits its field, whether or not the record is in range. -/
theorem evalRecord_mcs_toNat (R : LaRec) (now : BitVec 10) (tx retx : Word) :
    (evalRecord R now tx retx).mcs.toNat = nextMcs R (evalAction R tx retx) := by
  refine Nat.mod_eq_of_lt ?_
  have hmcs := R.mcs.isLt
  have hmn := R.mn.isLt
  have hmx := R.mx.isLt
  unfold nextMcs
  split <;> omega

theorem windowFraction_le (R : LaRec) (tx retx : Word) : windowFraction R tx retx ≤ 65536 := by
  unfold windowFraction fraction
  split
  · exact Nat.zero_le _
  · exact Nat.min_le_left ..

/-- The filtered rate fits its field, whether or not the record is in range. -/
theorem evalRecord_rate_toNat (R : LaRec) (now : BitVec 10) (tx retx : Word) :
    (evalRecord R now tx retx).rate.toNat = nextRate R tx retx := by
  refine Nat.mod_eq_of_lt ?_
  have hrate := R.rate.isLt
  have hfrac := windowFraction_le R tx retx
  unfold nextRate filtered
  omega

/-! ### LA_EVAL (R332) -/

theorem exec_laEval_inside (hc : c < s.cfg.numCtx) (hR : s.units.laRec c d = some R)
    (h : elapsed R s.opNow < R.win.toNat) :
    exec (.laEval d c) s = finish .ok (results R.mcs.toNat R.rate.toNat) s.units s :=
  (withRec_ok hc hR).trans (if_pos h)

theorem exec_laEval_evaluates (hc : c < s.cfg.numCtx) (hR : s.units.laRec c d = some R)
    (h : R.win.toNat ≤ elapsed R s.opNow) :
    exec (.laEval d c) s = finish .ok
      (results (nextMcs R (evalAction R s.opTx s.opRetx)) (nextRate R s.opTx s.opRetx)
        (1 + 2 * evalAction R s.opTx s.opRetx) (windowTx R s.opTx))
      (s.units.setLaRec c d (evalRecord R s.opNow s.opTx s.opRetx)) s := by
  rw [← evalFlags_eq]
  exact (withRec_ok hc hR).trans (if_neg h.not_gt)

/-- Settles O51: the rule's counters are the differences of the registers' words, and each later value is
the model's function of them. -/
theorem laEvalResult : Obligations.LaEvalResult := by
  refine fun s d c => ⟨aborts_badIndex_of_withRec rfl, aborts_notConfigured_of_withRec rfl, ?_⟩
  intro R hc hR e txW retxW frac rate2 action mcs2
  have he : elapsed R s.opNow = e := sub_toNat_eq ..
  have htx : windowTx R s.opTx = txW := sub_toNat_eq ..
  have hretx : windowRetx R s.opRetx = retxW := sub_toNat_eq ..
  have hrate : nextRate R s.opTx s.opRetx = rate2 := by
    rw [nextRate, windowFraction, htx, hretx]
    rfl
  have haction : evalAction R s.opTx s.opRetx = action := by
    rw [evalAction, hrate, htx]
    rfl
  have hmcs : nextMcs R (evalAction R s.opTx s.opRetx) = mcs2 := by
    rw [haction]
    exact nextMcs_eq R action
  refine ⟨fun h => completes_of_finish (exec_laEval_inside hc hR (he ▸ h)) (complete_units ..),
    fun h => ?_⟩
  have hexec := exec_laEval_evaluates hc hR (he ▸ h)
  rw [hmcs, hrate, haction, htx] at hexec
  exact storesRec_of_finish hexec
    ⟨(evalRecord_mcs_toNat ..).trans hmcs, (evalRecord_rate_toNat ..).trans hrate,
      rfl, rfl, rfl, rfl, rfl, rfl, rfl, rfl⟩

/-! ### LA_READ (R333) -/

theorem exec_laRead_page0 (hc : c < s.cfg.numCtx) (hR : s.units.laRec c d = some R) :
    exec (.laRead d false c) s = finish .ok
      (results (R.mcs.toNat + R.mn.toNat * 2 ^ 8 + R.mx.toNat * 2 ^ 16) R.rate.toNat
        (R.last.toNat + R.win.toNat * 2 ^ 16) R.thrLo.toNat) s.units s := by
  rw [← or_pack_three R.mcs.isLt R.mn.isLt, ← or_shiftLeft_16 (R.last.isLt.trans (by decide))]
  exact withRec_ok hc hR

theorem exec_laRead_page1 (hc : c < s.cfg.numCtx) (hR : s.units.laRec c d = some R) :
    exec (.laRead d true c) s = finish .ok
      (results R.thrHi.toNat R.txSnap.toNat R.retxSnap.toNat) s.units s :=
  withRec_ok hc hR

/-- Settles O52: the fields of a page do not overlap, so their disjunction is their sum. -/
theorem laReadResult : Obligations.LaReadResult := by
  refine fun s d sel c => ⟨aborts_badIndex_of_withRec rfl, aborts_notConfigured_of_withRec rfl,
    fun R hc hR => ?_⟩
  cases sel with
  | false => exact unchanged_of_finish (exec_laRead_page0 hc hR)
  | true => exact unchanged_of_finish (exec_laRead_page1 hc hR)

end Sys2Proof.Machine
end

section
/-! What follows for a record from its evaluations (`44_link_adaptation.md` R334, R335): the downward
response to a bad window and the bias of sparse scheduling (O53, O54). -/

namespace Sys2Proof.Machine

variable {s t : State} {c : Nat} {d : Direction} {R Q : LaRec} {now : BitVec 10} {tx retx : Word}

/-! ### An LA_EVAL that evaluated -/

/-- EVALUATED (RES2[0]) is set only by an evaluation, whose new record is then the one stored (R332). -/
theorem eq_evalRecord_of_evaluated (hc : c < s.cfg.numCtx) (hR : s.units.laRec c d = some R)
    (h : exec (.laEval d c) s = .next t) (heval : ((t.port s.cur).res.get 2).toNat % 2 = 1)
    (hQ : t.units.laRec c d = some Q) : Q = evalRecord R s.opNow s.opTx s.opRetx := by
  by_cases hwin : elapsed R s.opNow < R.win.toNat
  · rw [exec_laEval_inside hc hR hwin, finish_eq_next] at h
    subst h
    have hres2 : ((results R.mcs.toNat R.rate.toNat).get 2).toNat = 0 := results_get_two_toNat (by decide)
    rw [complete_port, hres2] at heval
    exact absurd heval (by decide)
  · rw [exec_laEval_evaluates hc hR (Nat.not_lt.1 hwin), finish_eq_next] at h
    subst h
    rw [complete_units, laRec_setLaRec_self] at hQ
    exact (Option.some.inj hQ).symm

/-! ### The branches (R332) -/

theorem evalAction_of_above (hthr : R.thrLo.toNat ≤ R.thrHi.toNat)
    (h : R.thrHi.toNat < nextRate R tx retx) : evalAction R tx retx = 2 := by
  rw [evalAction, laAction, if_neg (by omega), if_pos (.inl h)]

theorem evalAction_of_sparse (h : windowTx R tx < 3) : evalAction R tx retx = 2 := by
  rw [evalAction, laAction, if_neg (by omega), if_pos (.inr h)]

theorem evalAction_ne_increment (h : windowTx R tx ≤ 3) : evalAction R tx retx ≠ 1 := by
  rw [evalAction, laAction, if_neg (by omega)]
  split <;> decide

/-- The decrement branch lowers the index by 1, or leaves it at the minimum. -/
theorem evalRecord_mcs_of_decrement (hmn : R.mn.toNat ≤ R.mcs.toNat) (h : evalAction R tx retx = 2) :
    (evalRecord R now tx retx).mcs.toNat =
      if R.mcs.toNat = R.mn.toNat then R.mn.toNat else R.mcs.toNat - 1 := by
  rw [evalRecord_mcs_toNat, h, nextMcs_eq, if_neg (by decide), if_pos rfl]
  split <;> omega

theorem evalRecord_mcs_le (hmn : R.mn.toNat ≤ R.mcs.toNat) (h : evalAction R tx retx ≠ 1) :
    (evalRecord R now tx retx).mcs.toNat ≤ R.mcs.toNat := by
  rw [evalRecord_mcs_toNat, nextMcs_eq, if_neg h]
  split <;> omega

/-- Settles O54: fewer than 3 transmissions take the decrement branch, and 3 or fewer never the increment
branch. -/
theorem sparseSchedulingBias : Obligations.SparseSchedulingBias := by
  rintro d c s t R Q hc hR hexec heval hQ ⟨hmn, -⟩
  obtain rfl := eq_evalRecord_of_evaluated hc hR hexec heval hQ
  exact ⟨fun h => evalRecord_mcs_of_decrement hmn (evalAction_of_sparse h),
    fun h => evalRecord_mcs_le hmn (evalAction_ne_increment h)⟩

/-! ### Bad windows (R334) -/

/-- `Q` is what an evaluation makes of `R` on a window whose fraction is at least thr_hi + 10. -/
inductive BadEval (R : LaRec) : LaRec → Prop
  | eval {now : BitVec 10} {tx retx : Word} (hfrac : R.thrHi.toNat + 10 ≤ windowFraction R tx retx) :
    BadEval R (evalRecord R now tx retx)

theorem windowFraction_of_tx (h : windowTx R tx ≠ 0) :
    windowFraction R tx retx = min 65536 (windowRetx R retx * 65536 / windowTx R tx) := if_neg h

theorem BadEval.thrLo_eq (h : BadEval R Q) : Q.thrLo = R.thrLo := by cases h; rfl
theorem BadEval.thrHi_eq (h : BadEval R Q) : Q.thrHi = R.thrHi := by cases h; rfl
theorem BadEval.mn_eq (h : BadEval R Q) : Q.mn = R.mn := by cases h; rfl

theorem BadEval.ok (h : BadEval R Q) (hR : LaRecOk R) : LaRecOk Q := by
  cases h
  exact laRecOk_evalRecord hR ..

/-- The filter raises the rate by at least 1 until it is above thr_hi, and then keeps it there: (a) and (b)
of R334 for one evaluation. -/
theorem BadEval.rate_climbs (h : BadEval R Q) :
    min (R.rate.toNat + 1) (R.thrHi.toNat + 1) ≤ Q.rate.toNat := by
  cases h with
  | eval hfrac =>
    rw [evalRecord_rate_toNat, nextRate, filtered]
    omega

/-- (c) of R334 for one evaluation. -/
theorem BadEval.mcs_of_above (h : BadEval R Q) (hR : LaRecOk R) (hthr : R.thrLo.toNat ≤ R.thrHi.toNat)
    (habove : R.thrHi.toNat < Q.rate.toNat) :
    Q.mcs.toNat = if R.mcs.toNat = R.mn.toNat then R.mn.toNat else R.mcs.toNat - 1 := by
  cases h with
  | eval =>
    rw [evalRecord_rate_toNat] at habove
    obtain ⟨hmn, -⟩ := hR
    exact evalRecord_mcs_of_decrement hmn (evalAction_of_above hthr habove)

/-- One command of the run of R334, from the fraction as that rule writes it. -/
theorem badEval_of_exec (hc : c < s.cfg.numCtx) (hR : s.units.laRec c d = some R)
    (h : exec (.laEval d c) s = .next t) (heval : ((t.port s.cur).res.get 2).toNat % 2 = 1)
    (hQ : t.units.laRec c d = some Q) (htx : 4 ≤ windowTx R s.opTx)
    (hfrac : R.thrHi.toNat + 10 ≤
      min 65536 (windowRetx R s.opRetx * 65536 / windowTx R s.opTx)) : BadEval R Q := by
  obtain rfl := eq_evalRecord_of_evaluated hc hR h heval hQ
  rw [← windowFraction_of_tx (by omega)] at hfrac
  exact .eval hfrac

/-! ### A run of bad windows -/

section
variable {N : Nat} {R : Nat → LaRec} (hrun : ∀ n < N, BadEval (R n) (R (n + 1)))
include hrun

/-- The configured bounds stay those of the first record, and every record is in range. -/
theorem badRun_keeps (hok : LaRecOk (R 0)) : ∀ n ≤ N, (R n).thrLo = (R 0).thrLo ∧
    (R n).thrHi = (R 0).thrHi ∧ (R n).mn = (R 0).mn ∧ LaRecOk (R n) := by
  intro n
  induction n with
  | zero => exact fun _ => ⟨rfl, rfl, rfl, hok⟩
  | succ n ih =>
    intro hn
    have hstep := hrun n hn
    obtain ⟨hlo, hhi, hmn, hokn⟩ := ih (Nat.le_of_succ_le hn)
    exact ⟨hstep.thrLo_eq.trans hlo, hstep.thrHi_eq.trans hhi, hstep.mn_eq.trans hmn, hstep.ok hokn⟩

/-- After n evaluations the rate is at least n, or above thr_hi. -/
theorem badRun_rate (hok : LaRecOk (R 0)) :
    ∀ n ≤ N, min n ((R 0).thrHi.toNat + 1) ≤ (R n).rate.toNat := by
  intro n
  induction n with
  | zero => exact fun _ => by omega
  | succ n ih =>
    intro hn
    have hclimb := (hrun n hn).rate_climbs
    obtain ⟨-, hhi, -, -⟩ := badRun_keeps hrun hok n (Nat.le_of_succ_le hn)
    rw [hhi] at hclimb
    have hrate := ih (Nat.le_of_succ_le hn)
    omega

end

/-- Settles O53: along a run of bad windows the thresholds and the minimum stay, so each part is that of one
evaluation. -/
theorem downwardResponse : Obligations.DownwardResponse := by
  intro d c N S R hrec hstep hthr hok hi mn
  have hrun : ∀ n < N, BadEval (R n) (R (n + 1)) := by
    intro n hn
    obtain ⟨hc, hR⟩ := hrec n hn.le
    obtain ⟨t, hexec, hQ, heval, htx, hfrac⟩ := hstep n hn
    exact badEval_of_exec hc hR hexec heval hQ htx hfrac
  have hkeeps := badRun_keeps hrun hok
  refine ⟨fun n hn habove => ?stays, fun hN => ?reached, fun n hn habove => ?lowers, fun n hn => ?bounded⟩
  case stays =>
    obtain ⟨-, hhi, -, -⟩ := hkeeps n hn.le
    have hclimb := (hrun n hn).rate_climbs
    rw [hhi] at hclimb
    omega
  case reached =>
    have hrate := badRun_rate hrun hok N le_rfl
    omega
  case lowers =>
    obtain ⟨hlo, hhi, hmn, hokn⟩ := hkeeps n hn.le
    have hmcs := (hrun n hn).mcs_of_above hokn (by rwa [hlo, hhi]) (by rwa [hhi])
    rwa [hmn] at hmcs
  case bounded =>
    obtain ⟨-, -, hmn, hokn, -⟩ := hkeeps n hn
    rwa [hmn] at hokn

end Sys2Proof.Machine
end

section
/-! The commands of the beam allocator (`46_beam_allocator.md` R380 to R384): one equation per way a command
can end, and from them what each command answers (O56 to O58). -/

namespace Sys2Proof.Machine

variable {s : State} {i : Instr} {b : BmaCfg} {tr : Nat}

/-! ### How a command of the allocator may end (R380) -/

theorem aborts_notConfigured_of_withBma {f : BmaCfg → Answer} (he : exec i s = withBma s f)
    (hb : s.units.bma = none) : Aborts i s .notConfigured :=
  aborts_of_fatal (he.trans (withBma_none hb))

/-- A command that ends by writing one table entry changes no other entry and no other array. -/
theorem setsBeam_of_finish {rc : RCode} {res : Vector Word 4} {idx : Nat} {v : BitVec 16}
    (h : exec i s = finish rc res (s.units.setBeam tr idx v) s) (hidx : idx < 65536) :
    ∃ t, exec i s = .next t ∧ CompletedWith s t rc res ∧ t.units = { s.units with bt := t.units.bt } ∧
      ∀ x k, k < 65536 → t.units.beam x k = if x = tr ∧ k = idx then v else s.units.beam x k := by
  refine completes_of_finish h ?_
  rw [complete_units]
  exact ⟨rfl, fun x k hk => beam_setBeam hidx hk⟩

/-- The index of R382 fits the table's index field, because the configured size has 16 bits. -/
theorem beamIndex_lt_65536 {cfg : Config} (hok : BmaOk cfg b) (frame slot spf : Nat) :
    beamIndex b frame slot spf < 65536 := by
  obtain ⟨-, hsz, -⟩ := hok
  exact (Nat.mod_lt _ hsz).trans b.sz.isLt

/-! ### BM_CONFIG (R381) -/

theorem exec_bmConfig_eq_check (s : State) : exec .bmConfig s =
    check ((s.opBd = 0 ∨ s.opAs = 0 ∨ s.cfg.allocMax < s.opAs.toNat) ∨
        (s.opNt = 0 ∨ s.cfg.numTracks < s.opNt.toNat)) .badArg s
      (finish .ok (results 0)
        { s.units with bma := some { bd := s.opBd, sz := s.opAs, nt := s.opNt }, bt := [] } s) :=
  check_check.trans check_check

/-- The checks of BM_CONFIG in terms of the operands' numbers. -/
theorem bmConfig_outOfRange_iff (s : State) :
    ((s.opBd = 0 ∨ s.opAs = 0 ∨ s.cfg.allocMax < s.opAs.toNat) ∨
      (s.opNt = 0 ∨ s.cfg.numTracks < s.opNt.toNat)) ↔
    (s.opBd.toNat = 0 ∨ s.opAs.toNat = 0 ∨ s.cfg.allocMax < s.opAs.toNat ∨ s.opNt.toNat = 0 ∨
      s.cfg.numTracks < s.opNt.toNat) := by
  simp only [← BitVec.toNat_inj, BitVec.ofNat_eq_ofNat, BitVec.toNat_zero, or_assoc]

theorem exec_bmConfig_badArg (h : s.opBd.toNat = 0 ∨ s.opAs.toNat = 0 ∨ s.cfg.allocMax < s.opAs.toNat ∨
    s.opNt.toNat = 0 ∨ s.cfg.numTracks < s.opNt.toNat) : exec .bmConfig s = fatal .badArg s :=
  (exec_bmConfig_eq_check s).trans (check_bad ((bmConfig_outOfRange_iff s).2 h))

theorem exec_bmConfig_ok (hbd : 1 ≤ s.opBd.toNat) (has : 1 ≤ s.opAs.toNat)
    (hmax : s.opAs.toNat ≤ s.cfg.allocMax) (hnt : 1 ≤ s.opNt.toNat)
    (htracks : s.opNt.toNat ≤ s.cfg.numTracks) : exec .bmConfig s =
      finish .ok (results 0)
        { s.units with bma := some { bd := s.opBd, sz := s.opAs, nt := s.opNt }, bt := [] } s :=
  (exec_bmConfig_eq_check s).trans (check_ok (mt (bmConfig_outOfRange_iff s).1 (by omega)))

/-! ### BM_READ (R384) -/

theorem exec_bmRead_badArg (hb : s.units.bma = some b)
    (h : b.nt.toNat ≤ s.opReadTrack ∨ b.sz.toNat ≤ s.opIdx) : exec .bmRead s = fatal .badArg s :=
  (withBma_ok hb).trans (check_bad h)

theorem exec_bmRead_ok (hb : s.units.bma = some b) (htr : s.opReadTrack < b.nt.toNat)
    (hidx : s.opIdx < b.sz.toNat) : exec .bmRead s =
      finish .ok (results (s.units.beam s.opReadTrack s.opIdx).toNat) s.units s :=
  (withBma_ok hb).trans (check_ok (not_or.2 ⟨htr.not_ge, hidx.not_ge⟩))

/-- Settles O56: BM_CONFIG's checks, then the new configuration with the empty table; BM_READ's checks, then
one entry. -/
theorem bmConfigAndReadResults : Obligations.BmConfigAndReadResults := by
  refine ⟨fun s => ⟨fun h => aborts_of_fatal (exec_bmConfig_badArg h), fun hbd has hmax hnt htracks =>
      completes_of_finish (exec_bmConfig_ok hbd has hmax hnt htracks) ?config⟩,
    fun s => ⟨aborts_notConfigured_of_withBma rfl, fun b hb =>
      ⟨fun h => aborts_of_fatal (exec_bmRead_badArg hb h), fun htr hidx =>
        completes_of_finish (exec_bmRead_ok hb htr hidx) (complete_units ..)⟩⟩⟩
  case config =>
    rw [complete_units]
    exact ⟨rfl, rfl, fun tr idx => readAt_nil ..⟩

/-! ### The checks that BM_ALLOC and BM_RELEASE share (R382, R383) -/

theorem withBma_timed_bad {f : BmaCfg → Answer} (hb : s.units.bma = some b)
    (h : s.opSpf = 0 ∨ s.opSpf ≤ s.opSlot ∨ s.opUbeam = btEmpty) :
    (withBma s fun c => check (s.opSpf = 0 ∨ s.opSpf ≤ s.opSlot) .badArg s <|
      check (s.opUbeam = btEmpty) .badArg s (f c)) = fatal .badArg s :=
  (withBma_ok hb).trans (check_check.trans (check_bad (or_assoc.2 h)))

theorem withBma_timed_ok {f : BmaCfg → Answer} (hb : s.units.bma = some b) (hslot : s.opSlot < s.opSpf)
    (hub : s.opUbeam ≠ btEmpty) :
    (withBma s fun c => check (s.opSpf = 0 ∨ s.opSpf ≤ s.opSlot) .badArg s <|
      check (s.opUbeam = btEmpty) .badArg s (f c)) = f b :=
  (withBma_ok hb).trans ((check_ok (by omega)).trans (check_ok hub))

/-! ### BM_ALLOC (R382) -/

theorem exec_bmAlloc_badArg (hb : s.units.bma = some b)
    (h : s.opSpf = 0 ∨ s.opSpf ≤ s.opSlot ∨ s.opUbeam = btEmpty) : exec .bmAlloc s = fatal .badArg s :=
  withBma_timed_bad hb h

section
variable (hb : s.units.bma = some b) (hslot : s.opSlot < s.opSpf) (hub : s.opUbeam ≠ btEmpty)
include hb hslot hub

theorem exec_bmAlloc_none
    (h : scanTracks s.units b.nt.toNat (beamIndex b s.opFrame s.opSlot s.opSpf) s.opUbeam = none) :
    exec .bmAlloc s =
      finish .noTrack (results none32 0 (beamIndex b s.opFrame s.opSlot s.opSpf)) s.units s :=
  (withBma_timed_ok hb hslot hub).trans (by simp only [h])

theorem exec_bmAlloc_some
    (h : scanTracks s.units b.nt.toNat (beamIndex b s.opFrame s.opSlot s.opSpf) s.opUbeam = some tr) :
    exec .bmAlloc s =
      if s.units.beam tr (beamIndex b s.opFrame s.opSlot s.opSpf) = s.opUbeam then
        finish .ok (results tr 0 (beamIndex b s.opFrame s.opSlot s.opSpf)) s.units s
      else
        finish .ok (results tr 1 (beamIndex b s.opFrame s.opSlot s.opSpf))
          (s.units.setBeam tr (beamIndex b s.opFrame s.opSlot s.opSpf) s.opUbeam) s :=
  (withBma_timed_ok hb hslot hub).trans (by simp only [h])

end

/-- Settles O57: the checks, then the scan finds the first track that holds the beam (kept) or is EMPTY
(written), or none. -/
theorem bmAllocResult : Obligations.BmAllocResult := by
  refine fun s => ⟨aborts_notConfigured_of_withBma rfl, fun b hb hok =>
    ⟨fun h => aborts_of_fatal (exec_bmAlloc_badArg hb h), fun hslot hub => ⟨fun tr htr hbefore =>
      ⟨fun hheld => ?held, fun hempty => ?assigned⟩, fun hall => ?full⟩⟩⟩
  case held =>
    have hscan := scanTracks_first htr hbefore (.inl hheld)
    exact completes_of_finish ((exec_bmAlloc_some hb hslot hub hscan).trans (if_pos hheld)) (complete_units ..)
  case assigned =>
    have hscan := scanTracks_first htr hbefore (.inr hempty)
    have hother : s.units.beam tr (beamIndex b s.opFrame s.opSlot s.opSpf) ≠ s.opUbeam :=
      fun h => hub (h.symm.trans hempty)
    exact setsBeam_of_finish ((exec_bmAlloc_some hb hslot hub hscan).trans (if_neg hother))
      (beamIndex_lt_65536 hok ..)
  case full =>
    exact completes_of_finish (exec_bmAlloc_none hb hslot hub (scanTracks_none hall)) (complete_units ..)

/-! ### BM_RELEASE (R383) -/

theorem exec_bmRelease_badArg (hb : s.units.bma = some b)
    (h : s.opSpf = 0 ∨ s.opSpf ≤ s.opSlot ∨ s.opUbeam = btEmpty ∨ b.nt.toNat ≤ s.opRelTrack) :
    exec .bmRelease s = fatal .badArg s := by
  by_cases htimed : s.opSpf = 0 ∨ s.opSpf ≤ s.opSlot ∨ s.opUbeam = btEmpty
  · exact withBma_timed_bad hb htimed
  · push Not at htimed
    obtain ⟨hspf, hslot, hub⟩ := htimed
    exact (withBma_timed_ok hb hslot hub).trans
      (check_bad (((h.resolve_left hspf).resolve_left hslot.not_ge).resolve_left hub))

theorem exec_bmRelease_eq_ite (hb : s.units.bma = some b) (hslot : s.opSlot < s.opSpf)
    (hub : s.opUbeam ≠ btEmpty) (htr : s.opRelTrack < b.nt.toNat) : exec .bmRelease s =
      if s.opWasNew ∧ s.units.beam s.opRelTrack (beamIndex b s.opFrame s.opSlot s.opSpf) = s.opUbeam then
        finish .ok (results 1 0 (beamIndex b s.opFrame s.opSlot s.opSpf))
          (s.units.setBeam s.opRelTrack (beamIndex b s.opFrame s.opSlot s.opSpf) btEmpty) s
      else finish .ok (results 0 0 (beamIndex b s.opFrame s.opSlot s.opSpf)) s.units s :=
  (withBma_timed_ok hb hslot hub).trans (check_ok htr.not_ge)

/-- Settles O58: the checks, then the entry is cleared only for WASNEW = 1 and the beam it holds. -/
theorem bmReleaseResult : Obligations.BmReleaseResult := by
  refine fun s => ⟨aborts_notConfigured_of_withBma rfl, fun b hb hok =>
    ⟨fun h => aborts_of_fatal (exec_bmRelease_badArg hb h), fun hslot hub htr =>
      ⟨fun hnew hheld => ?cleared, fun hkept => ?kept⟩⟩⟩
  case cleared =>
    exact setsBeam_of_finish ((exec_bmRelease_eq_ite hb hslot hub htr).trans (if_pos ⟨hnew, hheld⟩))
      (beamIndex_lt_65536 hok ..)
  case kept =>
    have hno : ¬ (s.opWasNew = true ∧
        s.units.beam s.opRelTrack (beamIndex b s.opFrame s.opSlot s.opSpf) = s.opUbeam) := by
      rintro ⟨hnew, hheld⟩
      rcases hkept with hold | hstale
      · exact absurd (hold.symm.trans hnew) Bool.false_ne_true
      · exact hstale hheld
    exact completes_of_finish ((exec_bmRelease_eq_ite hb hslot hub htr).trans (if_neg hno)) (complete_units ..)

end Sys2Proof.Machine
end

section
/-! How commands end (`60_exceptions.md` R400 to R406): every command and every step answers a next state,
with a documented result code (O6, O20); fatal results are aborts and soft ones leave the unit arrays (O19);
an illegal word is aborted (O4). -/

namespace Sys2Proof.Machine

variable {s t : State} {i : Instr} {c k : Nat} {d : Direction} {codes : List RCode}

/-! ### Answers that complete with one of some result codes (R401) -/

/-- The answer is a next state, in which the port that `s` serves holds one of these result codes. -/
def EndsIn (s : State) (codes : List RCode) (a : Answer) : Prop :=
  ∃ t, a = .next t ∧ (t.port s.cur).rcode ∈ codes

/-! That a code is listed is stated by the Bool `contains`, which `rfl` evaluates on the list of a command
whose operands are variables. -/

theorem endsIn_finish {rc : RCode} {res : Vector Word 4} {u : Units} (h : codes.contains rc = true) :
    EndsIn s codes (finish rc res u s) :=
  ⟨_, rfl, by rw [complete_port]; exact List.contains_iff_mem.1 h⟩

theorem endsIn_fatal {code : RCode} (h : codes.contains code = true) : EndsIn s codes (fatal code s) :=
  ⟨_, rfl, by rw [fatalState_port]; exact List.contains_iff_mem.1 h⟩

/-! The opening checks add their own codes (R180, R230, R330, R380). -/

theorem endsIn_check {bad : Prop} [Decidable bad] {code : RCode} {a : Answer}
    (h : codes.contains code = true) (ha : EndsIn s codes a) : EndsIn s codes (check bad code s a) := by
  by_cases hbad : bad
  · rw [check_bad hbad]; exact endsIn_fatal h
  · rwa [check_ok hbad]

theorem endsIn_inContext {a : Answer} (h : codes.contains .badIndex = true) (ha : EndsIn s codes a) :
    EndsIn s codes (inContext c s a) :=
  endsIn_check (bad := s.cfg.numCtx ≤ c) h ha

theorem endsIn_inLayouts {a : Answer} (h : codes.contains .badIndex = true) (ha : EndsIn s codes a) :
    EndsIn s codes (inLayouts k s a) :=
  endsIn_check (bad := s.cfg.numLayouts ≤ k) h ha

section
variable (hindex : codes.contains .badIndex = true) (hnone : codes.contains .notConfigured = true)
include hindex hnone

theorem endsIn_withPool {f : Pool → Answer} (hf : ∀ P, EndsIn s codes (f P)) :
    EndsIn s codes (withPool c d s f) := by
  refine endsIn_inContext hindex ?_
  cases s.units.pool c d with
  | none => exact endsIn_fatal hnone
  | some P => exact hf P

theorem endsIn_withRec {f : LaRec → Answer} (hf : ∀ R, EndsIn s codes (f R)) :
    EndsIn s codes (withRec c d s f) := by
  refine endsIn_inContext hindex ?_
  cases s.units.laRec c d with
  | none => exact endsIn_fatal hnone
  | some R => exact hf R

theorem endsIn_withLayout {f : Layout → Answer} (hf : ∀ l, EndsIn s codes (f l)) :
    EndsIn s codes (withLayout k s f) := by
  refine endsIn_inLayouts hindex ?_
  cases look s.units.lay k with
  | none => exact endsIn_fatal hnone
  | some l => exact hf l
end

theorem endsIn_withBma {f : BmaCfg → Answer} (hnone : codes.contains .notConfigured = true)
    (hf : ∀ b, EndsIn s codes (f b)) : EndsIn s codes (withBma s f) := by
  cases hb : s.units.bma with
  | none => rw [withBma_none hb]; exact endsIn_fatal hnone
  | some b => rw [withBma_ok hb]; exact hf b

/-! ### The commands whose end depends on what they find -/

theorem endsIn_hqTakeAvail : EndsIn s (codesOf (.hqTakeAvail d c)) (execHqTakeAvail d c s) :=
  endsIn_withPool rfl rfl fun _ => by split <;> exact endsIn_finish rfl

theorem endsIn_hqTakeRetx : EndsIn s (codesOf (.hqTakeRetx d c)) (execHqTakeRetx d c s) :=
  endsIn_withPool rfl rfl fun _ => by split <;> exact endsIn_finish rfl

theorem endsIn_hqMarkFb : EndsIn s (codesOf (.hqMarkFb d c)) (execHqMarkFb d c s) :=
  endsIn_withPool rfl rfl fun _ => endsIn_check rfl <| by
    split
    · exact endsIn_finish rfl
    · exact endsIn_finish rfl
    · exact endsIn_fatal rfl

theorem endsIn_hqFeedback : EndsIn s (codesOf (.hqFeedback d c)) (execHqFeedback d c s) :=
  endsIn_withPool rfl rfl fun _ => endsIn_check rfl <| endsIn_check rfl <| by
    split <;> exact endsIn_finish rfl

theorem endsIn_ccpFind {mark : Bool} : EndsIn s (codesOf (.ccpFind mark k)) (execCcpFind mark k s) :=
  endsIn_withLayout rfl rfl fun _ => endsIn_check rfl <| endsIn_check rfl <| endsIn_check rfl <| by
    split <;> exact endsIn_finish rfl

theorem endsIn_ccpSearch {mark : Bool} :
    EndsIn s (codesOf (.ccpSearch mark k)) (execCcpSearch mark k s) :=
  endsIn_withLayout rfl rfl fun _ => endsIn_check rfl <| endsIn_check rfl <| endsIn_check rfl <| by
    split <;> exact endsIn_finish rfl

theorem endsIn_occClear {all : Bool} : EndsIn s (codesOf (.occClear all)) (execOccClear all s) := by
  cases all
  · exact endsIn_check rfl <| endsIn_finish rfl
  · exact endsIn_finish rfl

theorem endsIn_genEncode : EndsIn s (codesOf .genEncode) (execGenEncode s) := by
  unfold execGenEncode
  split
  · exact endsIn_fatal rfl
  split
  · exact endsIn_fatal rfl
  refine endsIn_check rfl ?_
  split
  · exact endsIn_fatal rfl
  · exact endsIn_check rfl <| endsIn_finish rfl

theorem endsIn_laEval : EndsIn s (codesOf (.laEval d c)) (execLaEval d c s) :=
  endsIn_withRec rfl rfl fun _ => by split <;> exact endsIn_finish rfl

theorem endsIn_laRead {sel : Bool} : EndsIn s (codesOf (.laRead d sel c)) (execLaRead d sel c s) :=
  endsIn_withRec rfl rfl fun _ => by split <;> exact endsIn_finish rfl

theorem endsIn_rbsFit : EndsIn s (codesOf .rbsFit) (execRbsFit s) :=
  endsIn_check rfl <| endsIn_finish (by split <;> rfl)

theorem endsIn_bmAlloc : EndsIn s (codesOf .bmAlloc) (execBmAlloc s) :=
  endsIn_withBma rfl fun _ => endsIn_check rfl <| endsIn_check rfl <| by
    dsimp only
    split
    · exact endsIn_finish rfl
    · split <;> exact endsIn_finish rfl

theorem endsIn_bmRelease : EndsIn s (codesOf .bmRelease) (execBmRelease s) :=
  endsIn_withBma rfl fun _ => endsIn_check rfl <| endsIn_check rfl <| endsIn_check rfl <| by
    dsimp only
    split <;> exact endsIn_finish rfl

/-! ### Every command -/

theorem exec_endsIn (i : Instr) (s : State) : EndsIn s (codesOf i) (exec i s) := by
  cases i with
  | nop | genClear => exact endsIn_finish rfl
  | ctxRelease => exact endsIn_inContext rfl <| endsIn_finish rfl
  | hqCreate => exact endsIn_inContext rfl <| endsIn_check rfl <| endsIn_finish rfl
  | hqTakeAvail => exact endsIn_hqTakeAvail
  | hqMarkFb => exact endsIn_hqMarkFb
  | hqFeedback => exact endsIn_hqFeedback
  | hqTakeRetx => exact endsIn_hqTakeRetx
  | hqResize =>
    exact endsIn_withPool rfl rfl fun _ => endsIn_check rfl <| endsIn_check rfl <| endsIn_finish rfl
  | hqQuery => exact endsIn_withPool rfl rfl fun _ => endsIn_check rfl <| endsIn_finish rfl
  | hqStat => exact endsIn_withPool rfl rfl fun _ => endsIn_finish rfl
  | ccpLayoutSet => exact endsIn_inLayouts rfl <| endsIn_check rfl <| endsIn_finish rfl
  | ccpLayoutDel => exact endsIn_inLayouts rfl <| endsIn_finish rfl
  | ccpLayoutInfo => exact endsIn_withLayout rfl rfl fun _ => endsIn_finish rfl
  | ccpCceMap => exact endsIn_withLayout rfl rfl fun _ => endsIn_check rfl <| endsIn_finish rfl
  | ccpFind => exact endsIn_ccpFind
  | ccpSearch => exact endsIn_ccpSearch
  | ccpMark =>
    exact endsIn_withLayout rfl rfl fun _ =>
      endsIn_check rfl <| endsIn_check rfl <| endsIn_check rfl <| endsIn_finish rfl
  | occClear => exact endsIn_occClear
  | occSet => exact endsIn_check rfl <| endsIn_check rfl <| endsIn_finish rfl
  | occRead => exact endsIn_check rfl <| endsIn_finish rfl
  | genField => exact endsIn_check rfl <| endsIn_check rfl <| endsIn_finish rfl
  | genEncode => exact endsIn_genEncode
  | laInit => exact endsIn_inContext rfl <| endsIn_check rfl <| endsIn_check rfl <| endsIn_finish rfl
  | laEval => exact endsIn_laEval
  | laRead => exact endsIn_laRead
  | rbsFit => exact endsIn_rbsFit
  | bmConfig => exact endsIn_check rfl <| endsIn_check rfl <| endsIn_check rfl <| endsIn_finish rfl
  | bmAlloc => exact endsIn_bmAlloc
  | bmRelease => exact endsIn_bmRelease
  | bmRead => exact endsIn_withBma rfl fun _ => endsIn_check rfl <| endsIn_finish rfl

/-- Settles O20: the code of the next state is one of those that `exec` can end in. -/
theorem onlyDocumentedCodes : Obligations.OnlyDocumentedCodes := by
  intro i s t h
  obtain ⟨t', hnext, hcode⟩ := exec_endsIn i s
  cases h.symm.trans hnext
  exact hcode

/-! ### Every step answers (R406, R465) -/

theorem exec_answers (i : Instr) (s : State) : ∃ t, exec i s = .next t :=
  let ⟨t, hnext, _⟩ := exec_endsIn i s
  ⟨t, hnext⟩

theorem runCommand_answers (p : PortId) (s : State) : ∃ t, runCommand p s = .next t := by
  unfold runCommand
  dsimp only
  split
  · exact exec_answers ..
  · exact ⟨_, rfl⟩

theorem runMove_answers (m : EngineMove) (s : State) : ∃ t, runMove m s = .next t := by
  cases m with
  | command p => exact runCommand_answers ..
  | grant p => exact ⟨_, rfl⟩

theorem engineMove_answers (m : EngineMove) (s : State) : ∃ t, engineMove m s = .next t := by
  unfold engineMove
  split
  · exact runMove_answers ..
  · exact ⟨s, rfl⟩

theorem engineFree_answers (s : State) : ∃ t, engineFree s = .next t := by
  rcases engineFree_cases s with ⟨-, hidle⟩ | ⟨m, n, -, hmove⟩
  · exact ⟨s, hidle⟩
  · rw [hmove]; exact engineMove_answers ..

theorem takeTurn_answers (u : Turn) (s : State) : ∃ t, takeTurn u s = .next t := by
  cases u with
  | access | hardReset => exact ⟨_, rfl⟩
  | engine m => exact engineMove_answers m s

theorem step_answers (s : State) : ∃ t, step s = .next t := by
  cases ha : s.agenda with
  | nil => rw [step_nil ha]; exact engineFree_answers s
  | cons u rest => rw [step_cons ha]; exact takeTurn_answers ..

/-- Settles O6: `exec` ends only through a completion or a fatal result, and every turn of a step ends in
`exec`, in a fatal result or in a state written out. -/
theorem everyStepAnswers : Obligations.EveryStepAnswers :=
  ⟨exec_answers, step_answers⟩

/-! ### Result classes (R400, R405) -/

/-- A completion that changes the unit arrays has the code OK. -/
theorem UnitStep.units_eq {rc : RCode} {u : Units} (h : UnitStep s i rc u) (hrc : rc ≠ .ok) :
    u = s.units := by
  cases h with
  | same => rfl
  | _ => exact absurd rfl hrc

theorem isFatal_iff {code : RCode} : code.isFatal = true ↔ 0x80 ≤ code.toByte.toNat :=
  decide_eq_true_iff

/-- Settles O19: a fatal code comes only from `fatalState`, any other code from a completion. -/
theorem resultClasses : Obligations.ResultClasses := by
  intro i s t h
  rcases exec_shape h with ⟨code, hf, rfl⟩ | ⟨rc, res, u, hf, rfl, hu⟩
  · have hge : 0x80 ≤ code.toByte.toNat := isFatal_iff.1 hf
    rw [fatalState_port]
    exact ⟨fun _ => abortedWith_fatalState s code, fun hlt => absurd hge hlt.not_ge⟩
  · have hlt : ¬ 0x80 ≤ rc.toByte.toNat := fun hge => by simp [isFatal_iff.2 hge] at hf
    rw [complete_port, complete_units]
    exact ⟨fun hge => absurd hge hlt,
      fun _ => ⟨complete_greg .., fun hbyte => hu.units_eq (by rintro rfl; exact hbyte rfl)⟩⟩

/-! ### Illegal words (R403) -/

section
variable {p : PortId} {w : Word} {rest : List Turn}

/-- The engine serves the pending word. -/
theorem word_of_pend (f : Fairness) (hp : (s.port p).pend = some w) :
    State.word { s with fair := f, cur := p } = w := by
  have hme : State.me { s with fair := f, cur := p } = s.port p := by cases p <;> rfl
  rw [State.word, hme, hp]
  rfl

/-- The engine's command move aborts a pending word that does not decode. -/
theorem runMove_illegal (hp : (s.port p).pend = some w) (hd : decode s.cfg w = none) :
    runMove (.command p) s = fatal .illegalCmd { s with cur := p, fair := fairAfter s p } := by
  simp only [runMove, EngineMove.port, runCommand, word_of_pend _ hp, hd, execIllegal]

theorem step_illegal (ha : s.agenda = .engine (.command p) :: rest) (hp : (s.port p).pend = some w)
    (hhold : s.holdOwner = none ∨ s.holdOwner = some p) (ho : overdue s p.other = false)
    (hd : decode s.cfg w = none) :
    step s = fatal .illegalCmd { s with agenda := rest, cur := p, fair := fairAfter s p } := by
  rw [step_engine ha (moveEnabled_command.2 ⟨by simp [hp], hhold⟩), fairMove_self ho,
    runMove_illegal (s := s.turned rest s.pick s.fair) (by simpa using hp) hd, fairAfter_turned]
  rfl
end

/-- Settles O4: the step is the fatal result ILLEGAL_CMD of the served port. -/
theorem illegalWordAborts : Obligations.IllegalWordAborts :=
  fun _ _ _ _ ha hp hhold ho hd => ⟨_, step_illegal ha hp hhold ho hd, abortedWith_fatalState ..⟩

end Sys2Proof.Machine
end

section
/-! Fairness between the ports (`70_reset_and_hazards.md` R464, log 27): a bound on how long the engine can
pass over a port's command, which no step raises while the command is pending and every turn at which the
engine could run the command lowers (O60). -/

namespace Sys2Proof.Machine

variable {s t : State} {p q : PortId}

/-! ### The fairness record after a move -/

theorem PortId.eq_or_eq_other (p q : PortId) : q = p ∨ q = p.other := by cases p <;> cases q <;> decide

/-- A further move for the same port counts whether it passed over the other port's command. -/
theorem fairAfter_last (h : p = s.fair.last) :
    fairAfter s p = { s.fair with streak := s.fair.streak + flagNat (moveEnabled s (.command p.other)) } :=
  if_pos h

/-- A move for the other port opens the next round. -/
theorem fairAfter_change (h : p ≠ s.fair.last) : fairAfter s p =
    { last := p, streak := flagNat (moveEnabled s (.command p.other)), round := s.fair.round + 1 } :=
  if_neg h

/-- A command that may run, of the port not served last, is overdue once the round's patience is used up. -/
theorem overdue_eq_false (hlast : s.fair.last ≠ p) (hm : moveEnabled s (.command p) = true) :
    overdue s p = false ↔ s.fair.streak < Config.patience s.fair.round := by
  simp [overdue, hm, hlast.symm]

/-! ### How long a port can still be passed over -/

/-- A bound on the engine turns that can still pass over a command of port `p`. It is 0 for the owner of
the hold. After a move for `p` the other port has the whole of the next round. -/
def passesLeft (s : State) (p : PortId) : Nat :=
  if s.holdOwner = some p then 0
  else if s.fair.last = p then Config.patience (s.fair.round + 1) + 2
  else Config.patience s.fair.round - s.fair.streak + 1

theorem passesLeft_of_owner (h : s.holdOwner = some p) : passesLeft s p = 0 := if_pos h

theorem passesLeft_of_last (h : s.holdOwner ≠ some p) (hlast : s.fair.last = p) :
    passesLeft s p = Config.patience (s.fair.round + 1) + 2 := by
  rw [passesLeft, if_neg h, if_pos hlast]

theorem passesLeft_of_not_last (h : s.holdOwner ≠ some p) (hlast : s.fair.last ≠ p) :
    passesLeft s p = Config.patience s.fair.round - s.fair.streak + 1 := by
  rw [passesLeft, if_neg h, if_neg hlast]

theorem passesLeft_pos (h : s.holdOwner ≠ some p) : 0 < passesLeft s p := by
  by_cases hlast : s.fair.last = p
  · rw [passesLeft_of_last h hlast]; omega
  · rw [passesLeft_of_not_last h hlast]; omega

theorem passesLeft_agenda (s : State) (a : List Turn) : passesLeft { s with agenda := a } p = passesLeft s p :=
  rfl

theorem passesLeft_le_of_fair_eq (hfair : t.fair = s.fair)
    (hhold : s.holdOwner = some p → t.holdOwner = some p) : passesLeft t p ≤ passesLeft s p := by
  by_cases ht : t.holdOwner = some p
  · simp [passesLeft_of_owner ht]
  · simp [passesLeft, ht, mt hhold ht, hfair]

/-- A move for the other port does not raise the bound, and lowers it when it passes over a command of
`p`. -/
theorem passesLeft_after_other (hfair : t.fair = fairAfter s p.other) (hhold : s.holdOwner ≠ some p) :
    passesLeft t p ≤ passesLeft s p ∧
    (overdue s p = false → moveEnabled s (.command p) = true → passesLeft t p < passesLeft s p) := by
  by_cases ht : t.holdOwner = some p
  · rw [passesLeft_of_owner ht]
    exact ⟨Nat.zero_le _, fun _ _ => passesLeft_pos hhold⟩
  by_cases hlast : s.fair.last = p
  · rw [fairAfter_change fun e => p.other_ne (e.trans hlast)] at hfair
    rw [passesLeft_of_last hhold hlast, passesLeft_of_not_last ht (by simp [hfair, p.other_ne]), hfair]
    dsimp only
    omega
  · have hother : p.other = s.fair.last :=
      ((PortId.eq_or_eq_other p s.fair.last).resolve_left hlast).symm
    rw [fairAfter_last hother] at hfair
    rw [passesLeft_of_not_last hhold hlast, passesLeft_of_not_last ht (by simpa [hfair] using hlast), hfair,
      PortId.other_other]
    refine ⟨by dsimp only; omega, fun ho hm => ?_⟩
    have hstreak := (overdue_eq_false hlast hm).1 ho
    simp only [hm, flagNat, if_true]
    omega

/-! ### A step through which a command stays pending -/

/-- The engine moves, at an instant at which port `p` has a command that no hold excludes. -/
def EligibleTurn (s : State) (p : PortId) : Prop :=
  moveEnabled s (.command p) = true ∧
    (s.agenda = [] ∨ ∃ e rest, s.agenda = .engine e :: rest ∧ moveEnabled s e = true)

/-- What a step can do through which port `p` stays BUSY: no engine move, the grant of the hold to `p`, or a
move for the other port while `p` is not overdue. -/
inductive Waits (s t : State) (p : PortId) : Prop
  | quiet (hfair : t.fair = s.fair) (hhold : s.holdOwner = some p → t.holdOwner = some p)
      (hturn : ¬ EligibleTurn s p)
  | granted (hfree : s.holdOwner = none) (hown : t.holdOwner = some p)
  | passed (hfair : t.fair = fairAfter s p.other) (ho : overdue s p = false)
      (hhold : s.holdOwner ≠ some p)

/-- A register write leaves the fairness record. -/
theorem WriteKind.fair_eq (h : WriteKind s t) : t.fair = s.fair := by
  cases h with
  | nothing e | reset e | errClear e | irq _ _ e => subst e; rfl
  | overrun _ _ e | accept _ _ _ e | arg _ _ _ _ e => subst e; exact State.setPort_fair ..
  | hold q v _ e => subst e; exact State.setPort_fair s q { s.port q with holdReq := bit v 0 }

/-- A register write leaves the hold of a BUSY port, whose HOLD writes are dropped (R104), or resets the
block. -/
theorem WriteKind.hold_kept (h : WriteKind s t) (hbusy : (s.port p).busy = true)
    (howner : s.holdOwner = some p) : t.port p = Port.reset ∨ t.holdOwner = some p := by
  rw [← howner]
  cases h with
  | reset e => subst e; exact .inl (resetBlock_port ..)
  | nothing e | errClear e | irq _ _ e => subst e; exact .inr rfl
  | overrun _ _ e | accept _ _ _ e | arg _ _ _ _ e => subst e; exact .inr (State.setPort_holdOwner ..)
  | hold q v hidle e =>
    subst e
    rcases writeHold_holdOwner s q v with hkept | ⟨hq, -⟩
    · exact .inr hkept
    · cases howner.symm.trans hq
      rw [hbusy] at hidle
      cases hidle

/-- The port that the engine served is idle: a port still BUSY was passed over. -/
theorem Served.waits {a : List Turn} {n : Nat} (hm : moveEnabled s (.command q) = true)
    (ho : overdue s q.other = false) (h : Served ((s.turned a n (fairAfter s q)).serving q) t)
    (hbusy : (t.port p).busy = true) : Waits s t p := by
  obtain ⟨rc, res, hport⟩ := h.port
  rw [serving_cur] at hport
  rcases PortId.eq_or_eq_other p q with rfl | rfl
  · simp [hport, Port.busy] at hbusy
  · exact .passed h.kept.fair (by rwa [PortId.other_other] at ho)
      fun howner => p.other_ne (owner_of_command_enabled howner hm)

theorem step_waits (h : step s = .next t) (hs : (s.port p).busy = true) (ht : (t.port p).busy = true) :
    Waits s t p := by
  cases step_cases h with
  | command a n q i hm ho h => exact (exec_served h).waits hm ho ht
  | illegal a n q hm ho e => subst e; exact (served_fatalState ..).waits hm ho ht
  | grant a n q hm ho e =>
    subst e
    obtain ⟨-, hfree⟩ := moveEnabled_grant.1 hm
    rcases PortId.eq_or_eq_other p q with rfl | rfl
    · exact .granted hfree rfl
    · exact .passed rfl (by rwa [PortId.other_other] at ho) (by simp [hfree])
  | idle a e hi =>
    subst e
    refine .quiet rfl id fun ⟨hm, hturn⟩ => ?_
    rcases hturn with hnil | ⟨e, rest, hcons, he⟩
    · simp [hi _ [] (.inl hnil)] at hm
    · simp [hi _ _ (.inr hcons)] at he
  | access a host op e ha =>
    obtain ⟨u, r, hw, e'⟩ := busAccess_cases (s.turned a s.pick s.fair) host op
    rw [e'] at e
    subst e
    refine .quiet hw.fair_eq (fun howner => ?_) fun ⟨_, hturn⟩ => by simp [ha] at hturn
    rcases hw.hold_kept (p := p) (by simpa using hs) howner with hreset | hkept
    · simp [hreset, Port.busy, Port.reset] at ht
    · exact hkept
  | hardReset a e ha => subst e; simp [Port.busy, Port.reset] at ht

/-- The bound never rises while the command waits, and an eligible turn lowers it; for the owner of the hold
no eligible turn leaves the command pending. -/
theorem Waits.passesLeft_le (h : Waits s t p) :
    passesLeft t p ≤ passesLeft s p ∧ (EligibleTurn s p → passesLeft t p < passesLeft s p) := by
  cases h with
  | quiet hfair hhold hturn => exact ⟨passesLeft_le_of_fair_eq hfair hhold, fun h => absurd h hturn⟩
  | granted hfree hown =>
    rw [passesLeft_of_owner hown]
    exact ⟨Nat.zero_le _, fun _ => passesLeft_pos (by simp [hfree])⟩
  | passed hfair ho hhold =>
    obtain ⟨hle, hlt⟩ := passesLeft_after_other hfair hhold
    exact ⟨hle, fun hturn => hlt ho hturn.1⟩

/-! ### Infinite runs -/

/-- `S` is a run of steps, between which the host agents replace the turns to come. -/
def IsRun (S : Nat → State) : Prop :=
  ∀ n, ∃ t a, step (S n) = .next t ∧ S (n + 1) = { t with agenda := a }

theorem IsRun.passesLeft_succ {S : Nat → State} (hrun : IsRun S) {n : Nat}
    (hn : ((S n).port p).busy = true) (hsucc : ((S (n + 1)).port p).busy = true) :
    passesLeft (S (n + 1)) p ≤ passesLeft (S n) p ∧
    (EligibleTurn (S n) p → passesLeft (S (n + 1)) p < passesLeft (S n) p) := by
  obtain ⟨t, a, hstep, hnext⟩ := hrun n
  rw [hnext, State.port_with_agenda] at hsucc
  rw [hnext, passesLeft_agenda]
  exact (step_waits hstep hn hsucc).passesLeft_le

/-- Induction on the bound at instant `n`: were `p` BUSY for ever, the bound would be smaller after the next
eligible turn. -/
theorem IsRun.idle_again {S : Nat → State} (hrun : IsRun S)
    (hturns : ∀ n, ∃ m, n ≤ m ∧ EligibleTurn (S m) p) (n : Nat) :
    ∃ m, n ≤ m ∧ ((S m).port p).busy = false := by
  induction hk : passesLeft (S n) p using Nat.strong_induction_on generalizing n with
  | h k ih =>
    by_contra hnever
    have hbusy : ∀ m ≥ n, ((S m).port p).busy = true := fun m hm =>
      Bool.eq_true_of_not_eq_false fun hidle => hnever ⟨m, hm, hidle⟩
    have hstep (m : Nat) (hm : m ≥ n) := hrun.passesLeft_succ (hbusy m hm) (hbusy (m + 1) (by omega))
    obtain ⟨m, hm, hturn⟩ := hturns n
    have hlt : passesLeft (S (m + 1)) p < k := calc
      passesLeft (S (m + 1)) p < passesLeft (S m) p := (hstep m hm).2 hturn
      _ ≤ passesLeft (S n) p :=
        antitoneOn_nat_Ici_of_succ_le (f := fun m => passesLeft (S m) p) (fun m hm => (hstep m hm).1)
          (Set.self_mem_Ici) hm hm
      _ = k := hk
    obtain ⟨m', hm', hidle⟩ := ih _ hlt (m + 1) rfl
    exact hnever ⟨m', by omega, hidle⟩

/-- Settles O60: `passesLeft` cannot fall for ever. -/
theorem everyEligibleCommandCompletes : Obligations.EveryEligibleCommandCompletes := by
  intro S p hrun hturns n
  obtain ⟨m, hm, hidle⟩ := IsRun.idle_again hrun hturns n
  exact ⟨m, hm, by simpa [Port.busy] using hidle⟩

end Sys2Proof.Machine
end

section
/-! The resource-block sizer: what one RBS_FIT answers (`45_rb_sizer.md` R360 to R364). -/

namespace Sys2Proof.Machine

variable {tp : Bool} {T : Nat → Nat} {target lo hi n q fuel ev : Nat} {s : State}

/-! ### Conforming and fitting counts -/

theorem mem_conforming_succ : n ∈ conforming tp lo (hi + 1) ↔ Conforming tp lo hi n := by
  rw [mem_conforming, Nat.lt_succ_iff, Conforming]

theorem isLeast_of_head?_conforming (h : (conforming tp lo (hi + 1)).head? = some n) :
    IsLeast {m | Conforming tp lo hi m} n := by
  obtain ⟨rest, e⟩ := List.head?_eq_some_iff.1 h
  refine ⟨mem_conforming_succ.1 (List.mem_of_head? h), fun m hm => ?_⟩
  have hsorted := e ▸ conforming_sorted tp lo (hi + 1)
  rcases List.mem_cons.1 (e ▸ mem_conforming_succ.2 hm) with rfl | hmem
  · exact le_rfl
  · exact (List.rel_of_pairwise_cons hsorted hmem).le

theorem isGreatest_of_getLast?_conforming (h : (conforming tp lo (hi + 1)).getLast? = some n) :
    IsGreatest {m | Conforming tp lo hi m} n := by
  obtain ⟨front, e⟩ := List.getLast?_eq_some_iff.1 h
  refine ⟨mem_conforming_succ.1 (List.mem_of_getLast? h), fun m hm => ?_⟩
  have hsorted := e ▸ conforming_sorted tp lo (hi + 1)
  rcases List.mem_append.1 (e ▸ mem_conforming_succ.2 hm) with hmem | hmem
  · exact ((List.pairwise_append.1 hsorted).2.2 m hmem n (List.mem_singleton_self n)).le
  · exact (List.mem_singleton.1 hmem).le

/-- The conforming counts of [lo, hi] whose block size reaches the target. -/
def Fitting (tp : Bool) (T : Nat → Nat) (target lo hi : Nat) : Set Nat :=
  {m | Conforming tp lo hi m ∧ target ≤ T m}

/-- A count below the least fitting one can be left out of the range. -/
theorem isLeast_fitting_above (h : IsLeast (Fitting tp T target lo hi) n) (hq : lo ≤ q) (hqn : q < n) :
    IsLeast (Fitting tp T target (q + 1) hi) n := by
  obtain ⟨⟨⟨-, hnhi, hconf⟩, hfit⟩, hleast⟩ := h
  refine ⟨⟨⟨hqn, hnhi, hconf⟩, hfit⟩, fun m ⟨⟨hqm, hmhi, hmconf⟩, hmfit⟩ => ?_⟩
  exact hleast ⟨⟨by omega, hmhi, hmconf⟩, hmfit⟩

theorem isLeast_fitting_below (h : IsLeast (Fitting tp T target lo hi) n) (hqhi : q ≤ hi) (hnq : n ≤ q) :
    IsLeast (Fitting tp T target lo q) n := by
  obtain ⟨⟨⟨hlon, -, hconf⟩, hfit⟩, hleast⟩ := h
  refine ⟨⟨⟨hlon, hnq, hconf⟩, hfit⟩, fun m ⟨⟨hlom, hmq, hmconf⟩, hmfit⟩ => ?_⟩
  exact hleast ⟨⟨hlom, by omega, hmconf⟩, hmfit⟩

/-! ### The loop (R362) -/

theorem sizeLoop_of_probe_none (th : Nat) (h : probe tp lo hi = none) :
    sizeLoop tp T target fuel lo hi th ev = (hi, th, ev) := by
  cases fuel <;> simp [sizeLoop, h]

theorem sizeLoop_of_fits (th : Nat) (h : probe tp lo hi = some q) (hq : target ≤ T q) :
    sizeLoop tp T target (fuel + 1) lo hi th ev = sizeLoop tp T target fuel lo q (T q) (ev + 1) := by
  simp [sizeLoop, h, hq]

theorem sizeLoop_of_not_fits (th : Nat) (h : probe tp lo hi = some q) (hq : T q < target) :
    sizeLoop tp T target (fuel + 1) lo hi th ev = sizeLoop tp T target fuel q hi th (ev + 1) := by
  simp [sizeLoop, h, hq.not_ge]

/-- `V` can be the counts at which TBS_FN was evaluated strictly between lo and hi: conforming, and no count
twice (R364). -/
def Probed (tp : Bool) (lo hi : Nat) (V : List Nat) : Prop :=
  V.Nodup ∧ ∀ m ∈ V, Conforming tp (lo + 1) (hi - 1) m

theorem probed_nil : Probed tp lo hi [] := ⟨List.nodup_nil, by simp⟩

/-- The probes after `q` lie on one side of it, in (lo', hi'), so `q` is not probed again. -/
theorem Probed.cons {lo' hi' : Nat} {V : List Nat} (hV : Probed tp lo' hi' V)
    (hprobe : probe tp lo hi = some q) (hlo : lo ≤ lo') (hhi : hi' ≤ hi) (hside : q ≤ lo' ∨ hi' ≤ q) :
    Probed tp lo hi (q :: V) := by
  obtain ⟨hlq, hqh, hconf⟩ := probe_some hprobe
  obtain ⟨hnodup, hmem⟩ := hV
  refine ⟨List.nodup_cons.2 ⟨fun hq => ?_, hnodup⟩, List.forall_mem_cons.2 ⟨?_, fun m hm => ?_⟩⟩
  · obtain ⟨hlo', hhi', -⟩ := hmem q hq
    omega
  · exact ⟨hlq, by omega, hconf⟩
  · obtain ⟨hlo', hhi', hmconf⟩ := hmem m hm
    exact ⟨by omega, by omega, hmconf⟩

/-- The loop ends at the least fitting count of (lo, hi], with one evaluation per probe. -/
theorem sizeLoop_spec (hT : Monotone T) (hleast : IsLeast (Fitting tp T target (lo + 1) hi) n)
    (hfuel : hi - lo ≤ fuel) : ∃ V, Probed tp lo hi V ∧
      sizeLoop tp T target fuel lo hi (T hi) ev = (n, T n, ev + V.length) := by
  induction fuel generalizing lo hi ev with
  | zero =>
    have ⟨⟨⟨hlon, hnhi, _⟩, _⟩, _⟩ := hleast
    omega
  | succ fuel ih =>
    have ⟨⟨⟨hlon, hnhi, hconf⟩, hfit⟩, hmin⟩ := hleast
    cases hprobe : probe tp lo hi with
    | none =>
      have hn : n = hi := by
        by_contra hne
        exact probe_none hprobe n (by omega) (by omega) hconf
      subst hn
      exact ⟨[], probed_nil, sizeLoop_of_probe_none _ hprobe⟩
    | some q =>
      obtain ⟨hlq, hqh, hqconf⟩ := probe_some hprobe
      rcases le_or_gt target (T q) with hq | hq
      · have hnq : n ≤ q := hmin ⟨⟨by omega, by omega, hqconf⟩, hq⟩
        obtain ⟨V, hV, e⟩ := ih (ev := ev + 1) (isLeast_fitting_below hleast hqh.le hnq) (by omega)
        refine ⟨q :: V, hV.cons hprobe le_rfl hqh.le (.inr le_rfl), ?_⟩
        rw [sizeLoop_of_fits _ hprobe hq, e, List.length_cons, Nat.add_right_comm, Nat.add_assoc]
      · have hqn : q < n := hT.reflect_lt (hq.trans_le hfit)
        obtain ⟨V, hV, e⟩ := ih (ev := ev + 1) (isLeast_fitting_above hleast hlq hqn) (by omega)
        refine ⟨q :: V, hV.cons hprobe hlq.le le_rfl (.inl le_rfl), ?_⟩
        rw [sizeLoop_of_not_fits _ hprobe hq, e, List.length_cons, Nat.add_right_comm, Nat.add_assoc]

/-! ### The fit (R363, R364) -/

section Fit
variable {minRb maxRb : Nat}

theorem fitRb_of_none_conforming (h : ∀ m, ¬ Conforming tp minRb maxRb m) :
    fitRb tp T target minRb maxRb = ⟨0, 0, false, 0⟩ := by
  have hnil : conforming tp minRb (maxRb + 1) = [] :=
    List.eq_nil_iff_forall_not_mem.2 fun m hm => h m (mem_conforming_succ.1 hm)
  simp [fitRb, hnil]

/-- With a conforming count in the range, the fit is the search between the least and the greatest. -/
theorem fitRb_of_conforming (h : Conforming tp minRb maxRb n) : ∃ lo hi,
    IsLeast {m | Conforming tp minRb maxRb m} lo ∧ IsGreatest {m | Conforming tp minRb maxRb m} hi ∧
    fitRb tp T target minRb maxRb =
      if T hi < target then ⟨hi, T hi, false, 1⟩
      else if lo = hi then ⟨hi, T hi, true, 1⟩
      else if target ≤ T lo then ⟨lo, T lo, true, 2⟩
      else
        let r := sizeLoop tp T target (hi - lo) lo hi (T hi) 2
        ⟨r.1, r.2.1, true, r.2.2⟩ := by
  have hne : conforming tp minRb (maxRb + 1) ≠ [] := List.ne_nil_of_mem (mem_conforming_succ.2 h)
  have hhead := List.head?_eq_some_head hne
  have hlast := List.getLast?_eq_some_getLast hne
  refine ⟨_, _, isLeast_of_head?_conforming hhead, isGreatest_of_getLast?_conforming hlast, ?_⟩
  simp [fitRb, hhead, hlast]

theorem fitRb_of_top_too_small (hn : IsGreatest {m | Conforming tp minRb maxRb m} n) (ht : T n < target) :
    fitRb tp T target minRb maxRb = ⟨n, T n, false, 1⟩ := by
  obtain ⟨lo, hi, -, hhi, e⟩ := fitRb_of_conforming (T := T) (target := target) hn.1
  rw [e, hhi.unique hn, if_pos ht]

/-- With the two ends of the loop's first interval, evaluated before it, still no count comes twice. -/
theorem Probed.with_ends {V : List Nat} (hV : Probed tp lo hi V) (hlo : Conforming tp minRb maxRb lo)
    (hhi : Conforming tp minRb maxRb hi) (hlt : lo < hi) :
    (lo :: hi :: V).Nodup ∧ ∀ m ∈ lo :: hi :: V, Conforming tp minRb maxRb m := by
  obtain ⟨hnodup, hmem⟩ := hV
  have ⟨hminlo, _, _⟩ := hlo
  have ⟨_, hhimax, _⟩ := hhi
  have hloV : lo ∉ V := fun hm => by obtain ⟨hlolo, -, -⟩ := hmem lo hm; omega
  have hhiV : hi ∉ V := fun hm => by obtain ⟨-, hhihi, -⟩ := hmem hi hm; omega
  refine ⟨by simp [hnodup, hloV, hhiV, hlt.ne],
    List.forall_mem_cons.2 ⟨hlo, List.forall_mem_cons.2 ⟨hhi, fun m hm => ?_⟩⟩⟩
  obtain ⟨hlom, hmhi, hmconf⟩ := hmem m hm
  exact ⟨by omega, by omega, hmconf⟩

/-- The fit answers the least fitting count; `V` are the counts it evaluated, all conforming and no count
twice. -/
theorem fitRb_of_least_fitting (hT : Monotone T) (hn : IsLeast (Fitting tp T target minRb maxRb) n) :
    ∃ V : List Nat, V ≠ [] ∧ V.Nodup ∧ (∀ m ∈ V, Conforming tp minRb maxRb m) ∧
      fitRb tp T target minRb maxRb = ⟨n, T n, true, V.length⟩ := by
  have ⟨⟨hconf, hfit⟩, hmin⟩ := hn
  obtain ⟨lo, hi, ⟨hlo, hbot⟩, ⟨hhi, htop⟩, e⟩ := fitRb_of_conforming (T := T) (target := target) hconf
  have hlon : lo ≤ n := hbot hconf
  have hnhi : n ≤ hi := htop hconf
  have htarget : target ≤ T hi := hfit.trans (hT hnhi)
  rw [if_neg htarget.not_gt] at e
  by_cases hsingle : lo = hi
  · have hnlo : hi = n := by omega
    rw [if_pos hsingle, hnlo] at e
    exact ⟨[n], by simp, by simp, by simpa using hconf, e⟩
  rw [if_neg hsingle] at e
  rcases le_or_gt target (T lo) with hlow | hlow
  · have hnlo : lo = n := hlon.antisymm (hmin ⟨hlo, hlow⟩)
    rw [if_pos hlow] at e
    exact ⟨[lo, hi], by simp, by simpa using hsingle, by simpa using ⟨hlo, hhi⟩, hnlo ▸ e⟩
  · rw [if_neg hlow.not_ge] at e
    have hinner : IsLeast (Fitting tp T target (lo + 1) hi) n :=
      isLeast_fitting_below (isLeast_fitting_above hn hlo.1 (hT.reflect_lt (hlow.trans_le hfit)))
        hhi.2.1 hnhi
    obtain ⟨V, hV, hloop⟩ := sizeLoop_spec (ev := 2) hT hinner le_rfl
    obtain ⟨hnodup, hmem⟩ := hV.with_ends hlo hhi (by omega)
    refine ⟨lo :: hi :: V, by simp, hnodup, hmem, ?_⟩
    rw [e, hloop, Nat.add_comm 2]
    rfl

end Fit

/-! ### The command -/

theorem exec_rbsFit_ok {r : FitResult}
    (hrange : 1 ≤ s.opMinRb ∧ s.opMinRb ≤ s.opMaxRb ∧ s.opMaxRb ≤ s.cfg.numRb)
    (hr : fitRb s.opTp (fun n => tbsFn s.cfg.tbs n s.opCpar) s.opTarget s.opMinRb s.opMaxRb = r) :
    exec .rbsFit s = finish (if r.fits then .ok else .notFit)
      (results r.rb r.achieved (flagNat r.fits) r.evals) s.units s :=
  hr ▸ check_ok (not_not.2 hrange)

theorem aborts_rbsFit_of_bad_range
    (hrange : ¬ (1 ≤ s.opMinRb ∧ s.opMinRb ≤ s.opMaxRb ∧ s.opMaxRb ≤ s.cfg.numRb)) :
    Aborts .rbsFit s .badArg :=
  aborts_of_fatal (check_bad hrange)

/-- Settles O55: the loop closes in on the least fitting count and never evaluates a count twice. -/
theorem rbsFitResult : Obligations.RbsFitResult := by
  intro s T C
  have hmono : ∀ m n, m ≤ n → T m ≤ T n := tbsFn_mono s.cfg.tbs s.opCpar
  refine ⟨hmono, aborts_rbsFit_of_bad_range, fun h1 h2 h3 => ⟨?_, ?_, ?_⟩⟩
  · intro hnone
    exact completes_of_finish (exec_rbsFit_ok ⟨h1, h2, h3⟩ (fitRb_of_none_conforming hnone))
      (complete_units ..)
  · intro n hconf htop hsmall
    exact completes_of_finish
      (exec_rbsFit_ok ⟨h1, h2, h3⟩ (fitRb_of_top_too_small ⟨hconf, fun m => htop m⟩ hsmall))
      (complete_units ..)
  · intro n hconf hfit hmin
    have hleast : IsLeast (Fitting s.opTp T s.opTarget s.opMinRb s.opMaxRb) n :=
      ⟨⟨hconf, hfit⟩, fun m ⟨hm, hmfit⟩ => hmin m hm hmfit⟩
    obtain ⟨V, hne, hnodup, hV, e⟩ := fitRb_of_least_fitting (fun m n => hmono m n) hleast
    obtain ⟨t, ht, hdone, hunits⟩ := completes_of_finish (Q := fun t => t.units = s.units)
      (exec_rbsFit_ok ⟨h1, h2, h3⟩ e) (complete_units ..)
    refine ⟨t, V.length, ht, hdone, hunits, List.length_pos_iff.2 hne, fun L hL => ?_⟩
    exact (hnodup.subperm fun m hm => hL m (hV m hm)).length_le

end Sys2Proof.Machine
end
